-- ==== Sys2Proof/Word.lean ====
section
/-! DEFINITION. The widths of the block's values (00_scope.md R6, R7). -/

namespace Sys2Proof

/-- `BYTE`: every data, wire and port byte has 8 bits, bit 0 the least significant (R6, R7). -/
abbrev Byte := BitVec 8

/-- `CMD_W` and `RSP_W`: a command word and a response word have 16 bits (R6). -/
abbrev Word := BitVec 16

end Sys2Proof
end

