-- ==== Sys2Proof/Config.lean ====
section
/-! DEFINITION. The block's parameters (00_scope.md R6): what is fixed for one block and is not state.
`N_ENC` and `N_DEC` are 1 and are the two fields `enc` and `dec` of State. `SNK_CAP` is open per attachment and
is the length of the attached buffer (Machine/State.lean, `MemSink`). `ENV` is open per transaction and is the
answers held in State. -/

namespace Sys2Proof

/-- `PKT_MAX`, the largest length of the operands P and W: OPEN, any natural number (R6, R76, D30).
No body: no proof can see its value, so a statement holds for every value of it. Log entry 2. -/
opaque Config.pktMax : Nat

/-- `READ_CHUNK`: the `max_len` of every source read the block issues (R6, R45, D6). -/
def Config.readChunk : Nat := 1

/-- `WRITE_CHUNK`: the bytes the block passes in every sink write (R6, R45, D8). -/
def Config.writeChunk : Nat := 1

end Sys2Proof
end

