-- ==== Sys2Proof/Syntax.lean ====
section
/-! DEFINITION. The ten commands of the block, one constructor per row of spec/opcode_table.json
(30_encoding.md R75), each with its operands: `S` a boolean (R72), `D` a byte (R73), and the out-of-band byte
sequences `P` and `W` that the host hands over with the word (R76). -/

namespace Sys2Proof

/-- A command with its operands (30_encoding.md R75, R76). -/
inductive Instr where
  /-- ENC_INIT, `s` the new `ENC.USE_START` (R102). -/
  | encInit (s : Bool)
  /-- ENC_BYTE, `b` the byte to stuff (R103). -/
  | encByte (b : Byte)
  /-- ENC_PACKET, `s` the start-byte policy and `p` the payload P (R104). -/
  | encPacket (s : Bool) (p : List Byte)
  /-- ENC_TRANSFER (R105). -/
  | encTransfer
  /-- DEC_INIT, `s` the new `DEC.REQ_START` (R130). -/
  | decInit (s : Bool)
  /-- DEC_BYTE, `b` the wire byte (R131). -/
  | decByte (b : Byte)
  /-- DEC_TRANSFER (R132). -/
  | decTransfer
  /-- DEC_PACKET, `w` the wire buffer W (R134). -/
  | decPacket (w : List Byte)
  /-- DEC_GET_MALFORMED (R135). -/
  | decGetMalformed
  /-- DEC_CLEAR_MALFORMED (R136). -/
  | decClearMalformed
  deriving DecidableEq, Repr

end Sys2Proof
end

