-- ==== Sys2Proof/WellFormed.lean ====
section
/-! DEFINITION. Which commands the host may issue: the operands P and W have length 0 to `PKT_MAX`
(30_encoding.md R76, 40_encoder.md R104, 41_decoder.md R134). Every other operand is legal at every value
(R72, R73). -/

namespace Sys2Proof

/-- `fits bs n` says that `bs` has at most `n` bytes. It looks at `bs` first, so it can be evaluated on the empty
operand although `PKT_MAX` is open. -/
def fits : List Byte → Nat → Bool
  | [], _ => true
  | _ :: _, 0 => false
  | _ :: bs, n + 1 => fits bs n

/-- A command whose packet operand, if it has one, is within `PKT_MAX` (R76). -/
def Instr.wellFormed : Instr → Bool
  | .encInit _ => true
  | .encByte _ => true
  | .encPacket _ p => fits p Config.pktMax
  | .encTransfer => true
  | .decInit _ => true
  | .decByte _ => true
  | .decTransfer => true
  | .decPacket w => fits w Config.pktMax
  | .decGetMalformed => true
  | .decClearMalformed => true

end Sys2Proof
end

