-- ==== Sys2Proof/Decode.lean ====
section
/-! DEFINITION. Decoding a command word with its out-of-band operand (30_encoding.md R70 to R78), and the encoder
back to the two. The decoder is total on the 65,536 words and rejects by name. -/

namespace Sys2Proof

/-- Why the host's offer is no command. -/
inductive Reject where
  /-- The word matches no row of R75 (R77). -/
  | reserved
  /-- The word is a command, and a packet operand came with a command that takes none (R70, R76; log entry 3). -/
  | strayOperand
  /-- P or W is longer than `PKT_MAX` (R76). -/
  | operandTooLong
  deriving DecidableEq, Repr

/-- `OP = w[15:12]` (R71). -/
def opField (w : Word) : BitVec 4 := w.extractLsb' 12 4

/-- `RSV = w[11:9]` (R70). -/
def rsvField (w : Word) : BitVec 3 := w.extractLsb' 9 3

/-- `S = w[8]`, 1 = true (R72). -/
def sField (w : Word) : Bool := w.getLsbD 8

/-- `D = w[7:0]` (R73). -/
def dField (w : Word) : Byte := w.extractLsb' 0 8

/-- Which commands a word may select before its operand is seen: the word's half of an instruction.
The packet commands leave their byte sequence open. -/
def decodeWord (w : Word) (operand : List Byte) : Option Instr :=
  if rsvField w ≠ 0 then none
  else
    let s := sField w
    let d := dField w
    let noD := d == 0
    let noS := !s
    match (opField w).toNat with
    | 0x1 => if noD then some (.encInit s) else none
    | 0x2 => if noS then some (.encByte d) else none
    | 0x3 => if noD then some (.encPacket s operand) else none
    | 0x4 => if noS && noD then some .encTransfer else none
    | 0x8 => if noD then some (.decInit s) else none
    | 0x9 => if noS then some (.decByte d) else none
    | 0xA => if noS && noD then some .decTransfer else none
    | 0xB => if noS && noD then some (.decPacket operand) else none
    | 0xC => if noS && noD then some .decGetMalformed else none
    | 0xD => if noS && noD then some .decClearMalformed else none
    | _ => none

/-- The out-of-band operand of a command: P, W, or nothing (R76). -/
def Instr.operand : Instr → List Byte
  | .encPacket _ p => p
  | .decPacket w => w
  | .encInit _ => []
  | .encByte _ => []
  | .encTransfer => []
  | .decInit _ => []
  | .decByte _ => []
  | .decTransfer => []
  | .decGetMalformed => []
  | .decClearMalformed => []

/-- `Decode(w)` of R78, with the operand that came with the word (R76). -/
def decode (w : Word) (operand : List Byte) : Except Reject Instr :=
  match decodeWord w operand with
  | none => .error .reserved
  | some i =>
    if i.operand ≠ operand then .error .strayOperand
    else if i.wellFormed then .ok i
    else .error .operandTooLong

/-- The word with `OP`, `S` and `D` at their places and `RSV = 000` (R70). -/
def assemble (op : BitVec 4) (s : Bool) (d : Byte) : Word :=
  op ++ (0 : BitVec 3) ++ BitVec.ofBool s ++ d

/-- The word of a command, from the patterns of R75. -/
def encodeWord : Instr → Word
  | .encInit s => assemble 0x1 s 0
  | .encByte b => assemble 0x2 false b
  | .encPacket s _ => assemble 0x3 s 0
  | .encTransfer => assemble 0x4 false 0
  | .decInit s => assemble 0x8 s 0
  | .decByte b => assemble 0x9 false b
  | .decTransfer => assemble 0xA false 0
  | .decPacket _ => assemble 0xB false 0
  | .decGetMalformed => assemble 0xC false 0
  | .decClearMalformed => assemble 0xD false 0

/-- What the host puts on the command channel for a command: its word and its out-of-band operand (R81). -/
def encode (i : Instr) : Word × List Byte := (encodeWord i, i.operand)

/-- The low `nbits` bits of `w` as one 16-bit command word, every bit above them 0. -/
def tableWord (nbits w : Nat) : Word := BitVec.ofNat 16 (w % 2 ^ nbits)

/-- The instruction the decoder reads from a row's word, the row's out-of-band operand being the empty sequence. -/
def decodeTableWord (nbits w : Nat) : Option Instr :=
  match decode (tableWord nbits w) [] with
  | .ok i => some i
  | .error _ => none

end Sys2Proof
end

