-- ==== Sys2Proof/Machine/State.lean ====
section
/-! DEFINITION. The state of the block (10_state.md R22 to R29), of what stands behind its four ports
(20_memory.md R40 to R51) and of the host command channel (00_scope.md R13, R14), as plain data, and the state
after power-on reset (70_reset_and_hazards.md R180). -/

namespace Sys2Proof.Machine

/-! ## The two units and the values on their ports -/

/-- The two units of the block (R13, R172). -/
inductive UnitId where
  | encoder
  | decoder
  deriving DecidableEq, Repr

/-- The status of a source read (R41). -/
inductive SrcStatus where
  | more
  | eof
  | error
  deriving DecidableEq, Repr

/-- The status of a sink write (R42). -/
inductive SnkStatus where
  | ok
  | eof
  | error
  deriving DecidableEq, Repr

/-- The answer `(bs, st)` to one `SrcRead` (R41). Nothing bounds `bytes`: a source may break its contract, and the
block checks what it can see (R44, R49). -/
structure SrcAnswer where
  bytes : List Byte
  status : SrcStatus
  deriving DecidableEq, Repr

/-- One `SrcRead` that was answered: the request's `max_len` and the answer (R41, R55). -/
structure SrcXact where
  maxLen : Nat
  answer : SrcAnswer
  deriving DecidableEq, Repr

/-- One `SnkWrite` that was answered: the bytes passed and the answer (R42, R55). -/
structure SnkXact where
  data : List Byte
  status : SnkStatus
  deriving DecidableEq, Repr

/-! ## What stands behind a port -/

/-- The in-memory source adapter: the buffer `B` (its length is `L`) and the cursor `c` (R50). -/
structure MemSource where
  buffer : List Byte
  cursor : Nat
  deriving DecidableEq, Repr

/-- The in-memory sink adapter: the buffer `S` (its length is the capacity `K = SNK_CAP`) and the cursor `c`
(R51). -/
structure MemSink where
  buffer : List Byte
  cursor : Nat
  deriving DecidableEq, Repr

/-- What the host attached behind a source port (R40, R44, R52). -/
inductive Source where
  /-- A device outside the block. `answers` are `ENV`'s draws that are ready, the next one first; with none ready
  a read waits (R41, R43). -/
  | external (answers : List SrcAnswer)
  /-- An in-memory adapter (R50). -/
  | inMemory (m : MemSource)
  deriving DecidableEq, Repr

/-- What the host attached behind a sink port (R40, R44, R52). -/
inductive Sink where
  /-- A device outside the block, with `ENV`'s draws that are ready, the next one first (R42, R43). -/
  | external (answers : List SnkStatus)
  /-- An in-memory adapter (R51). -/
  | inMemory (m : MemSink)
  deriving DecidableEq, Repr

/-! ## Responses -/

/-- `CODE = r[15:8]` of a response word (R79). -/
inductive Code where
  | ok
  | more
  | endOfPacket
  | incompletePacket
  | startByteNotFound
  | ioError
  deriving DecidableEq, Repr

/-- A response: `CODE` and `VALUE = r[7:0]` (R79). -/
structure Response where
  code : Code
  value : Byte
  deriving DecidableEq, Repr

/-- The results of ENC_BYTE, ENC_PACKET and ENC_TRANSFER (R80, C8). -/
inductive EncOutcome where
  | ok
  | ioError
  deriving DecidableEq, Repr

/-- The results of DEC_BYTE (R80). -/
inductive ByteOutcome where
  | more
  | endOfPacket
  | ioError
  deriving DecidableEq, Repr

/-- The results of DEC_TRANSFER and DEC_PACKET (R80, R133). -/
inductive TransferOutcome where
  | endOfPacket
  | incompletePacket
  | startByteNotFound
  | ioError
  deriving DecidableEq, Repr

/-- The results of a decoder command that reads or writes a port, by command family (R79, R80). -/
inductive DecOutcome where
  | byte (r : ByteOutcome)
  | transfer (r : TransferOutcome)
  deriving DecidableEq, Repr

/-! ## Where a busy unit waits

A unit is busy from the acceptance of a command to its `return` (R14), and nothing but a port transaction can make
it wait (R43): a task is the transaction a busy unit waits at, with the command-local state of R29 that says what
follows. -/

/-- What an encoder command does once the bytes in hand are written. -/
inductive EncThen where
  /-- Return OK. -/
  | finish
  /-- ENC_PACKET: go on with `P[index]`, or with the terminating `END` after the last (R104, R29). -/
  | payload (p : List Byte) (index : Nat)
  /-- ENC_TRANSFER: fetch the next payload byte (R105). -/
  | fetch
  deriving DecidableEq, Repr

/-- The transaction a busy encoder waits at. -/
inductive EncTask where
  /-- `SnkWrite(ENC.SNK, [b])`; after it the bytes `out` are still to be written, and then `k` (R101). -/
  | write (b : Byte) (out : List Byte) (k : EncThen)
  /-- `SrcRead(ENC.SRC, 1)` of ENC_TRANSFER's `FetchByte` (R46, R105). -/
  | read
  deriving DecidableEq, Repr

/-- The decode signal (R30, R120). -/
inductive Signal where
  | more
  | endOfPacket
  deriving DecidableEq, Repr

/-- The transaction a busy decoder waits at. -/
inductive DecTask where
  /-- `SrcRead(DEC.SRC, 1)` of the start-byte scan (R129). -/
  | scan
  /-- `SrcRead(DEC.SRC, 1)` of the decode loop; `got` says that this command consumed a wire byte (R29, R132). -/
  | fetch (got : Bool)
  /-- `SnkWrite(DEC.SNK, [x])`, the emit of a decode step that signalled `sig`; `inLoop` tells the decode loop
  (R132) from DEC_BYTE (R131). -/
  | emit (x : Byte) (sig : Signal) (inLoop : Bool)
  deriving DecidableEq, Repr

/-- `DEC.ESC` (R26). -/
inductive EscState where
  | normal
  | escaped
  deriving DecidableEq, Repr

/-! ## The outside world's actions -/

/-- What the host can attach behind a source port: a device, or an in-memory source over a buffer (R50, R52). -/
inductive SrcDevice where
  | external
  | inMemory (buffer : List Byte)
  deriving DecidableEq, Repr

/-- What the host can attach behind a sink port: a device, or an in-memory sink over a buffer (R51, R52). -/
inductive SnkDevice where
  | external
  | inMemory (buffer : List Byte)
  deriving DecidableEq, Repr

/-- One action of the host, of `ENV` or of the platform (R13). -/
inductive Input where
  /-- The host offers a command word with its out-of-band operand (R14, R70, R76). -/
  | command (w : Word) (operand : List Byte)
  /-- `ENV`'s next answer for the unit's source port is ready (R41, R43). -/
  | sourceAnswer (unit : UnitId) (a : SrcAnswer)
  /-- `ENV`'s next answer for the unit's sink port is ready (R42, R43). -/
  | sinkAnswer (unit : UnitId) (st : SnkStatus)
  /-- The host attaches a source behind the unit's source port (R40, R52, R182). -/
  | attachSource (unit : UnitId) (d : SrcDevice)
  /-- The host attaches a sink behind the unit's sink port (R40, R52, R182). -/
  | attachSink (unit : UnitId) (d : SnkDevice)
  /-- Power-on reset (R180). -/
  | powerOn
  deriving DecidableEq, Repr

/-! ## Why a step stops -/

/-- The block has no trap and no fault that stops it: every abnormal condition is a response (R160, R167, R170).
So there is no fault reason, nobody raises one, and that is safe. -/
inductive Fault where
  deriving DecidableEq, Repr

/-- Why the model has no step (R28, R77, R176). -/
inductive Refusal where
  /-- Raised by `exec` for an instruction the model gives no meaning: no arm uses it. Safe. -/
  | notModelled (mnemonic : String)
  /-- Raised by every meaning when its unit is busy: "A model gives such an offer no step" (R176, U1). Safe. -/
  | unitBusy (unit : UnitId)
  /-- Raised by the command channel for a word that matches no row of R75 (R77, U5). Safe. -/
  | reservedWord (w : Word)
  /-- Raised by the command channel when a packet operand comes with a command that takes none (R76; log entry 3).
  Safe. -/
  | strayOperand
  /-- Raised by the command channel when P or W is longer than `PKT_MAX` (R76). Safe. -/
  | operandTooLong
  /-- Raised by the attach inputs on a busy unit: the host must not change what stands behind a running command
  (R192; log entry 6). Safe. -/
  | attachWhileBusy (unit : UnitId)
  /-- Raised by the answer inputs on a port that has an in-memory adapter, which answers every transaction itself
  (R50, R51; log entry 7). Safe. -/
  | adapterAnswersItself (unit : UnitId)
  deriving DecidableEq, Repr

/-! ## The state -/

/-- The encoder unit. -/
@[ext]
structure EncUnit where
  /-- `ENC.USE_START` (R23). -/
  useStart : Bool
  /-- The running command, if any: `ENC.BUSY` (R28) with its command-local state (R29). -/
  task : Option EncTask
  /-- What stands behind `ENC.SRC` (R40). -/
  src : Source
  /-- What stands behind `ENC.SNK` (R40). -/
  snk : Sink
  /-- The answered transactions of `ENC.SRC`, oldest first: the model's own record of what R15 makes observable. -/
  srcLog : List SrcXact
  /-- The answered transactions of `ENC.SNK`, oldest first (R15). -/
  snkLog : List SnkXact
  /-- The responses this unit gave the host, oldest first (R14, R15): the model's own record, no register keeps a
  response (R30). No order holds between the two units' responses (R57), so each unit has its own list. -/
  responses : List Response
  deriving DecidableEq, Repr

/-- The decoder unit. -/
@[ext]
structure DecUnit where
  /-- `DEC.REQ_START` (R24). -/
  reqStart : Bool
  /-- `DEC.PREV` (R25). -/
  prev : Byte
  /-- `DEC.ESC` (R26). -/
  esc : EscState
  /-- `DEC.MALFORMED` (R27). -/
  malformed : Bool
  /-- The running command, if any: `DEC.BUSY` (R28) with its command-local state (R29). -/
  task : Option DecTask
  /-- The in-memory source over W that stands at `DEC.SRC` while DEC_PACKET runs (R29, R62). -/
  packetSrc : Option MemSource
  /-- What the host attached behind `DEC.SRC` (R40). -/
  src : Source
  /-- What stands behind `DEC.SNK` (R40). -/
  snk : Sink
  /-- The answered transactions of `DEC.SRC`, oldest first (R15). -/
  srcLog : List SrcXact
  /-- The answered transactions of `DEC.SNK`, oldest first (R15). -/
  snkLog : List SnkXact
  /-- The responses this unit gave the host, oldest first (R14, R15). -/
  responses : List Response
  deriving DecidableEq, Repr

/-- The whole machine. -/
@[ext]
structure State where
  enc : EncUnit
  dec : DecUnit
  /-- What the outside world does next, the next action first: the model's own field, any list (R13, R44). -/
  inputs : List Input
  deriving DecidableEq, Repr

/-- `ENC.BUSY` (R28). -/
def EncUnit.busy (u : EncUnit) : Bool := u.task.isSome

/-- `DEC.BUSY` (R28). -/
def DecUnit.busy (u : DecUnit) : Bool := u.task.isSome

/-- The condition of a unit (R14, R28). -/
def State.busy (s : State) : UnitId → Bool
  | .encoder => s.enc.busy
  | .decoder => s.dec.busy

/-- The block right after power-on reset: both units idle, every register at its reset value, no transaction made
(R180). What stands behind the ports is the platform's business (R180): devices with no answer ready yet, log
entry 4. -/
def State.reset : State where
  enc :=
    { useStart := false, task := none, src := .external [], snk := .external [], srcLog := [], snkLog := [],
      responses := [] }
  dec :=
    { reqStart := false, prev := 0x00, esc := .normal, malformed := false, task := none, packetSrc := none,
      src := .external [], snk := .external [], srcLog := [], snkLog := [], responses := [] }
  inputs := []

end Sys2Proof.Machine
end

