-- ==== Sys2Proof/Machine/Operands.lean ====
section
/-! DEFINITION. The framing constants (10_state.md R20), the stuffing function (40_encoder.md R100) and the frame of
a payload (30_encoding.md R82). The command's own operands `S`, `D`, `P` and `W` are taken as they stand (R72, R73,
R76): there is no other operand form. -/

namespace Sys2Proof.Machine

/-- `END`, the packet delimiter (R20). -/
def END : Byte := 0xC0

/-- `ESC`, the escape marker (R20). -/
def ESC : Byte := 0xDB

/-- `ESC_END`, the escaped form of `END` (R20). -/
def ESC_END : Byte := 0xDC

/-- `ESC_ESC`, the escaped form of `ESC` (R20). -/
def ESC_ESC : Byte := 0xDD

/-- `STUFF`: the wire bytes that carry one payload byte (R100). -/
def stuff (b : Byte) : List Byte :=
  if b = END then [ESC, ESC_END]
  else if b = ESC then [ESC, ESC_ESC]
  else [b]

/-- The optional leading `END` under the start-byte policy `s` (R82, R104, R105). -/
def leadingEnd (s : Bool) : List Byte := if s then [END] else []

/-- `Frame(P, s)`, the wire bytes of a packet (R82). No command uses it: it is what the encoder's laws speak of. -/
def frame (p : List Byte) (s : Bool) : List Byte := leadingEnd s ++ p.flatMap stuff ++ [END]

end Sys2Proof.Machine
end

