-- ==== Sys2Proof/Machine/Flags.lean ====
section
/-! DEFINITION. The one status flag, `DEC.MALFORMED` (10_state.md R27), and the decoder's other register writes. -/

namespace Sys2Proof.Machine

/-- A write of `ENC.USE_START` (R102). -/
def EncUnit.setUseStart (u : EncUnit) (v : Bool) : EncUnit := { u with useStart := v }

/-- A write of `DEC.REQ_START` (R130). -/
def DecUnit.setReqStart (u : DecUnit) (v : Bool) : DecUnit := { u with reqStart := v }

/-- A write of `DEC.PREV` (R127). -/
def DecUnit.setPrev (u : DecUnit) (b : Byte) : DecUnit := { u with prev := b }

/-- A write of `DEC.ESC` (R26). -/
def DecUnit.setEsc (u : DecUnit) (e : EscState) : DecUnit := { u with esc := e }

/-- A write of `DEC.MALFORMED` (R27): 1 in a malformed step (R126), 0 in DEC_INIT and DEC_CLEAR_MALFORMED. -/
def DecUnit.setMalformed (u : DecUnit) (v : Bool) : DecUnit := { u with malformed := v }

/-- `zext_8(DEC.MALFORMED)` (R135). -/
def DecUnit.malformedValue (u : DecUnit) : Byte := if u.malformed then 1 else 0

/-- The registers of the decoder as its construction leaves them (R130, D14). -/
def DecUnit.construct (u : DecUnit) (s : Bool) : DecUnit :=
  (((u.setReqStart s).setPrev 0x00).setEsc .normal).setMalformed false

/-- The byte after an `ESC`: the data byte it stands for, and whether the sequence was malformed (R124 to R126). -/
def unescape (b : Byte) : Byte × Bool :=
  if b = ESC_END then (END, false)
  else if b = ESC_ESC then (ESC, false)
  else (b, true)

/-- `DecodeStep(b)` (R120 to R127): the registers after it, the data byte to emit, and the signal. -/
def decodeStep (u : DecUnit) (b : Byte) : DecUnit × Option Byte × Signal :=
  let u := u.setPrev b
  match u.esc with
  | .normal =>
    if b = END then (u, none, .endOfPacket)
    else if b = ESC then (u.setEsc .escaped, none, .more)
    else (u, some b, .more)
  | .escaped =>
    let u := u.setEsc .normal
    match unescape b with
    | (x, true) => (u.setMalformed true, some x, .more)
    | (x, false) => (u, some x, .more)

end Sys2Proof.Machine
end

