-- ==== Sys2Proof/Machine/Ops.lean ====
section
/-! DEFINITION. The port primitives (00_scope.md R9), the in-memory adapters (20_memory.md R50, R51), the block's
one-byte port wrappers (R45 to R49), responses (30_encoding.md R79), and the end of a command, which takes the place
of exception entry: the block has no trap (60_exceptions.md R167, R170), and a command that meets an error returns a
response and leaves the unit idle. -/

namespace Sys2Proof.Machine

/-! ## The adapters' buffers -/

/-- `MemRead(addr, n)` (R9). -/
def memRead (buffer : List Byte) (addr n : Nat) : List Byte := (buffer.drop addr).take n

/-- `MemWrite(addr, n, v)` with `n = v.length` (R9). It is used only where the bytes fit (R51). -/
def memWrite (buffer : List Byte) (addr : Nat) (v : List Byte) : List Byte :=
  buffer.take addr ++ v ++ buffer.drop (addr + v.length)

/-- `MemSrcRead(n)` (R50). The test is `L ≤ c`: `c` never passes `L`. -/
def MemSource.read (m : MemSource) (n : Nat) : SrcAnswer × MemSource :=
  if m.buffer.length ≤ m.cursor then (⟨[], .eof⟩, m)
  else
    let k := min n (m.buffer.length - m.cursor)
    (⟨memRead m.buffer m.cursor k, .more⟩, { m with cursor := m.cursor + k })

/-- `MemSnkWrite(bs)` (R51). -/
def MemSink.write (m : MemSink) (bs : List Byte) : SnkStatus × MemSink :=
  if m.buffer.length < m.cursor + bs.length then (.eof, m)
  else (.ok, { buffer := memWrite m.buffer m.cursor bs, cursor := m.cursor + bs.length })

/-- `S[0..c)`: what the host reads of an in-memory sink after a command (R51). -/
def MemSink.contents (m : MemSink) : List Byte := memRead m.buffer 0 m.cursor

/-! ## The ports -/

/-- `SrcRead(p, n)` (R41): the answer and the port after it, or `none` while the transaction is unanswered (R43). -/
def Source.read (p : Source) (n : Nat) : Option (SrcAnswer × Source) :=
  match p with
  | .external [] => none
  | .external (a :: rest) => some (a, .external rest)
  | .inMemory m => some ((m.read n).1, .inMemory (m.read n).2)

/-- `SnkWrite(p, bs)` (R42): the status and the port after it, or `none` while the transaction is unanswered (R43). -/
def Sink.write (p : Sink) (bs : List Byte) : Option (SnkStatus × Sink) :=
  match p with
  | .external [] => none
  | .external (st :: rest) => some (st, .external rest)
  | .inMemory m => some ((m.write bs).1, .inMemory (m.write bs).2)

/-- `ENV` makes its next answer ready: only a device takes one, an adapter answers by itself (R50). -/
def Source.give (p : Source) (a : SrcAnswer) : Option Source :=
  match p with
  | .external as => some (.external (as ++ [a]))
  | .inMemory _ => none

/-- `ENV` makes its next answer ready: only a device takes one, an adapter answers by itself (R51). -/
def Sink.give (p : Sink) (st : SnkStatus) : Option Sink :=
  match p with
  | .external sts => some (.external (sts ++ [st]))
  | .inMemory _ => none

/-- What the host attaches: a device with no answer ready, or a buffer with its cursor at 0 (R50). -/
def SrcDevice.attach : SrcDevice → Source
  | .external => .external []
  | .inMemory buffer => .inMemory ⟨buffer, 0⟩

/-- What the host attaches: a device with no answer ready, or a buffer with its cursor at 0 (R51). -/
def SnkDevice.attach : SnkDevice → Sink
  | .external => .external []
  | .inMemory buffer => .inMemory ⟨buffer, 0⟩

/-- How many more reads a source can answer with a byte or with `([], More)`. -/
def MemSource.supply (m : MemSource) : Nat := m.buffer.length - m.cursor

/-- How many more reads a source can answer before it waits or reports its end. -/
def Source.supply : Source → Nat
  | .external as => as.length
  | .inMemory m => m.supply

/-! ## The wrappers -/

/-- What `FetchByte` makes of one answer: a byte, the end of the stream, a failure, or another read (R46). -/
inductive Fetch where
  | byte (b : Byte)
  | eos
  | ioFail
  | again
  deriving DecidableEq, Repr

/-- The body of `FetchByte`'s loop: one answer to a request of one byte, the checks in their order (R46, R49, R166). -/
def fetchByte (a : SrcAnswer) : Fetch :=
  match a.status, a.bytes with
  | .error, _ => .ioFail
  | .more, [] => .again
  | .more, [b] => .byte b
  | .more, _ :: _ :: _ => .ioFail
  | .eof, [] => .eos
  | .eof, _ :: _ => .ioFail

/-- The result of `PutByte` (R47). -/
inductive Put where
  | done
  | ioFail
  deriving DecidableEq, Repr

/-- `PutByte`'s reading of a write's status (R47). -/
def putByte : SnkStatus → Put
  | .ok => .done
  | .eof => .ioFail
  | .error => .ioFail

/-- The encoder's source after an answered read, and the record of it. -/
def EncUnit.afterRead (u : EncUnit) (src : Source) (a : SrcAnswer) : EncUnit :=
  { u with src := src, srcLog := u.srcLog ++ [⟨Config.readChunk, a⟩] }

/-- The encoder's sink after an answered write, and the record of it. -/
def EncUnit.afterWrite (u : EncUnit) (snk : Sink) (b : Byte) (st : SnkStatus) : EncUnit :=
  { u with snk := snk, snkLog := u.snkLog ++ [⟨[b], st⟩] }

/-- `SrcRead(ENC.SRC, READ_CHUNK)` (R45). -/
def EncUnit.read (u : EncUnit) : Option (SrcAnswer × EncUnit) :=
  match u.src.read Config.readChunk with
  | none => none
  | some (a, src) => some (a, u.afterRead src a)

/-- `SnkWrite(ENC.SNK, [b])` (R45). -/
def EncUnit.write (u : EncUnit) (b : Byte) : Option (SnkStatus × EncUnit) :=
  match u.snk.write [b] with
  | none => none
  | some (st, snk) => some (st, u.afterWrite snk b st)

/-- What stands at `DEC.SRC`: the operand W while DEC_PACKET runs, the host's attachment otherwise (R62). -/
def DecUnit.activeSrc (u : DecUnit) : Source :=
  match u.packetSrc with
  | some m => .inMemory m
  | none => u.src

/-- Put back what stands at `DEC.SRC` after a transaction: the attachment itself is untouched while DEC_PACKET's
own source stands in its place (R62). -/
def DecUnit.setActiveSrc (u : DecUnit) (p : Source) : DecUnit :=
  match u.packetSrc, p with
  | some _, .inMemory m => { u with packetSrc := some m }
  | some _, .external _ => u
  | none, p => { u with src := p }

/-- The record of an answered read at `DEC.SRC`. -/
def DecUnit.logRead (u : DecUnit) (a : SrcAnswer) : DecUnit :=
  { u with srcLog := u.srcLog ++ [⟨Config.readChunk, a⟩] }

/-- The decoder's sink after an answered write, and the record of it. -/
def DecUnit.afterWrite (u : DecUnit) (snk : Sink) (b : Byte) (st : SnkStatus) : DecUnit :=
  { u with snk := snk, snkLog := u.snkLog ++ [⟨[b], st⟩] }

/-- `SrcRead(DEC.SRC, READ_CHUNK)` (R45, R62). -/
def DecUnit.read (u : DecUnit) : Option (SrcAnswer × DecUnit) :=
  match u.activeSrc.read Config.readChunk with
  | none => none
  | some (a, p) => some (a, (u.setActiveSrc p).logRead a)

/-- `SnkWrite(DEC.SNK, [b])` (R45). -/
def DecUnit.write (u : DecUnit) (b : Byte) : Option (SnkStatus × DecUnit) :=
  match u.snk.write [b] with
  | none => none
  | some (st, snk) => some (st, u.afterWrite snk b st)

/-! ## Responses and the end of a command -/

/-- The numbers of R79. -/
def Code.toByte : Code → Byte
  | .ok => 0x00
  | .more => 0x01
  | .endOfPacket => 0x02
  | .incompletePacket => 0x03
  | .startByteNotFound => 0x04
  | .ioError => 0x05

/-- The response word, `r[15:8] = CODE` and `r[7:0] = VALUE` (R79). -/
def Response.word (r : Response) : Word := r.code.toByte ++ r.value

/-- A response whose `VALUE` is 0x00 (R79). -/
def Response.plain (c : Code) : Response := ⟨c, 0x00⟩

/-- The response of an encoder command (R79, R80). -/
def EncOutcome.response : EncOutcome → Response
  | .ok => .plain .ok
  | .ioError => .plain .ioError

/-- The response of a decoder command (R79, R80). -/
def DecOutcome.response : DecOutcome → Response
  | .byte .more => .plain .more
  | .byte .endOfPacket => .plain .endOfPacket
  | .byte .ioError => .plain .ioError
  | .transfer .endOfPacket => .plain .endOfPacket
  | .transfer .incompletePacket => .plain .incompletePacket
  | .transfer .startByteNotFound => .plain .startByteNotFound
  | .transfer .ioError => .plain .ioError

/-- The encoder unit replaced. -/
def State.setEnc (s : State) (u : EncUnit) : State := { s with enc := u }

/-- The decoder unit replaced. -/
def State.setDec (s : State) (u : DecUnit) : State := { s with dec := u }

/-- The encoder idle, its command-local state gone (R29). -/
def EncUnit.idle (u : EncUnit) : EncUnit := { u with task := none }

/-- The encoder waiting at a transaction (R43). -/
def EncUnit.waitAt (u : EncUnit) (t : EncTask) : EncUnit := { u with task := some t }

/-- One response to the host (R14, R79). -/
def EncUnit.respond (u : EncUnit) (r : Response) : EncUnit := { u with responses := u.responses ++ [r] }

/-- The decoder idle, its command-local state gone and the host's `DEC.SRC` back in place (R29, R62). -/
def DecUnit.idle (u : DecUnit) : DecUnit := { u with task := none, packetSrc := none }

/-- The decoder waiting at a transaction (R43). -/
def DecUnit.waitAt (u : DecUnit) (t : DecTask) : DecUnit := { u with task := some t }

/-- One response to the host (R14, R79). -/
def DecUnit.respond (u : DecUnit) (r : Response) : DecUnit := { u with responses := u.responses ++ [r] }

/-- An in-memory source over W, its cursor at 0, in the place of `DEC.SRC` (R62, R134). -/
def DecUnit.attachPacket (u : DecUnit) (w : List Byte) : DecUnit := { u with packetSrc := some ⟨w, 0⟩ }

/-- `return r` of an encoder command (R10, R167): the response is given, the unit is idle, every register write made
before stays, and nothing else happens. -/
def EncUnit.endCommand (u : EncUnit) (r : Response) : EncUnit := u.idle.respond r

/-- `return r` of a decoder command (R10, R167). -/
def DecUnit.endCommand (u : DecUnit) (r : Response) : DecUnit := u.idle.respond r

/-- A command of the encoder: an idle unit takes it and is `u` after it, a busy unit has no step for it (R14, R28,
R176). -/
def onEnc (s : State) (u : EncUnit) : Host.Outcome State Fault Refusal :=
  if s.enc.busy then .refused (.unitBusy .encoder) else .next (s.setEnc u)

/-- A command of the decoder: an idle unit takes it and is `u` after it, a busy unit has no step for it (R14, R28,
R176). -/
def onDec (s : State) (u : DecUnit) : Host.Outcome State Fault Refusal :=
  if s.dec.busy then .refused (.unitBusy .decoder) else .next (s.setDec u)

/-- How a command stands after some of its work: it waits at a transaction, or it returns. -/
inductive Progress (τ ρ : Type) where
  | wait (t : τ)
  | done (r : ρ)
  deriving DecidableEq, Repr

end Sys2Proof.Machine
end

