-- ==== Sys2Proof/Machine/Decoder.lean ====
section
/-! DEFINITION. The decoder unit: how its commands go from one port transaction to the next (41_decoder.md R120 to
R134), and the meanings of DEC_INIT, DEC_BYTE, DEC_TRANSFER, DEC_PACKET, DEC_GET_MALFORMED and
DEC_CLEAR_MALFORMED. -/

namespace Sys2Proof.Machine

abbrev DecProgress := Progress DecTask DecOutcome

/-- After a decode step whose emit, if any, is done: the decode loop goes on with `got = 1` or returns (R132), and
DEC_BYTE returns (R131). -/
def decGoOn (sig : Signal) (inLoop : Bool) : DecProgress :=
  match inLoop, sig with
  | true, .endOfPacket => .done (.transfer .endOfPacket)
  | true, .more => .wait (.fetch true)
  | false, .endOfPacket => .done (.byte .endOfPacket)
  | false, .more => .done (.byte .more)

/-- Consume one wire byte: the decode step's register writes, and then its emit (R120, R128). -/
def decConsume (u : DecUnit) (b : Byte) (inLoop : Bool) : DecUnit × DecProgress :=
  match decodeStep u b with
  | (u, some x, sig) => (u, .wait (.emit x sig inLoop))
  | (u, none, sig) => (u, decGoOn sig inLoop)

/-- What the start-byte scan does with the result of a fetch (R129), and DEC_TRANSFER with the scan's (R132). -/
def decScanned (u : DecUnit) : Fetch → DecUnit × DecProgress
  | .ioFail => (u, .done (.transfer .ioError))
  | .eos => (u, .done (.transfer .startByteNotFound))
  | .again => (u, .wait .scan)
  | .byte b =>
    if b = END then ((u.setPrev b).setEsc .normal, .wait (.fetch true))
    else (u.setPrev b, .wait .scan)

/-- What the decode loop does with the result of a fetch (R132). -/
def decFetched (u : DecUnit) (got : Bool) : Fetch → DecUnit × DecProgress
  | .ioFail => (u, .done (.transfer .ioError))
  | .eos => (u, .done (.transfer (if got then .incompletePacket else .startByteNotFound)))
  | .again => (u, .wait (.fetch got))
  | .byte b => decConsume u b true

/-- What a decoder command does after its emit: a failed one ends it with IO_ERROR whatever the signal (R128,
R166). -/
def decEmitted (sig : Signal) (inLoop : Bool) : Put → DecProgress
  | .done => decGoOn sig inLoop
  | .ioFail => .done (if inLoop then .transfer .ioError else .byte .ioError)

/-- The transaction the decoder waits at, made if it is answered, and how the command goes on. -/
def decTransact (u : DecUnit) : DecTask → Option (DecUnit × DecProgress)
  | .scan =>
    match u.read with
    | none => none
    | some (a, u) => some (decScanned u (fetchByte a))
  | .fetch got =>
    match u.read with
    | none => none
    | some (a, u) => some (decFetched u got (fetchByte a))
  | .emit x sig inLoop =>
    match u.write x with
    | none => none
    | some (st, u) => some (u, decEmitted sig inLoop (putByte st))

/-- At most how many answered transactions can follow from here: the fuel of `decRun`, which is never used up
(Laws/Decoder.lean, `decRun_settles`). -/
def decWork (u : DecUnit) : DecProgress → Nat
  | .done _ => 0
  | .wait .scan => 2 * u.activeSrc.supply + 1
  | .wait (.fetch _) => 2 * u.activeSrc.supply + 1
  | .wait (.emit _ _ true) => 2 * u.activeSrc.supply + 2
  | .wait (.emit _ _ false) => 1

/-- Run a command over its transactions, in order, until it returns or waits at one that is unanswered (R43, R56). -/
def decRun : Nat → DecUnit → DecProgress → DecUnit × DecProgress
  | 0, u, p => (u, p)
  | _ + 1, u, .done r => (u, .done r)
  | n + 1, u, .wait t =>
    match decTransact u t with
    | none => (u, .wait t)
    | some (u', p) => decRun n u' p

/-- The decoder as a run leaves it: idle with the response given, or waiting (R14, R43). -/
def DecUnit.put (u : DecUnit) : DecProgress → DecUnit
  | .done r => u.endCommand r.response
  | .wait t => u.waitAt t

/-- The decoder going on with a command, up to its return or the next unanswered transaction. -/
def decContinue (u : DecUnit) (p : DecProgress) : DecUnit :=
  (decRun (decWork u p) u p).1.put (decRun (decWork u p) u p).2

/-- Where DEC_TRANSFER's body begins: with the scan under `REQ_START = 1`, every time (R132, D11). -/
def decTransferStart (u : DecUnit) : DecProgress :=
  if u.reqStart then .wait .scan else .wait (.fetch false)

/-- DEC_INIT (R130). -/
def execDecInit (v : Bool) (s : State) : Host.Outcome State Fault Refusal :=
  onDec s ((s.dec.construct v).endCommand (.plain .ok))

/-- DEC_BYTE (R131). -/
def execDecByte (b : Byte) (s : State) : Host.Outcome State Fault Refusal :=
  onDec s (decContinue (decConsume s.dec b false).1 (decConsume s.dec b false).2)

/-- DEC_TRANSFER (R132). -/
def execDecTransfer (s : State) : Host.Outcome State Fault Refusal :=
  onDec s (decContinue s.dec (decTransferStart s.dec))

/-- DEC_PACKET (R134): DEC_TRANSFER's body over an in-memory source on W. -/
def execDecPacket (w : List Byte) (s : State) : Host.Outcome State Fault Refusal :=
  onDec s (decContinue (s.dec.attachPacket w) (decTransferStart s.dec))

/-- DEC_GET_MALFORMED (R135): reading does not clear the flag. -/
def execDecGetMalformed (s : State) : Host.Outcome State Fault Refusal :=
  onDec s (s.dec.endCommand ⟨.ok, s.dec.malformedValue⟩)

/-- DEC_CLEAR_MALFORMED (R136). -/
def execDecClearMalformed (s : State) : Host.Outcome State Fault Refusal :=
  onDec s ((s.dec.setMalformed false).endCommand (.plain .ok))

end Sys2Proof.Machine
end

