-- ==== Sys2Proof/Machine/Encoder.lean ====
section
/-! DEFINITION. The encoder unit: how its commands go from one port transaction to the next (40_encoder.md R101 to
R105), and the meanings of ENC_INIT, ENC_BYTE, ENC_PACKET and ENC_TRANSFER. -/

namespace Sys2Proof.Machine

abbrev EncProgress := Progress EncTask EncOutcome

/-- Write the bytes `out`, one `PutByte` each and the first first (R101), and then do `k`: the next transaction of
the command, or its return. This is the pure work between two suspension points (R43). -/
def encGoOn (out : List Byte) (k : EncThen) : EncProgress :=
  match out with
  | b :: out => .wait (.write b out k)
  | [] =>
    match k with
    | .finish => .done .ok
    | .fetch => .wait .read
    | .payload p index =>
      match p[index]? with
      | none => .wait (.write END [] .finish)
      | some b =>
        match stuff b with
        | x :: out => .wait (.write x out (.payload p (index + 1)))
        | [] => .wait (.write END [] .finish)

/-- What ENC_TRANSFER does with the result of a fetch (R105). -/
def encFetched : Fetch → EncProgress
  | .ioFail => .done .ioError
  | .eos => encGoOn [END] .finish
  | .byte b => encGoOn (stuff b) .fetch
  | .again => .wait .read

/-- What an encoder command does after a write (R47, R48, R101). -/
def encWritten (out : List Byte) (k : EncThen) : Put → EncProgress
  | .ioFail => .done .ioError
  | .done => encGoOn out k

/-- The transaction the encoder waits at, made if it is answered, and how the command goes on. -/
def encTransact (u : EncUnit) : EncTask → Option (EncUnit × EncProgress)
  | .write b out k =>
    match u.write b with
    | none => none
    | some (st, u) => some (u, encWritten out k (putByte st))
  | .read =>
    match u.read with
    | none => none
    | some (a, u) => some (u, encFetched (fetchByte a))

/-- At most how many transactions can follow the bytes in hand, of a source that can still answer `n` reads. -/
def encThenWork (n : Nat) : EncThen → Nat
  | .finish => 0
  | .payload p index => 2 * (p.length - index) + 1
  | .fetch => 3 * n + 2

/-- At most how many answered transactions can follow from here: the fuel of `encRun`, which is never used up
(Laws/Encoder.lean, `encRun_settles`). -/
def encWork (u : EncUnit) : EncProgress → Nat
  | .done _ => 0
  | .wait .read => 3 * u.src.supply + 2
  | .wait (.write _ out k) => 1 + out.length + encThenWork u.src.supply k

/-- Run a command over its transactions, in order, until it returns or waits at one that is unanswered (R43, R56). -/
def encRun : Nat → EncUnit → EncProgress → EncUnit × EncProgress
  | 0, u, p => (u, p)
  | _ + 1, u, .done r => (u, .done r)
  | n + 1, u, .wait t =>
    match encTransact u t with
    | none => (u, .wait t)
    | some (u', p) => encRun n u' p

/-- The encoder as a run leaves it: idle with the response given, or waiting (R14, R43). -/
def EncUnit.put (u : EncUnit) : EncProgress → EncUnit
  | .done r => u.endCommand r.response
  | .wait t => u.waitAt t

/-- The encoder going on with a command, up to its return or the next unanswered transaction. -/
def encContinue (u : EncUnit) (p : EncProgress) : EncUnit :=
  (encRun (encWork u p) u p).1.put (encRun (encWork u p) u p).2

/-- ENC_INIT (R102). -/
def execEncInit (v : Bool) (s : State) : Host.Outcome State Fault Refusal :=
  onEnc s ((s.enc.setUseStart v).endCommand (.plain .ok))

/-- ENC_BYTE (R103). -/
def execEncByte (b : Byte) (s : State) : Host.Outcome State Fault Refusal :=
  onEnc s (encContinue s.enc (encGoOn (stuff b) .finish))

/-- ENC_PACKET (R104): its start-byte policy is its operand, not `ENC.USE_START`. -/
def execEncPacket (v : Bool) (p : List Byte) (s : State) : Host.Outcome State Fault Refusal :=
  onEnc s (encContinue s.enc (encGoOn (leadingEnd v) (.payload p 0)))

/-- ENC_TRANSFER (R105). -/
def execEncTransfer (s : State) : Host.Outcome State Fault Refusal :=
  onEnc s (encContinue s.enc (encGoOn (leadingEnd s.enc.useStart) .fetch))

end Sys2Proof.Machine
end

