-- ==== Sys2Proof/Machine/Dispatch.lean ====
section
/-! DEFINITION. One arm per command: the meaning of each row of spec/opcode_table.json. -/

namespace Sys2Proof.Machine

def exec (i : Instr) (s : State) : Host.Outcome State Fault Refusal :=
  match i with
  | .encInit v => Sys2Proof.Machine.execEncInit v s
  | .encByte b => Sys2Proof.Machine.execEncByte b s
  | .encPacket v p => Sys2Proof.Machine.execEncPacket v p s
  | .encTransfer => Sys2Proof.Machine.execEncTransfer s
  | .decInit v => Sys2Proof.Machine.execDecInit v s
  | .decByte b => Sys2Proof.Machine.execDecByte b s
  | .decTransfer => Sys2Proof.Machine.execDecTransfer s
  | .decPacket w => Sys2Proof.Machine.execDecPacket w s
  | .decGetMalformed => Sys2Proof.Machine.execDecGetMalformed s
  | .decClearMalformed => Sys2Proof.Machine.execDecClearMalformed s

end Sys2Proof.Machine
end

