-- ==== Sys2Proof/Machine/Channel.lean ====
section
/-! DEFINITION. What the block does with each action of the outside world (00_scope.md R13): a command offered on
the host channel (R14, R70), an answer of `ENV` at a suspension point (20_memory.md R43), an attachment behind a port
(R40, R182) and power-on reset (70_reset_and_hazards.md R180). -/

namespace Sys2Proof.Machine

/-- The outside world's next action taken from the front of what is to come. -/
def State.takeInput (s : State) (rest : List Input) : State := { s with inputs := rest }

/-- Why an offer is no command, as the machine's refusal (R77, R76). -/
def refusalOf (w : Word) : Reject → Refusal
  | .reserved => .reservedWord w
  | .strayOperand => .strayOperand
  | .operandTooLong => .operandTooLong

/-- The host offers a command: the decoded command runs, and a word that is none has no step (R14, R77, R78). -/
def offer (w : Word) (operand : List Byte) (s : State) : Host.Outcome State Fault Refusal :=
  match decode w operand with
  | .ok i => exec i s
  | .error e => .refused (refusalOf w e)

/-- The encoder after its ports changed: a waiting command goes on if its transaction is now answered (R14). -/
def wakeEnc (u : EncUnit) : EncUnit :=
  match u.task with
  | none => u
  | some t => encContinue u (.wait t)

/-- The decoder after its ports changed (R14). -/
def wakeDec (u : DecUnit) : DecUnit :=
  match u.task with
  | none => u
  | some t => decContinue u (.wait t)

/-- A source behind `ENC.SRC`. -/
def EncUnit.setSrc (u : EncUnit) (p : Source) : EncUnit := { u with src := p }

/-- A sink behind `ENC.SNK`. -/
def EncUnit.setSnk (u : EncUnit) (p : Sink) : EncUnit := { u with snk := p }

/-- A source behind `DEC.SRC`. -/
def DecUnit.setSrc (u : DecUnit) (p : Source) : DecUnit := { u with src := p }

/-- A sink behind `DEC.SNK`. -/
def DecUnit.setSnk (u : DecUnit) (p : Sink) : DecUnit := { u with snk := p }

/-- `ENV` answers the unit's source port (R41, R43). -/
def answerSource (unit : UnitId) (a : SrcAnswer) (s : State) : Host.Outcome State Fault Refusal :=
  match unit with
  | .encoder =>
    match s.enc.src.give a with
    | none => .refused (.adapterAnswersItself .encoder)
    | some p => .next (s.setEnc (wakeEnc (s.enc.setSrc p)))
  | .decoder =>
    match s.dec.src.give a with
    | none => .refused (.adapterAnswersItself .decoder)
    | some p => .next (s.setDec (wakeDec (s.dec.setSrc p)))

/-- `ENV` answers the unit's sink port (R42, R43). -/
def answerSink (unit : UnitId) (st : SnkStatus) (s : State) : Host.Outcome State Fault Refusal :=
  match unit with
  | .encoder =>
    match s.enc.snk.give st with
    | none => .refused (.adapterAnswersItself .encoder)
    | some p => .next (s.setEnc (wakeEnc (s.enc.setSnk p)))
  | .decoder =>
    match s.dec.snk.give st with
    | none => .refused (.adapterAnswersItself .decoder)
    | some p => .next (s.setDec (wakeDec (s.dec.setSnk p)))

/-- The host attaches a source behind an idle unit's source port (R40, R182). -/
def attachSource (unit : UnitId) (d : SrcDevice) (s : State) : Host.Outcome State Fault Refusal :=
  if s.busy unit then .refused (.attachWhileBusy unit)
  else
    match unit with
    | .encoder => .next (s.setEnc (s.enc.setSrc d.attach))
    | .decoder => .next (s.setDec (s.dec.setSrc d.attach))

/-- The host attaches a sink behind an idle unit's sink port (R40, R182). -/
def attachSink (unit : UnitId) (d : SnkDevice) (s : State) : Host.Outcome State Fault Refusal :=
  if s.busy unit then .refused (.attachWhileBusy unit)
  else
    match unit with
    | .encoder => .next (s.setEnc (s.enc.setSnk d.attach))
    | .decoder => .next (s.setDec (s.dec.setSnk d.attach))

/-- Power-on reset (R180): both units idle, every register at its reset value, no port transaction. What stands
behind the ports stays as it is (log entry 5). -/
def powerOn (s : State) : State :=
  (s.setEnc (s.enc.setUseStart false).idle).setDec (s.dec.construct false).idle

/-- One action of the outside world. -/
def deliver (i : Input) (s : State) : Host.Outcome State Fault Refusal :=
  match i with
  | .command w operand => offer w operand s
  | .sourceAnswer unit a => answerSource unit a s
  | .sinkAnswer unit st => answerSink unit st s
  | .attachSource unit d => attachSource unit d s
  | .attachSink unit d => attachSink unit d s
  | .powerOn => .next (powerOn s)

/-- The next action of the outside world, or none: then the block waits and nothing changes (R180, R175; log
entry 8). -/
def takeNext (s : State) : Host.Outcome State Fault Refusal :=
  match s.inputs with
  | [] => .next s
  | i :: rest => deliver i (s.takeInput rest)

/-- The command word `w`, with an empty out-of-band operand, offered next. -/
def State.offerNext (s : State) (w : Word) : State := { s with inputs := .command w [] :: s.inputs }

end Sys2Proof.Machine
end

