-- ==== Sys2Proof/Machine/Step.lean ====
section
/-! DEFINITION. One step of the machine: the outside world's next action, and everything the block does with it up
to the next transaction that is unanswered (00_scope.md R14, 20_memory.md R43). The block fetches nothing (R59):
a command comes on the host channel. -/

namespace Sys2Proof.Machine

/-- One step. -/
def step (s : State) : Host.Outcome State Fault Refusal := takeNext s

/-- `s` with the command whose word is the low `nbits` bits of `w` offered next on the host channel (log entry 9). -/
def State.withFetchWord (s : State) (nbits w : Nat) : State := s.offerNext (tableWord nbits w)

end Sys2Proof.Machine
end

