-- ==== Sys2Proof/Safety.lean ====
section
/-! DEFINITION. The terms that statements about the block use: when a run is over (00_scope.md R15), the premises on
`ENV` that a statement about a response must name (70_reset_and_hazards.md R188), what a wire byte sequence means
(41_decoder.md R121 to R129), and the invariants of the machine. -/

namespace Sys2Proof.Machine

/-! ## Runs -/

/-- A run with a unit still busy is not over (R15). -/
def State.over (s : State) : Bool := !s.enc.busy && !s.dec.busy

/-- Commands run one after the other. -/
def execAll : List Instr → State → Host.Outcome State Fault Refusal
  | [], s => .next s
  | i :: is, s =>
    match exec i s with
    | .next t => execAll is t
    | .fault r => .fault r
    | .refused r => .refused r

/-- Both units idle and every register at its reset value (R180). -/
structure State.AtReset (s : State) : Prop where
  encIdle : s.enc.task = none
  decIdle : s.dec.task = none
  packet : s.dec.packetSrc = none
  useStart : s.enc.useStart = false
  reqStart : s.dec.reqStart = false
  prev : s.dec.prev = 0x00
  esc : s.dec.esc = .normal
  malformed : s.dec.malformed = false

/-! ## Premises on the ports -/

/-- The sink port accepts the bytes one write each, every write answered `Ok`; the port after them (R107, R188). -/
def Sink.accepts : Sink → List Byte → Option Sink
  | p, [] => some p
  | p, b :: bs =>
    match p.write [b] with
    | some (.ok, p') => p'.accepts bs
    | _ => none

/-- The record of accepted one-byte writes. -/
def wrote (bs : List Byte) : List SnkXact := bs.map fun b => ⟨[b], .ok⟩

/-- `Reads p bs log p'`: the next reads of one byte on `p` yield the bytes `bs` in order, with any number of
`([], More)` answers among them, and leave `p'`; `log` is the record of these reads (R46, R107, R188). -/
inductive Reads : Source → List Byte → List SrcXact → Source → Prop where
  | nil (p : Source) : Reads p [] [] p
  | again {p p' p'' : Source} {bs : List Byte} {log : List SrcXact} {a : SrcAnswer}
      (h : p.read Config.readChunk = some (a, p')) (hf : fetchByte a = .again) (rest : Reads p' bs log p'') :
      Reads p bs (⟨Config.readChunk, a⟩ :: log) p''
  | byte {p p' p'' : Source} {b : Byte} {bs : List Byte} {log : List SrcXact} {a : SrcAnswer}
      (h : p.read Config.readChunk = some (a, p')) (hf : fetchByte a = .byte b) (rest : Reads p' bs log p'') :
      Reads p (b :: bs) (⟨Config.readChunk, a⟩ :: log) p''

/-- The answer `([], Eof)`: the end of the stream (R41, R46). -/
def eofAnswer : SrcAnswer := ⟨[], .eof⟩

/-- The record of one-byte reads that yield the bytes `bs` without a short read, as an in-memory source does (R50). -/
def readEach (bs : List Byte) : List SrcXact := bs.map fun b => ⟨Config.readChunk, ⟨[b], .more⟩⟩

/-- The record of a read that found the end of the stream. -/
def readEof : List SrcXact := [⟨Config.readChunk, eofAnswer⟩]

/-! ## What a wire byte sequence means -/

/-- What the decode loop makes of a wire byte sequence: the data bytes emitted, `DEC.ESC` after it, whether a step of
R126 was made, the wire bytes consumed, and whether an `END` ended the packet (R121). -/
structure Decoded where
  data : List Byte
  esc : EscState
  malformed : Bool
  consumed : List Byte
  ended : Bool
  deriving DecidableEq, Repr

/-- The decoding of a wire byte sequence from an escape state, by the transition table (R121 to R126): it stops
after the first `END` in NORMAL, or at the end of the bytes. -/
def decodeWire : EscState → List Byte → Decoded
  | e, [] => ⟨[], e, false, [], false⟩
  | .normal, b :: bs =>
    if b = END then ⟨[], .normal, false, [b], true⟩
    else if b = ESC then
      let d := decodeWire .escaped bs
      { d with consumed := b :: d.consumed }
    else
      let d := decodeWire .normal bs
      { d with data := b :: d.data, consumed := b :: d.consumed }
  | .escaped, b :: bs =>
    let d := decodeWire .normal bs
    if b = ESC_END then { d with data := END :: d.data, consumed := b :: d.consumed }
    else if b = ESC_ESC then { d with data := ESC :: d.data, consumed := b :: d.consumed }
    else { d with data := b :: d.data, malformed := true, consumed := b :: d.consumed }

/-- `DEC.PREV` after the wire bytes `bs` are consumed (R127). -/
def prevAfter (prev : Byte) (bs : List Byte) : Byte := bs.getLastD prev

/-- The start-byte scan over a wire byte sequence: the bytes through the first `END`, and the rest (R129). -/
def scanWire : List Byte → Option (List Byte × List Byte)
  | [] => none
  | b :: bs =>
    if b = END then some ([b], bs)
    else
      match scanWire bs with
      | none => none
      | some (pre, rest) => some (b :: pre, rest)

/-- What DEC_TRANSFER's body makes of a wire byte sequence under the policy `req` from the escape state `e`: the scan,
then the decode loop (R129, R132). -/
def transferWire (req : Bool) (e : EscState) (w : List Byte) : Decoded :=
  if req then
    match scanWire w with
    | none => ⟨[], e, false, w, false⟩
    | some (pre, rest) =>
      let d := decodeWire .normal rest
      { d with consumed := pre ++ d.consumed }
  else decodeWire e w

/-- The response of DEC_TRANSFER's body when the source yields exactly `w` and then its end (R133). -/
def transferCode (req : Bool) (e : EscState) (w : List Byte) : Code :=
  if (transferWire req e w).ended then .endOfPacket
  else if w = [] then .startByteNotFound
  else if req && (scanWire w).isNone then .startByteNotFound
  else .incompletePacket

/-- The decoder's registers after it consumed wire bytes that mean `d` (R127, R27). -/
def DecUnit.decoded (u : DecUnit) (d : Decoded) : DecUnit :=
  { u with prev := prevAfter u.prev d.consumed, esc := d.esc, malformed := u.malformed || d.malformed }

/-- The decoder after a command that wrote to its sink and returned the code `c`. -/
def DecUnit.returned (u : DecUnit) (snk : Sink) (log : List SnkXact) (c : Code) : DecUnit :=
  { u with snk := snk, snkLog := u.snkLog ++ log, responses := u.responses ++ [.plain c] }

/-- The decoder after reads at `DEC.SRC` that left the host's attachment as `src`. -/
def DecUnit.hasRead (u : DecUnit) (src : Source) (log : List SrcXact) : DecUnit :=
  { u with src := src, srcLog := u.srcLog ++ log }

/-- The encoder after a command that wrote to its sink and returned the code `c`. -/
def EncUnit.returned (u : EncUnit) (snk : Sink) (log : List SnkXact) (c : Code) : EncUnit :=
  { u with snk := snk, snkLog := u.snkLog ++ log, responses := u.responses ++ [.plain c] }

/-- The encoder after reads at `ENC.SRC`. -/
def EncUnit.hasRead (u : EncUnit) (src : Source) (log : List SrcXact) : EncUnit :=
  { u with src := src, srcLog := u.srcLog ++ log }

/-- The encoder left waiting at the transaction `t` after writes that left its sink as `snk` (R43). -/
def EncUnit.waiting (u : EncUnit) (snk : Sink) (log : List SnkXact) (t : EncTask) : EncUnit :=
  { u with snk := snk, snkLog := u.snkLog ++ log, task := some t }

/-- The decoder left waiting at the transaction `t` after writes that left its sink as `snk` (R43). -/
def DecUnit.waiting (u : DecUnit) (snk : Sink) (log : List SnkXact) (t : DecTask) : DecUnit :=
  { u with snk := snk, snkLog := u.snkLog ++ log, task := some t }

/-- The read that DEC_TRANSFER's body makes next after the wire bytes `w`, no `END` having ended the packet: the scan's
while it found no `END`, the decode loop's otherwise (R129, R132). -/
def transferWait (req : Bool) (w : List Byte) : DecTask :=
  if req && (scanWire w).isNone then .scan else .fetch !w.isEmpty

/-- `FailsAt p pre b st p'`: the sink accepts the bytes `pre`, one write each, and answers the write of `b` that
follows with `st`, which is no `Ok` (R48). -/
def Sink.FailsAt (p : Sink) (pre : List Byte) (b : Byte) (st : SnkStatus) (p' : Sink) : Prop :=
  ∃ q, p.accepts pre = some q ∧ q.write [b] = some (st, p') ∧ st ≠ .ok

/-- The record of a failed write of `b` after the accepted bytes `pre`. -/
def wroteThenFailed (pre : List Byte) (b : Byte) (st : SnkStatus) : List SnkXact := wrote pre ++ [⟨[b], st⟩]

/-- The bytes of the writes answered `Ok`, in order (R48, R51). -/
def delivered (log : List SnkXact) : List Byte :=
  log.flatMap fun x => if x.status = .ok then x.data else []

/-- How many wire bytes the block consumed in a record of reads: the answers `([b], More)` (R55). -/
def consumedBytes (log : List SrcXact) : List Byte :=
  log.flatMap fun x => if x.answer.status = .more ∧ x.answer.bytes.length = 1 then x.answer.bytes else []

/-! ## The command table -/

/-- A row of R75: a word `w` selects it when `(w & mask) == value`. -/
structure Row where
  value : Word
  mask : Word
  deriving DecidableEq, Repr

/-- The `match` and `mask` columns of R75, in its order. -/
def rows : List Row :=
  [⟨0x1000, 0xFEFF⟩, ⟨0x2000, 0xFF00⟩, ⟨0x3000, 0xFEFF⟩, ⟨0x4000, 0xFFFF⟩, ⟨0x8000, 0xFEFF⟩,
   ⟨0x9000, 0xFF00⟩, ⟨0xA000, 0xFFFF⟩, ⟨0xB000, 0xFFFF⟩, ⟨0xC000, 0xFFFF⟩, ⟨0xD000, 0xFFFF⟩]

/-- A row selects a word (R75). -/
def Row.selects (r : Row) (w : Word) : Bool := w &&& r.mask == r.value

/-! ## Invariants -/

/-- A busy encoder waits at a transaction that `ENV` has not answered: nothing else makes it wait (R14, R43). -/
def EncUnit.Waits (u : EncUnit) : Prop :=
  match u.task with
  | none => True
  | some t => encTransact u t = none

/-- A busy decoder waits at a transaction that `ENV` has not answered (R14, R43). -/
def DecUnit.Waits (u : DecUnit) : Prop :=
  match u.task with
  | none => True
  | some t => decTransact u t = none

/-- The cursor of an in-memory source is at most its buffer's length (R50). -/
def MemSource.wf (m : MemSource) : Bool := m.cursor ≤ m.buffer.length

/-- The cursor of an attached source is within its buffer (R50). -/
def Source.wf : Source → Bool
  | .external _ => true
  | .inMemory m => m.wf

/-- The cursor of a sink's buffer is at most its capacity (R51). -/
def Sink.wf : Sink → Bool
  | .external _ => true
  | .inMemory m => m.cursor ≤ m.buffer.length

/-- The encoder's invariant. -/
structure EncUnit.Inv (u : EncUnit) : Prop where
  waits : u.Waits
  src : u.src.wf = true
  snk : u.snk.wf = true

/-- The decoder's invariant. -/
structure DecUnit.Inv (u : DecUnit) : Prop where
  waits : u.Waits
  src : u.src.wf = true
  snk : u.snk.wf = true
  /-- The in-memory source of DEC_PACKET exists only while a command runs (R29, R62). -/
  packet : u.task = none → u.packetSrc = none
  /-- Its cursor is within the operand W, as an attached source's is within its buffer (R50, R62). -/
  packetCursor : ∀ m, u.packetSrc = some m → m.wf = true
  /-- The scan runs only under the start-byte policy (R24, R132). -/
  scan : u.task = some .scan → u.reqStart = true
  /-- Without the start-byte policy, ESCAPED means that the last wire byte consumed was an `ESC` (R26). -/
  escaped : u.reqStart = false → u.esc = .escaped → u.prev = ESC

/-- The machine's invariant. -/
structure State.Inv (s : State) : Prop where
  enc : s.enc.Inv
  dec : s.dec.Inv

/-- Every recorded source read asked for `READ_CHUNK` bytes (R45). -/
def readsOneByte (log : List SrcXact) : Prop := ∀ x ∈ log, x.maxLen = Config.readChunk

/-- Every recorded sink write carried `WRITE_CHUNK` bytes (R45). -/
def writesOneByte (log : List SnkXact) : Prop := ∀ x ∈ log, x.data.length = Config.writeChunk

/-- The block reads and writes one byte at a time (R45). -/
def State.OneByte (s : State) : Prop :=
  readsOneByte s.enc.srcLog ∧ writesOneByte s.enc.snkLog ∧ readsOneByte s.dec.srcLog ∧ writesOneByte s.dec.snkLog

/-- The unit an instruction runs on (R71). -/
def unitOf : Instr → UnitId
  | .encInit _ => .encoder
  | .encByte _ => .encoder
  | .encPacket _ _ => .encoder
  | .encTransfer => .encoder
  | .decInit _ => .decoder
  | .decByte _ => .decoder
  | .decTransfer => .decoder
  | .decPacket _ => .decoder
  | .decGetMalformed => .decoder
  | .decClearMalformed => .decoder

end Sys2Proof.Machine
end

