-- ==== Sys2Proof/Certificates/Slice0/Obligations.lean ====
section
/-! DEFINITION. The statements about the block, each from the rules of spec/ that its docstring names. Their terms
(premises on the ports, the meaning of a wire byte sequence, the invariants) are those of Sys2Proof/Safety.lean. -/

open Sys2Proof Sys2Proof.Machine

/-! ## Reset and the command channel -/

/-- Power-on reset leaves both units idle and every register at its reset value, makes no port transaction and gives
no response. `State.reset` is such a state, and so is the state after ENC_INIT 0 and DEC_INIT 0 (R180). -/
def Obligations.PowerOnResetState : Prop :=
  (∀ (s : State) (rest : List Input), s.inputs = .powerOn :: rest →
    ∃ t, step s = .next t ∧ t.AtReset ∧ t.inputs = rest ∧
      t.enc.srcLog = s.enc.srcLog ∧ t.enc.snkLog = s.enc.snkLog ∧ t.enc.responses = s.enc.responses ∧
      t.dec.srcLog = s.dec.srcLog ∧ t.dec.snkLog = s.dec.snkLog ∧ t.dec.responses = s.dec.responses) ∧
  State.reset.AtReset ∧
  (∀ s : State, s.enc.task = none → s.dec.task = none → s.dec.packetSrc = none →
    ∃ t u, exec (.encInit false) s = .next t ∧ exec (.decInit false) t = .next u ∧ u.AtReset)

/-- A step runs the decoded command: when the outside world's next action is the offer of a word and an operand
that decode to `i`, the step is `exec i` with that action taken (R14, R78). A word or operand that decodes to
nothing is refused by name: a reserved word (R77); and, the model's own choices, an operand with a command that takes
none (log entry 3, DESIGN CHOICE) and an operand longer than `PKT_MAX` (log entry 2, DESIGN CHOICE). -/
def Obligations.StepRunsOfferedCommand : Prop :=
  ∀ (s : State) (w : Word) (operand : List Byte) (rest : List Input),
    s.inputs = .command w operand :: rest →
    (∀ i, decode w operand = .ok i → step s = exec i { s with inputs := rest }) ∧
    (decode w operand = .error .reserved → step s = .refused (.reservedWord w)) ∧
    (decode w operand = .error .strayOperand → step s = .refused .strayOperand) ∧
    (decode w operand = .error .operandTooLong → step s = .refused .operandTooLong)

/-- The words of 30_encoding.md's table and of 95_test_vectors.md L2.1, bit by bit. -/
def Obligations.DecodeOfListedWords : Prop :=
  decode 0b0001000100000000 [] = .ok (.encInit true) ∧
  decode 0b0001000000000000 [] = .ok (.encInit false) ∧
  decode 0b0010000011111111 [] = .ok (.encByte 0xFF) ∧
  decode 0b0011000100000000 [] = .ok (.encPacket true []) ∧
  decode 0b0100000000000000 [] = .ok .encTransfer ∧
  decode 0b1000000100000000 [] = .ok (.decInit true) ∧
  decode 0b1001000011000000 [] = .ok (.decByte 0xC0) ∧
  decode 0b1010000000000000 [] = .ok .decTransfer ∧
  decode 0b1011000000000000 [] = .ok (.decPacket []) ∧
  decode 0b1100000000000000 [] = .ok .decGetMalformed ∧
  decode 0b1101000000000000 [] = .ok .decClearMalformed ∧
  decode 0b0001000000000001 [] = .error .reserved ∧
  decode 0b0001001000000000 [] = .error .reserved ∧
  decode 0b0010000100000000 [] = .error .reserved ∧
  decode 0b1101000100000000 [] = .error .reserved

/-- A word decodes to a command exactly when a row of the table selects it, at most one does, and every other word is
refused by the step, whatever comes with it (R75, R77). -/
def Obligations.ReservedWordsAreTheUnselected : Prop :=
  (∀ (w : Word) (operand : List Byte),
    decode w operand = .error .reserved ↔ ∀ r ∈ rows, r.selects w = false) ∧
  (∀ (w : Word), ∀ r ∈ rows, ∀ r' ∈ rows, r.selects w = true → r'.selects w = true → r = r') ∧
  (∀ (s : State) (w : Word) (operand : List Byte) (rest : List Input),
    s.inputs = .command w operand :: rest → (∀ r ∈ rows, r.selects w = false) →
    step s = .refused (.reservedWord w))

/-- Every row of the table, at every word that selects it (R75): the command, with `S = w[8]` and `D = w[7:0]` as they
stand (R72, R73), and a packet command with any operand up to `PKT_MAX` bytes (R76). That a longer operand makes the
offer no command is the model's choice (log entry 2, DESIGN CHOICE). -/
def Obligations.TableRowsDecode : Prop :=
  ∀ w : Word,
    (w &&& 0xFEFF = 0x1000 → decode w [] = .ok (.encInit (w.getLsbD 8))) ∧
    (w &&& 0xFF00 = 0x2000 → decode w [] = .ok (.encByte (w.extractLsb' 0 8))) ∧
    (w &&& 0xFEFF = 0x3000 → ∀ p : List Byte,
      (p.length ≤ Config.pktMax → decode w p = .ok (.encPacket (w.getLsbD 8) p)) ∧
      (Config.pktMax < p.length → decode w p = .error .operandTooLong)) ∧
    (w &&& 0xFFFF = 0x4000 → decode w [] = .ok .encTransfer) ∧
    (w &&& 0xFEFF = 0x8000 → decode w [] = .ok (.decInit (w.getLsbD 8))) ∧
    (w &&& 0xFF00 = 0x9000 → decode w [] = .ok (.decByte (w.extractLsb' 0 8))) ∧
    (w &&& 0xFFFF = 0xA000 → decode w [] = .ok .decTransfer) ∧
    (w &&& 0xFFFF = 0xB000 → ∀ p : List Byte,
      (p.length ≤ Config.pktMax → decode w p = .ok (.decPacket p)) ∧
      (Config.pktMax < p.length → decode w p = .error .operandTooLong)) ∧
    (w &&& 0xFFFF = 0xC000 → decode w [] = .ok .decGetMalformed) ∧
    (w &&& 0xFFFF = 0xD000 → decode w [] = .ok .decClearMalformed)

/-- Decoding what the encoder puts on the channel gives the command back, every operand at every value. -/
def Obligations.DecodeOfEncode : Prop :=
  ∀ i : Instr, i.wellFormed = true → decode (encode i).1 (encode i).2 = .ok i

/-- Each offer has at most one meaning: the offer is the encoding of the command it decodes to, and the command is
well formed. -/
def Obligations.EncodeOfDecode : Prop :=
  ∀ (w : Word) (operand : List Byte) (i : Instr),
    decode w operand = .ok i → encode i = (w, operand) ∧ i.wellFormed = true

/-- Bit 15 of a command's word selects the unit it runs on (R71): a command changes that unit alone. -/
def Obligations.UnitSelectedByBit15 : Prop :=
  ∀ (w : Word) (operand : List Byte) (i : Instr) (s t : State),
    decode w operand = .ok i → exec i s = .next t →
    (w.getLsbD 15 = false → t.dec = s.dec) ∧ (w.getLsbD 15 = true → t.enc = s.enc)

/-- A command offered to a busy unit has no step, and neither has a reserved word (R176). -/
def Obligations.BusyUnitRefuses : Prop :=
  (∀ (i : Instr) (s : State), s.busy (unitOf i) = true → exec i s = .refused (.unitBusy (unitOf i))) ∧
  (∀ (i : Instr) (s : State) (w : Word) (operand : List Byte) (rest : List Input),
    s.inputs = .command w operand :: rest → decode w operand = .ok i → s.busy (unitOf i) = true →
    step s = .refused (.unitBusy (unitOf i))) ∧
  (∀ (s : State) (w : Word) (operand : List Byte) (rest : List Input),
    s.inputs = .command w operand :: rest → decode w operand = .error .reserved →
    step s = .refused (.reservedWord w))

/-! ## Ports and adapters -/

/-- What the block does with every source answer it can see (R49): consume a byte, read again, stop at the end, or
fail. -/
def Obligations.SourceAnswersClassified : Prop :=
  (∀ b, fetchByte ⟨[b], .more⟩ = .byte b) ∧
  fetchByte ⟨[], .more⟩ = .again ∧
  (∀ bs, 2 ≤ bs.length → fetchByte ⟨bs, .more⟩ = .ioFail) ∧
  fetchByte ⟨[], .eof⟩ = .eos ∧
  (∀ bs, 1 ≤ bs.length → fetchByte ⟨bs, .eof⟩ = .ioFail) ∧
  (∀ bs, fetchByte ⟨bs, .error⟩ = .ioFail)

/-- The in-memory source adapter (R50): an exhausted buffer answers `([], Eof)` and stays; otherwise the answer is the
next `min n (L - c)` bytes with `More`, and the cursor moves by as many. The buffer is never written (R58), a request
of one byte is never short, and the cursor starts at 0. -/
def Obligations.InMemorySourceReads : Prop :=
  (∀ b : List Byte, SrcDevice.attach (.inMemory b) = .inMemory ⟨b, 0⟩) ∧
  ∀ (m : MemSource) (n : Nat), m.cursor ≤ m.buffer.length →
    (m.cursor = m.buffer.length → Source.read (.inMemory m) n = some (⟨[], .eof⟩, .inMemory m)) ∧
    (m.cursor < m.buffer.length →
      ∃ bs, Source.read (.inMemory m) n =
          some (⟨bs, .more⟩, .inMemory ⟨m.buffer, m.cursor + min n (m.buffer.length - m.cursor)⟩) ∧
        bs.length = min n (m.buffer.length - m.cursor) ∧
        (∀ j, j < bs.length → bs[j]? = m.buffer[m.cursor + j]?) ∧ (n = 1 → bs.length = 1))

/-- The in-memory sink adapter (R51): a write that does not fit writes nothing and answers `Eof`; one that fits puts
its bytes at the cursor and nowhere else, moves the cursor past them and answers `Ok`, and the contents grow by
them. The cursor starts at 0, with no contents. -/
def Obligations.InMemorySinkWrites : Prop :=
  (∀ b : List Byte, SnkDevice.attach (.inMemory b) = .inMemory ⟨b, 0⟩ ∧ MemSink.contents ⟨b, 0⟩ = []) ∧
  ∀ (m : MemSink) (bs : List Byte), m.cursor ≤ m.buffer.length →
    (m.buffer.length < m.cursor + bs.length → Sink.write (.inMemory m) bs = some (.eof, .inMemory m)) ∧
    (m.cursor + bs.length ≤ m.buffer.length →
      ∃ m', Sink.write (.inMemory m) bs = some (.ok, .inMemory m') ∧
        m'.cursor = m.cursor + bs.length ∧ m'.buffer.length = m.buffer.length ∧
        (∀ j, j < bs.length → m'.buffer[m.cursor + j]? = bs[j]?) ∧
        (∀ j, j < m.cursor ∨ m.cursor + bs.length ≤ j → m'.buffer[j]? = m.buffer[j]?) ∧
        m'.contents = m.contents ++ bs)

/-- Every read asks for one byte and every write carries one byte (R45): a step keeps the records so. -/
def Obligations.StepKeepsOneByteTransactions : Prop :=
  ∀ s t : State, s.OneByte → step s = .next t → t.OneByte

/-- What a command does to the adapters' buffers. A source's buffer is never written, and its cursor only grows. A
sink's buffer keeps its length, every byte outside the stretch between the old and the new cursor reads as before,
and the contents grow by exactly the bytes of the writes the record shows as answered `Ok` (R51, R58). -/
def Obligations.AdapterBuffersFrame : Prop :=
  ∀ (i : Instr) (s t : State), exec i s = .next t →
    (∀ m, s.enc.src = .inMemory m → ∃ c, t.enc.src = .inMemory ⟨m.buffer, c⟩ ∧ m.cursor ≤ c) ∧
    (∀ m, s.dec.src = .inMemory m → ∃ c, t.dec.src = .inMemory ⟨m.buffer, c⟩ ∧ m.cursor ≤ c) ∧
    (∀ m, s.enc.snk = .inMemory m → m.cursor ≤ m.buffer.length →
      ∃ m' log, t.enc.snk = .inMemory m' ∧ t.enc.snkLog = s.enc.snkLog ++ log ∧
        m'.buffer.length = m.buffer.length ∧ m'.cursor = m.cursor + (delivered log).length ∧
        (∀ j, j < m.cursor ∨ m'.cursor ≤ j → m'.buffer[j]? = m.buffer[j]?) ∧
        m'.contents = m.contents ++ delivered log) ∧
    (∀ m, s.dec.snk = .inMemory m → m.cursor ≤ m.buffer.length →
      ∃ m' log, t.dec.snk = .inMemory m' ∧ t.dec.snkLog = s.dec.snkLog ++ log ∧
        m'.buffer.length = m.buffer.length ∧ m'.cursor = m.cursor + (delivered log).length ∧
        (∀ j, j < m.cursor ∨ m'.cursor ≤ j → m'.buffer[j]? = m.buffer[j]?) ∧
        m'.contents = m.contents ++ delivered log)

/-- A unit blocks at an unanswered transaction, whichever of its command it is, with what was done before it done and
nothing else changed (R43): the writes of ENC_BYTE and ENC_PACKET; the leading `END`, the reads, the stuffed bytes and
the terminating `END` of ENC_TRANSFER; the emit of DEC_BYTE; the reads and the emits of DEC_TRANSFER; the emits of
DEC_PACKET, whose own source answers every read (R62). When the outside world does nothing more, nothing changes: the
model's form of waiting, log entry 8. -/
def Obligations.UnansweredTransactionWaits : Prop :=
  (∀ s : State, s.inputs = [] → step s = .next s) ∧
  (∀ (b : Byte) (s : State) pre x out q, s.enc.task = none → stuff b = pre ++ x :: out →
    s.enc.snk.accepts pre = some q → q.write [x] = none →
    exec (.encByte b) s = .next (s.setEnc (s.enc.waiting q (wrote pre) (.write x out .finish)))) ∧
  (∀ (v : Bool) (p : List Byte) (s : State) pre x rest q, s.enc.task = none → frame p v = pre ++ x :: rest →
    s.enc.snk.accepts pre = some q → q.write [x] = none →
    ∃ out k, exec (.encPacket v p) s = .next (s.setEnc (s.enc.waiting q (wrote pre) (.write x out k)))) ∧
  (∀ s : State, s.enc.task = none → s.enc.useStart = true → s.enc.snk.write [END] = none →
    exec .encTransfer s = .next (s.setEnc (s.enc.waiting s.enc.snk [] (.write END [] .fetch)))) ∧
  (∀ (s : State) p log src q, s.enc.task = none → Reads s.enc.src p log src →
    s.enc.snk.accepts (leadingEnd s.enc.useStart ++ p.flatMap stuff) = some q → src.read Config.readChunk = none →
    exec .encTransfer s = .next (s.setEnc ((s.enc.hasRead src log).waiting q
      (wrote (leadingEnd s.enc.useStart ++ p.flatMap stuff)) .read))) ∧
  (∀ (s : State) p log src a src' b pre x out q, s.enc.task = none → Reads s.enc.src p log src →
    src.read Config.readChunk = some (a, src') → fetchByte a = .byte b → stuff b = pre ++ x :: out →
    s.enc.snk.accepts (leadingEnd s.enc.useStart ++ p.flatMap stuff ++ pre) = some q → q.write [x] = none →
    exec .encTransfer s = .next (s.setEnc ((s.enc.hasRead src' (log ++ [⟨Config.readChunk, a⟩])).waiting q
      (wrote (leadingEnd s.enc.useStart ++ p.flatMap stuff ++ pre)) (.write x out .fetch)))) ∧
  (∀ (s : State) p log src src' q, s.enc.task = none → Reads s.enc.src p log src →
    src.read Config.readChunk = some (eofAnswer, src') →
    s.enc.snk.accepts (leadingEnd s.enc.useStart ++ p.flatMap stuff) = some q → q.write [END] = none →
    exec .encTransfer s = .next (s.setEnc ((s.enc.hasRead src' (log ++ readEof)).waiting q
      (wrote (leadingEnd s.enc.useStart ++ p.flatMap stuff)) (.write END [] .finish)))) ∧
  (∀ (s : State) (b x : Byte), s.dec.task = none → s.dec.packetSrc = none →
    (decodeWire s.dec.esc [b]).data = [x] → s.dec.snk.write [x] = none →
    exec (.decByte b) s = .next (s.setDec ((s.dec.decoded (decodeWire s.dec.esc [b])).waiting s.dec.snk []
      (.emit x .more false)))) ∧
  (∀ (s : State) w log src q, s.dec.task = none → s.dec.packetSrc = none → Reads s.dec.src w log src →
    (transferWire s.dec.reqStart s.dec.esc w).ended = false →
    s.dec.snk.accepts (transferWire s.dec.reqStart s.dec.esc w).data = some q → src.read Config.readChunk = none →
    exec .decTransfer s = .next (s.setDec
      (((s.dec.decoded (transferWire s.dec.reqStart s.dec.esc w)).hasRead src log).waiting q
        (wrote (transferWire s.dec.reqStart s.dec.esc w).data) (transferWait s.dec.reqStart w)))) ∧
  (∀ (s : State) w log src a src' b x q, s.dec.task = none → s.dec.packetSrc = none → Reads s.dec.src w log src →
    src.read Config.readChunk = some (a, src') → fetchByte a = .byte b →
    (transferWire s.dec.reqStart s.dec.esc w).ended = false →
    (transferWire s.dec.reqStart s.dec.esc (w ++ [b])).data =
      (transferWire s.dec.reqStart s.dec.esc w).data ++ [x] →
    s.dec.snk.accepts (transferWire s.dec.reqStart s.dec.esc w).data = some q → q.write [x] = none →
    exec .decTransfer s = .next (s.setDec
      (((s.dec.decoded (transferWire s.dec.reqStart s.dec.esc (w ++ [b]))).hasRead src'
        (log ++ [⟨Config.readChunk, a⟩])).waiting q (wrote (transferWire s.dec.reqStart s.dec.esc w).data)
        (.emit x .more true)))) ∧
  (∀ (s : State) w rest b x q, s.dec.task = none → s.dec.packetSrc = none →
    (transferWire s.dec.reqStart s.dec.esc w).ended = false →
    (transferWire s.dec.reqStart s.dec.esc (w ++ [b])).data =
      (transferWire s.dec.reqStart s.dec.esc w).data ++ [x] →
    s.dec.snk.accepts (transferWire s.dec.reqStart s.dec.esc w).data = some q → q.write [x] = none →
    exec (.decPacket (w ++ b :: rest)) s = .next (s.setDec
      { ((s.dec.decoded (transferWire s.dec.reqStart s.dec.esc (w ++ [b]))).hasRead s.dec.src
          (readEach (w ++ [b]))).waiting q (wrote (transferWire s.dec.reqStart s.dec.esc w).data)
          (.emit x .more true) with
        packetSrc := some ⟨w ++ b :: rest, w.length + 1⟩ }))

/-- The host attaches a source or a sink behind one port of an idle unit: that port alone changes (R40, R182). On a busy
unit the model refuses (log entry 6), and so it does an answer to any of the four ports that has an in-memory adapter
(log entry 7). -/
def Obligations.AttachmentChangesOnePort : Prop :=
  ∀ (s : State) (rest : List Input),
    (∀ d, s.inputs = .attachSource .encoder d :: rest → s.enc.task = none →
      step s = .next { s with enc := { s.enc with src := d.attach }, inputs := rest }) ∧
    (∀ d, s.inputs = .attachSink .encoder d :: rest → s.enc.task = none →
      step s = .next { s with enc := { s.enc with snk := d.attach }, inputs := rest }) ∧
    (∀ d, s.inputs = .attachSource .decoder d :: rest → s.dec.task = none →
      step s = .next { s with dec := { s.dec with src := d.attach }, inputs := rest }) ∧
    (∀ d, s.inputs = .attachSink .decoder d :: rest → s.dec.task = none →
      step s = .next { s with dec := { s.dec with snk := d.attach }, inputs := rest }) ∧
    (∀ unit d, s.inputs = .attachSource unit d :: rest → s.busy unit = true →
      step s = .refused (.attachWhileBusy unit)) ∧
    (∀ unit d, s.inputs = .attachSink unit d :: rest → s.busy unit = true →
      step s = .refused (.attachWhileBusy unit)) ∧
    (∀ a m, s.inputs = .sourceAnswer .encoder a :: rest → s.enc.src = .inMemory m →
      step s = .refused (.adapterAnswersItself .encoder)) ∧
    (∀ a m, s.inputs = .sourceAnswer .decoder a :: rest → s.dec.src = .inMemory m →
      step s = .refused (.adapterAnswersItself .decoder)) ∧
    (∀ st m, s.inputs = .sinkAnswer .encoder st :: rest → s.enc.snk = .inMemory m →
      step s = .refused (.adapterAnswersItself .encoder)) ∧
    (∀ st m, s.inputs = .sinkAnswer .decoder st :: rest → s.dec.snk = .inMemory m →
      step s = .refused (.adapterAnswersItself .decoder))

/-- An answer of `ENV` for a port with a device behind it is always taken (R41 to R43). On an idle unit it becomes that
port's last ready answer, for a later command, and nothing else changes (log entry 10). -/
def Obligations.AnswersOfEnvAreTaken : Prop :=
  ∀ (s : State) (rest : List Input),
    (∀ as a, s.enc.src = .external as → s.inputs = .sourceAnswer .encoder a :: rest →
      (∃ t, step s = .next t) ∧
      (s.enc.task = none →
        step s = .next { s with enc := { s.enc with src := .external (as ++ [a]) }, inputs := rest })) ∧
    (∀ as st, s.enc.snk = .external as → s.inputs = .sinkAnswer .encoder st :: rest →
      (∃ t, step s = .next t) ∧
      (s.enc.task = none →
        step s = .next { s with enc := { s.enc with snk := .external (as ++ [st]) }, inputs := rest })) ∧
    (∀ as a, s.dec.src = .external as → s.inputs = .sourceAnswer .decoder a :: rest →
      (∃ t, step s = .next t) ∧
      (s.dec.task = none →
        step s = .next { s with dec := { s.dec with src := .external (as ++ [a]) }, inputs := rest })) ∧
    (∀ as st, s.dec.snk = .external as → s.inputs = .sinkAnswer .decoder st :: rest →
      (∃ t, step s = .next t) ∧
      (s.dec.task = none →
        step s = .next { s with dec := { s.dec with snk := .external (as ++ [st]) }, inputs := rest }))

/-- The answer a unit waits for answers its transaction (R14, R43): it is recorded as the next of that port and used up.
If it makes the transaction fail, the unit answers IO_ERROR, is idle, and does nothing more on either port
(R48, R161). -/
def Obligations.AnswerCompletesTheWaitingTransaction : Prop :=
  ∀ (s : State) (rest : List Input),
    (∀ a, s.enc.task = some .read → s.enc.src = .external [] → s.inputs = .sourceAnswer .encoder a :: rest →
      ∃ t, step s = .next t ∧ t.enc.src = .external [] ∧
        t.enc.srcLog = s.enc.srcLog ++ [⟨Config.readChunk, a⟩] ∧
        (fetchByte a = .ioFail →
          t = { s with
            enc := { s.enc with
              task := none, srcLog := s.enc.srcLog ++ [⟨Config.readChunk, a⟩],
              responses := s.enc.responses ++ [.plain .ioError] },
            inputs := rest })) ∧
    (∀ b out k st, s.enc.task = some (.write b out k) → s.enc.snk = .external [] →
      s.inputs = .sinkAnswer .encoder st :: rest →
      ∃ t, step s = .next t ∧ t.enc.snk = .external [] ∧ t.enc.snkLog = s.enc.snkLog ++ [⟨[b], st⟩] ∧
        (st ≠ .ok →
          t = { s with
            enc := { s.enc with
              task := none, snkLog := s.enc.snkLog ++ [⟨[b], st⟩],
              responses := s.enc.responses ++ [.plain .ioError] },
            inputs := rest })) ∧
    (∀ task a, (task = .scan ∨ ∃ got, task = .fetch got) → s.dec.task = some task → s.dec.packetSrc = none →
      s.dec.src = .external [] → s.inputs = .sourceAnswer .decoder a :: rest →
      ∃ t, step s = .next t ∧ t.dec.src = .external [] ∧
        t.dec.srcLog = s.dec.srcLog ++ [⟨Config.readChunk, a⟩] ∧
        (fetchByte a = .ioFail →
          t = { s with
            dec := { s.dec with
              task := none, srcLog := s.dec.srcLog ++ [⟨Config.readChunk, a⟩],
              responses := s.dec.responses ++ [.plain .ioError] },
            inputs := rest })) ∧
    (∀ x sig inLoop st, s.dec.task = some (.emit x sig inLoop) → s.dec.snk = .external [] →
      s.inputs = .sinkAnswer .decoder st :: rest →
      ∃ t, step s = .next t ∧ t.dec.snk = .external [] ∧ t.dec.snkLog = s.dec.snkLog ++ [⟨[x], st⟩] ∧
        (st ≠ .ok →
          t = { s with
            dec := { s.dec with
              task := none, packetSrc := none, snkLog := s.dec.snkLog ++ [⟨[x], st⟩],
              responses := s.dec.responses ++ [.plain .ioError] },
            inputs := rest }))

/-- An answer for the other port of a waiting unit leaves it waiting: the answer is ready for a later transaction and
nothing else changes (R43, log entry 10). -/
def Obligations.AnswerForTheOtherPortIsKept : Prop :=
  ∀ (s : State) (rest : List Input),
    (∀ b out k as a, s.enc.task = some (.write b out k) → s.enc.snk = .external [] → s.enc.src = .external as →
      s.inputs = .sourceAnswer .encoder a :: rest →
      step s = .next { s with enc := { s.enc with src := .external (as ++ [a]) }, inputs := rest }) ∧
    (∀ as st, s.enc.task = some .read → s.enc.src = .external [] → s.enc.snk = .external as →
      s.inputs = .sinkAnswer .encoder st :: rest →
      step s = .next { s with enc := { s.enc with snk := .external (as ++ [st]) }, inputs := rest }) ∧
    (∀ x sig inLoop as a, s.dec.task = some (.emit x sig inLoop) → s.dec.snk = .external [] →
      s.dec.src = .external as → s.inputs = .sourceAnswer .decoder a :: rest →
      step s = .next { s with dec := { s.dec with src := .external (as ++ [a]) }, inputs := rest }) ∧
    (∀ task as st, (task = .scan ∨ ∃ got, task = .fetch got) → s.dec.task = some task → s.dec.packetSrc = none →
      s.dec.src = .external [] → s.dec.snk = .external as → s.inputs = .sinkAnswer .decoder st :: rest →
      step s = .next { s with dec := { s.dec with snk := .external (as ++ [st]) }, inputs := rest })

/-- It does not matter when `ENV` gives an answer: a command that runs and is then answered ends where it ends when
the answer is ready beforehand (R43, R188). That an answer can be ready before its transaction is log entry 10. -/
def Obligations.AnswerTimeIsIrrelevant : Prop :=
  ∀ (i : Instr) (s s₁ t : State) (x : Input),
    ((∃ unit a, x = .sourceAnswer unit a) ∨ (∃ unit st, x = .sinkAnswer unit st)) →
    deliver x s = .next s₁ → exec i s = .next t →
    ∃ u, deliver x t = .next u ∧ exec i s₁ = .next u

/-! ## The encoder -/

/-- ENC_INIT sets `ENC.USE_START` to its operand `w[8]`, answers OK and changes nothing else (R102). -/
def Obligations.EncInitSetsUseStart : Prop :=
  (∀ w : Word, w &&& 0xFEFF = 0x1000 → decode w [] = .ok (.encInit (w.getLsbD 8))) ∧
  ∀ (v : Bool) (s : State), s.enc.task = none →
    exec (.encInit v) s =
      .next { s with enc := { s.enc with useStart := v, responses := s.enc.responses ++ [⟨.ok, 0x00⟩] } }

/-- The stuffing function on the four reserved values and on every other (R100). -/
def Obligations.StuffingOfEveryByte : Prop :=
  stuff 0xC0 = [0xDB, 0xDC] ∧ stuff 0xDB = [0xDB, 0xDD] ∧ ∀ b : Byte, b ≠ 0xC0 → b ≠ 0xDB → stuff b = [b]

/-- ENC_BYTE writes the stuffed byte, one write a byte, and answers OK when every write is accepted; it answers
IO_ERROR at the first write that is not, with nothing written after it. No register is read or written (R103). -/
def Obligations.EncByteWritesStuffing : Prop :=
  (∀ w : Word, w &&& 0xFF00 = 0x2000 → decode w [] = .ok (.encByte (w.extractLsb' 0 8))) ∧
  ∀ (b : Byte) (s : State), s.enc.task = none →
    (∀ p, s.enc.snk.accepts (stuff b) = some p →
      exec (.encByte b) s = .next (s.setEnc (s.enc.returned p (wrote (stuff b)) .ok))) ∧
    (∀ pre x rest st p, stuff b = pre ++ x :: rest → s.enc.snk.FailsAt pre x st p →
      exec (.encByte b) s = .next (s.setEnc (s.enc.returned p (wroteThenFailed pre x st) .ioError)))

/-- ENC_PACKET(s, P) writes exactly `Frame(P, s)` and answers OK when every write is accepted; it answers IO_ERROR at
the first write that is not, with nothing written after it. Its policy is its operand (R104). -/
def Obligations.EncPacketWritesFrame : Prop :=
  (∀ (w : Word) (p : List Byte), w &&& 0xFEFF = 0x3000 → p.length ≤ Config.pktMax →
    decode w p = .ok (.encPacket (w.getLsbD 8) p)) ∧
  ∀ (v : Bool) (p : List Byte) (s : State), s.enc.task = none →
    (∀ q, s.enc.snk.accepts (frame p v) = some q →
      exec (.encPacket v p) s = .next (s.setEnc (s.enc.returned q (wrote (frame p v)) .ok))) ∧
    (∀ pre x rest st q, frame p v = pre ++ x :: rest → s.enc.snk.FailsAt pre x st q →
      exec (.encPacket v p) s = .next (s.setEnc (s.enc.returned q (wroteThenFailed pre x st) .ioError)))

/-- ENC_TRANSFER on a source that yields P and then its end, with any number of `([], More)` answers in between,
writes exactly `Frame(P, ENC.USE_START)` and answers OK when every write is accepted (R105, R107). -/
def Obligations.EncTransferWritesFrame : Prop :=
  ∀ (p : List Byte) (s : State) (log : List SrcXact) (src src' : Source) (q : Sink),
    s.enc.task = none → Reads s.enc.src p log src → src.read Config.readChunk = some (eofAnswer, src') →
    s.enc.snk.accepts (frame p s.enc.useStart) = some q →
    exec .encTransfer s =
      .next (s.setEnc ((s.enc.hasRead src' (log ++ readEof)).returned q (wrote (frame p s.enc.useStart)) .ok))

/-- Each way ENC_TRANSFER answers IO_ERROR (R105, R161): the leading `END` fails before any read; a source answer is
an error or breaks the contract; the write of a stuffed byte fails; the terminating `END` fails. -/
def Obligations.EncTransferIoErrors : Prop :=
  ∀ (s : State), s.enc.task = none →
    (∀ st q, s.enc.useStart = true → s.enc.snk.FailsAt [] END st q →
      exec .encTransfer s = .next (s.setEnc (s.enc.returned q (wroteThenFailed [] END st) .ioError))) ∧
    (∀ p log src a src' q, Reads s.enc.src p log src → src.read Config.readChunk = some (a, src') →
      fetchByte a = .ioFail → s.enc.snk.accepts (leadingEnd s.enc.useStart ++ p.flatMap stuff) = some q →
      exec .encTransfer s = .next (s.setEnc ((s.enc.hasRead src' (log ++ [⟨Config.readChunk, a⟩])).returned q
        (wrote (leadingEnd s.enc.useStart ++ p.flatMap stuff)) .ioError))) ∧
    (∀ p log src a src' b pre x rest st q, Reads s.enc.src p log src →
      src.read Config.readChunk = some (a, src') → fetchByte a = .byte b → stuff b = pre ++ x :: rest →
      s.enc.snk.FailsAt (leadingEnd s.enc.useStart ++ p.flatMap stuff ++ pre) x st q →
      exec .encTransfer s = .next (s.setEnc ((s.enc.hasRead src' (log ++ [⟨Config.readChunk, a⟩])).returned q
        (wroteThenFailed (leadingEnd s.enc.useStart ++ p.flatMap stuff ++ pre) x st) .ioError))) ∧
    (∀ p log src src' st q, Reads s.enc.src p log src → src.read Config.readChunk = some (eofAnswer, src') →
      s.enc.snk.FailsAt (leadingEnd s.enc.useStart ++ p.flatMap stuff) END st q →
      exec .encTransfer s = .next (s.setEnc ((s.enc.hasRead src' (log ++ readEof)).returned q
        (wroteThenFailed (leadingEnd s.enc.useStart ++ p.flatMap stuff) END st) .ioError)))

/-- In a frame, `END` stands only at index 0, and then under the start-byte policy, and at the last index; every `ESC`
is followed by `ESC_END` or `ESC_ESC` (R108). -/
def Obligations.FrameDelimitersAndEscapes : Prop :=
  ∀ (p : List Byte) (v : Bool) (j : Nat),
    ((frame p v)[j]? = some END → (j = 0 ∧ v = true) ∨ j + 1 = (frame p v).length) ∧
    ((frame p v)[j]? = some ESC → (frame p v)[j + 1]? = some ESC_END ∨ (frame p v)[j + 1]? = some ESC_ESC)

/-- A frame has `s + len(P) + E + 1` bytes, `E` the number of payload bytes `END` or `ESC`, and an ENC_PACKET that
answers OK made exactly that many writes (R110). -/
def Obligations.FrameLength : Prop :=
  ∀ (p : List Byte) (v : Bool),
    (frame p v).length = (if v then 1 else 0) + p.length + p.countP (fun b => b == END || b == ESC) + 1 ∧
    ∀ (s t : State), exec (.encPacket v p) s = .next t →
      t.enc.responses = s.enc.responses ++ [.plain .ok] →
      ∃ log, t.enc.snkLog = s.enc.snkLog ++ log ∧ log.length = (frame p v).length

/-- ENC_PACKET(s, P) makes the sink transactions, gives the response and leaves the sink that ENC_TRANSFER would with
`ENC.USE_START = s` and an in-memory source over P, whatever the sink answers (R109). -/
def Obligations.PacketIsTransferFromMemory : Prop :=
  ∀ (v : Bool) (p : List Byte) (s : State), s.enc.task = none →
    ∃ t t', exec (.encPacket v p) s = .next t ∧
      exec .encTransfer (s.setEnc { s.enc with useStart := v, src := .inMemory ⟨p, 0⟩ }) = .next t' ∧
      t'.enc.snkLog = t.enc.snkLog ∧ t'.enc.responses = t.enc.responses ∧ t'.enc.snk = t.enc.snk ∧
      t'.enc.busy = t.enc.busy

/-- When ENC_BYTE or ENC_PACKET answers IO_ERROR, the accepted bytes are a proper prefix of what it would have
written, the failing write carries the next byte, and no write follows (R111). -/
def Obligations.IoErrorLeavesProperPrefix : Prop :=
  ∀ (i : Instr) (full : List Byte) (s t : State),
    ((∃ b, i = .encByte b ∧ full = stuff b) ∨ (∃ v p, i = .encPacket v p ∧ full = frame p v)) →
    exec i s = .next t → t.enc.responses = s.enc.responses ++ [.plain .ioError] →
    ∃ pre x rest st, full = pre ++ x :: rest ∧ st ≠ SnkStatus.ok ∧
      t.enc.snkLog = s.enc.snkLog ++ wrote pre ++ [⟨[x], st⟩]

/-- The encoder has no mutable state but `ENC.USE_START`, which none of these three writes: with the same port answers,
ENC_BYTE, ENC_PACKET and (with the same policy) ENC_TRANSFER do the same whatever ran before (R106). -/
def Obligations.EncoderForgetsHistory : Prop :=
  ∀ (i : Instr) (s s' t : State),
    unitOf i = .encoder → (∀ v, i ≠ .encInit v) → (i = .encTransfer → s.enc.useStart = s'.enc.useStart) →
    s.enc.task = none → s'.enc.task = none → s.enc.src = s'.enc.src → s.enc.snk = s'.enc.snk →
    exec i s = .next t →
    t.enc.useStart = s.enc.useStart ∧ ∃ t' reads writes rsp, exec i s' = .next t' ∧
      t.enc.srcLog = s.enc.srcLog ++ reads ∧ t'.enc.srcLog = s'.enc.srcLog ++ reads ∧
      t.enc.snkLog = s.enc.snkLog ++ writes ∧ t'.enc.snkLog = s'.enc.snkLog ++ writes ∧
      t.enc.responses = s.enc.responses ++ rsp ∧ t'.enc.responses = s'.enc.responses ++ rsp ∧
      t.enc.task = t'.enc.task ∧ t.enc.src = t'.enc.src ∧ t.enc.snk = t'.enc.snk

/-- What a command of the encoder leaves unchanged (R57, R102 to R105): the decoder and what is to come, always;
`ENC.USE_START` but for ENC_INIT; the source port but for ENC_TRANSFER; both ports for ENC_INIT. -/
def Obligations.EncoderCommandFrame : Prop :=
  ∀ (i : Instr) (s t : State), unitOf i = .encoder → exec i s = .next t →
    t.dec = s.dec ∧ t.inputs = s.inputs ∧
    ((∀ v, i ≠ .encInit v) → t.enc.useStart = s.enc.useStart) ∧
    (i ≠ .encTransfer → t.enc.src = s.enc.src ∧ t.enc.srcLog = s.enc.srcLog) ∧
    ((∃ v, i = .encInit v) → t.enc.snk = s.enc.snk ∧ t.enc.snkLog = s.enc.snkLog ∧ t.enc.task = s.enc.task)

/-! ## The decoder -/

/-- DEC_INIT puts the decoder's registers in their initial values with the policy of its operand `w[8]`, answers OK
and changes nothing else (R130). -/
def Obligations.DecInitConstructs : Prop :=
  (∀ w : Word, w &&& 0xFEFF = 0x8000 → decode w [] = .ok (.decInit (w.getLsbD 8))) ∧
  ∀ (v : Bool) (s : State), s.dec.task = none → s.dec.packetSrc = none →
    exec (.decInit v) s =
      .next { s with
        dec := { s.dec with
          reqStart := v, prev := 0x00, esc := .normal, malformed := false,
          responses := s.dec.responses ++ [⟨.ok, 0x00⟩] } }

/-- DEC_BYTE on each row of the transition table (R121 to R126), the sink accepting the emit where there is one: the
registers after it, the data byte written, and the signal as the response. -/
def Obligations.DecByteTransitions : Prop :=
  ∀ (s : State) (b : Byte) (p : Sink), s.dec.task = none → s.dec.packetSrc = none →
    (s.dec.esc = .normal → b = END →
      exec (.decByte b) s = .next (s.setDec ({ s.dec with prev := b }.returned s.dec.snk [] .endOfPacket))) ∧
    (s.dec.esc = .normal → b = ESC →
      exec (.decByte b) s =
        .next (s.setDec ({ s.dec with prev := b, esc := .escaped }.returned s.dec.snk [] .more))) ∧
    (s.dec.esc = .normal → b ≠ END → b ≠ ESC → s.dec.snk.write [b] = some (.ok, p) →
      exec (.decByte b) s = .next (s.setDec ({ s.dec with prev := b }.returned p [⟨[b], .ok⟩] .more))) ∧
    (s.dec.esc = .escaped → b = ESC_END → s.dec.snk.write [END] = some (.ok, p) →
      exec (.decByte b) s =
        .next (s.setDec ({ s.dec with prev := b, esc := .normal }.returned p [⟨[END], .ok⟩] .more))) ∧
    (s.dec.esc = .escaped → b = ESC_ESC → s.dec.snk.write [ESC] = some (.ok, p) →
      exec (.decByte b) s =
        .next (s.setDec ({ s.dec with prev := b, esc := .normal }.returned p [⟨[ESC], .ok⟩] .more))) ∧
    (s.dec.esc = .escaped → b ≠ ESC_END → b ≠ ESC_ESC → s.dec.snk.write [b] = some (.ok, p) →
      exec (.decByte b) s = .next (s.setDec
        ({ s.dec with prev := b, esc := .normal, malformed := true }.returned p [⟨[b], .ok⟩] .more)))

/-- A failed emit of DEC_BYTE answers IO_ERROR, and the decode step's register writes stay (R128). -/
def Obligations.DecByteFailedEmitKeepsRegisters : Prop :=
  ∀ (s : State) (b x : Byte) (st : SnkStatus) (p : Sink), s.dec.task = none → s.dec.packetSrc = none →
    (decodeWire s.dec.esc [b]).data = [x] → s.dec.snk.write [x] = some (st, p) → st ≠ .ok →
    exec (.decByte b) s =
      .next (s.setDec ((s.dec.decoded (decodeWire s.dec.esc [b])).returned p [⟨[x], st⟩] .ioError))

/-- DEC_TRANSFER on a sink that accepts every emit. If the source yields `w` and its last byte is the `END` that ends
the packet, it answers END_OF_PACKET and reads no further; if the source yields `w` and then its end, the response is
INCOMPLETE_PACKET or START_BYTE_NOT_FOUND as R133 says. The bytes written and the registers are those of the scan and
the transition table over `w` (R129, R132). -/
def Obligations.DecTransferOutcomes : Prop :=
  ∀ (s : State) (w : List Byte) (d : Decoded) (q : Sink), s.dec.task = none → s.dec.packetSrc = none →
    transferWire s.dec.reqStart s.dec.esc w = d → s.dec.snk.accepts d.data = some q →
    (∀ init b log src a src', w = init ++ [b] → Reads s.dec.src init log src →
      src.read Config.readChunk = some (a, src') → fetchByte a = .byte b → d.ended = true → d.consumed = w →
      exec .decTransfer s = .next (s.setDec
        (((s.dec.decoded d).hasRead src' (log ++ [⟨Config.readChunk, a⟩])).returned q (wrote d.data)
          .endOfPacket))) ∧
    (∀ log src src', Reads s.dec.src w log src → src.read Config.readChunk = some (eofAnswer, src') →
      d.ended = false →
      exec .decTransfer s = .next (s.setDec
        (((s.dec.decoded d).hasRead src' (log ++ readEof)).returned q (wrote d.data)
          (transferCode s.dec.reqStart s.dec.esc w))))

/-- Each way DEC_TRANSFER answers IO_ERROR (R133, R161): a source answer is an error or breaks the contract, in the
scan or in the loop; or an emit fails, its byte consumed and its register writes kept (R128). -/
def Obligations.DecTransferIoErrors : Prop :=
  ∀ (s : State) (w : List Byte) (log : List SrcXact) (src src' : Source) (a : SrcAnswer),
    s.dec.task = none → s.dec.packetSrc = none → Reads s.dec.src w log src →
    src.read Config.readChunk = some (a, src') → (transferWire s.dec.reqStart s.dec.esc w).ended = false →
    (∀ q, fetchByte a = .ioFail →
      s.dec.snk.accepts (transferWire s.dec.reqStart s.dec.esc w).data = some q →
      exec .decTransfer s = .next (s.setDec
        (((s.dec.decoded (transferWire s.dec.reqStart s.dec.esc w)).hasRead src'
          (log ++ [⟨Config.readChunk, a⟩])).returned q
          (wrote (transferWire s.dec.reqStart s.dec.esc w).data) .ioError))) ∧
    (∀ b x st q, fetchByte a = .byte b →
      (transferWire s.dec.reqStart s.dec.esc (w ++ [b])).data =
        (transferWire s.dec.reqStart s.dec.esc w).data ++ [x] →
      s.dec.snk.FailsAt (transferWire s.dec.reqStart s.dec.esc w).data x st q →
      exec .decTransfer s = .next (s.setDec
        (((s.dec.decoded (transferWire s.dec.reqStart s.dec.esc (w ++ [b]))).hasRead src'
          (log ++ [⟨Config.readChunk, a⟩])).returned q
          (wroteThenFailed (transferWire s.dec.reqStart s.dec.esc w).data x st) .ioError)))

/-- DEC_PACKET(W), for every W: when the sink accepts the decoded bytes, it writes exactly them, one a write, leaves
the registers the scan and the transition table leave, answers as R133 says, reads W no further than the `END` that
ends the packet, and leaves the host's own `DEC.SRC` untouched (R134). -/
def Obligations.DecPacketDecodesBuffer : Prop :=
  ∀ (s : State) (w : List Byte) (d : Decoded) (q : Sink), s.dec.task = none → s.dec.packetSrc = none →
    transferWire s.dec.reqStart s.dec.esc w = d → s.dec.snk.accepts d.data = some q →
    exec (.decPacket w) s = .next (s.setDec
      (((s.dec.decoded d).hasRead s.dec.src (readEach d.consumed ++ if d.ended then [] else readEof)).returned q
        (wrote d.data) (transferCode s.dec.reqStart s.dec.esc w)))

/-- DEC_PACKET with a failed emit answers IO_ERROR; the byte whose emit failed is consumed and its register writes
stay, and no later byte of W is (R134, R190). -/
def Obligations.DecPacketFailedEmit : Prop :=
  ∀ (s : State) (w rest : List Byte) (b x : Byte) (st : SnkStatus) (q : Sink),
    s.dec.task = none → s.dec.packetSrc = none →
    (transferWire s.dec.reqStart s.dec.esc w).ended = false →
    (transferWire s.dec.reqStart s.dec.esc (w ++ [b])).data =
      (transferWire s.dec.reqStart s.dec.esc w).data ++ [x] →
    s.dec.snk.FailsAt (transferWire s.dec.reqStart s.dec.esc w).data x st q →
    exec (.decPacket (w ++ b :: rest)) s = .next (s.setDec
      (((s.dec.decoded (transferWire s.dec.reqStart s.dec.esc (w ++ [b]))).hasRead s.dec.src
        (readEach (w ++ [b]))).returned q
        (wroteThenFailed (transferWire s.dec.reqStart s.dec.esc w).data x st) .ioError))

/-- Round trip: on a decoder in NORMAL with the frame's policy, DEC_PACKET of `Frame(P, s)` writes exactly P, one byte
a write, consumes all of W, answers END_OF_PACKET, and leaves NORMAL and the flag unchanged (R139). -/
def Obligations.DecodingAFrameGivesThePayload : Prop :=
  ∀ (s : State) (p : List Byte) (q : Sink), s.dec.task = none → s.dec.packetSrc = none → s.dec.esc = .normal →
    s.dec.snk.accepts p = some q →
    exec (.decPacket (frame p s.dec.reqStart)) s = .next (s.setDec
      (({ s.dec with prev := END }.hasRead s.dec.src (readEach (frame p s.dec.reqStart))).returned q (wrote p)
        .endOfPacket))

/-- Re-encoding (R140): a DEC_PACKET that starts in NORMAL with the flag 0, answers END_OF_PACKET and leaves the flag 0
wrote some Q, and W is the discarded start (under the start-byte policy noise without an `END` and the start `END`),
then `STUFF(Q)` and `END`, then bytes that were not consumed. -/
def Obligations.ReencodingRestoresTheWire : Prop :=
  ∀ (s t : State) (w : List Byte), s.dec.esc = .normal → s.dec.malformed = false →
    exec (.decPacket w) s = .next t → t.dec.malformed = false →
    t.dec.responses = s.dec.responses ++ [.plain .endOfPacket] →
    ∃ start payload rest, t.dec.snkLog = s.dec.snkLog ++ wrote payload ∧
      w = start ++ payload.flatMap stuff ++ [END] ++ rest ∧
      t.dec.srcLog = s.dec.srcLog ++ readEach (start ++ payload.flatMap stuff ++ [END]) ∧
      (s.dec.reqStart = false → start = []) ∧
      (s.dec.reqStart = true → ∃ noise, start = noise ++ [END] ∧ END ∉ noise)

/-- Chunk-boundary independence (R138): under `REQ_START = 0`, a run of wire bytes with no `END` consumed in NORMAL but
possibly the last one gives the same writes, the same sink, the same registers and the same end of the packet whether it
comes as DEC_BYTE commands, as one DEC_TRANSFER, or as two DEC_TRANSFERs that split it anywhere. -/
def Obligations.ChunkBoundariesDoNotMatter : Prop :=
  ∀ (s : State) (xs ys : List Byte) (d : Decoded) (q : Sink), s.dec.task = none → s.dec.packetSrc = none →
    s.dec.reqStart = false → decodeWire s.dec.esc (xs ++ ys) = d → d.consumed = xs ++ ys → ys ≠ [] →
    s.dec.snk.accepts d.data = some q →
    ∃ t₁ t₂ t₃ t₄,
      execAll ((xs ++ ys).map .decByte) s = .next t₁ ∧
      exec .decTransfer (s.setDec { s.dec with src := .inMemory ⟨xs ++ ys, 0⟩ }) = .next t₂ ∧
      exec .decTransfer (s.setDec { s.dec with src := .inMemory ⟨xs, 0⟩ }) = .next t₃ ∧
      exec .decTransfer (t₃.setDec { t₃.dec with src := .inMemory ⟨ys, 0⟩ }) = .next t₄ ∧
      (∀ t ∈ [t₁, t₂, t₄], t.dec.snkLog = s.dec.snkLog ++ wrote d.data ∧ t.dec.snk = q ∧ t.dec.esc = d.esc ∧
        t.dec.malformed = (s.dec.malformed || d.malformed) ∧ t.dec.prev = prevAfter s.dec.prev (xs ++ ys) ∧
        t.dec.busy = false) ∧
      t₁.dec.responses = s.dec.responses ++ List.replicate ((xs ++ ys).length - 1) (.plain .more) ++
        [.plain (if d.ended then .endOfPacket else .more)] ∧
      t₂.dec.responses = s.dec.responses ++ [.plain (if d.ended then .endOfPacket else .incompletePacket)] ∧
      t₄.dec.responses = t₃.dec.responses ++ [.plain (if d.ended then .endOfPacket else .incompletePacket)]

/-- Termination on finite input (R141): DEC_PACKET over W issues at most `len(W) + 1` reads; with an in-memory sink it
always returns. -/
def Obligations.PacketDecodingTerminates : Prop :=
  ∀ (s t : State) (w : List Byte), exec (.decPacket w) s = .next t →
    (∃ log, t.dec.srcLog = s.dec.srcLog ++ log ∧ log.length ≤ w.length + 1) ∧
    (∀ m, s.dec.snk = .inMemory m → t.dec.busy = false)

/-- A decoder command writes at most one sink byte for each wire byte it consumes (R142): DEC_BYTE at most one, a
transfer or packet no more than the bytes its reads yielded. -/
def Obligations.EmitsAtMostWhatItConsumes : Prop :=
  ∀ (s t : State),
    (∀ b, exec (.decByte b) s = .next t → ∃ log, t.dec.snkLog = s.dec.snkLog ++ log ∧ log.length ≤ 1) ∧
    (∀ i, (i = .decTransfer ∨ ∃ w, i = .decPacket w) → exec i s = .next t →
      ∃ reads writes, t.dec.srcLog = s.dec.srcLog ++ reads ∧ t.dec.snkLog = s.dec.snkLog ++ writes ∧
        writes.length ≤ (consumedBytes reads).length)

/-- A DEC_TRANSFER or DEC_PACKET that answers START_BYTE_NOT_FOUND has written nothing, and it has not touched the escape
state or the flag (R129, R133, R162). -/
def Obligations.StartByteNotFoundWritesNothing : Prop :=
  ∀ (i : Instr) (s t : State), (i = .decTransfer ∨ ∃ w, i = .decPacket w) → exec i s = .next t →
    t.dec.responses = s.dec.responses ++ [.plain .startByteNotFound] →
    t.dec.snk = s.dec.snk ∧ t.dec.snkLog = s.dec.snkLog ∧ t.dec.esc = s.dec.esc ∧ t.dec.malformed = s.dec.malformed

/-- DEC_GET_MALFORMED answers OK with the flag as its VALUE, the word 0x0000 or 0x0001, and changes nothing (R135). -/
def Obligations.GetMalformedReturnsFlag : Prop :=
  (∀ w : Word, w &&& 0xFFFF = 0xC000 → decode w [] = .ok .decGetMalformed) ∧
  ∀ s : State, s.dec.task = none → s.dec.packetSrc = none →
    ∃ r, exec .decGetMalformed s = .next { s with dec := { s.dec with responses := s.dec.responses ++ [r] } } ∧
      r.word = if s.dec.malformed then 0x0001 else 0x0000

/-- DEC_CLEAR_MALFORMED clears the flag, answers OK and changes nothing else: a pending escape survives (R136). -/
def Obligations.ClearMalformedClearsFlag : Prop :=
  (∀ w : Word, w &&& 0xFFFF = 0xD000 → decode w [] = .ok .decClearMalformed) ∧
  ∀ s : State, s.dec.task = none → s.dec.packetSrc = none →
    exec .decClearMalformed s =
      .next { s with dec := { s.dec with malformed := false, responses := s.dec.responses ++ [⟨.ok, 0x00⟩] } }

/-- The flag is sticky (R137): a step that finds it 1 leaves it 1, unless it is power-on reset, DEC_INIT or
DEC_CLEAR_MALFORMED. -/
def Obligations.MalformedIsSticky : Prop :=
  ∀ s t : State, step s = .next t → s.dec.malformed = true → t.dec.malformed = false →
    ∃ x rest, s.inputs = x :: rest ∧
      (x = .powerOn ∨ ∃ w operand i, x = .command w operand ∧ decode w operand = .ok i ∧
        ((∃ v, i = .decInit v) ∨ i = .decClearMalformed))

/-- What a command of the decoder leaves unchanged (R57, R130 to R136): the encoder and what is to come, always;
`DEC.REQ_START` but for DEC_INIT; the host's source but for DEC_TRANSFER; the reads' record but for DEC_TRANSFER and
DEC_PACKET; the sink, its record and every register but the flag for the flag commands; the sink and its record for
DEC_INIT. -/
def Obligations.DecoderCommandFrame : Prop :=
  ∀ (i : Instr) (s t : State), unitOf i = .decoder → exec i s = .next t →
    t.enc = s.enc ∧ t.inputs = s.inputs ∧
    ((∀ v, i ≠ .decInit v) → t.dec.reqStart = s.dec.reqStart) ∧
    (i ≠ .decTransfer → t.dec.src = s.dec.src) ∧
    (i ≠ .decTransfer → (∀ w, i ≠ .decPacket w) → t.dec.srcLog = s.dec.srcLog) ∧
    ((∃ v, i = .decInit v) ∨ i = .decGetMalformed ∨ i = .decClearMalformed →
      t.dec.snk = s.dec.snk ∧ t.dec.snkLog = s.dec.snkLog) ∧
    (i = .decGetMalformed ∨ i = .decClearMalformed → t.dec.prev = s.dec.prev ∧ t.dec.esc = s.dec.esc) ∧
    (i = .decGetMalformed → t.dec.malformed = s.dec.malformed)

/-! ## The whole machine -/

/-- The invariant holds at reset. -/
def Obligations.ResetMeetsInvariant : Prop := State.reset.Inv

/-- Every step keeps the invariant: a busy unit waits at a transaction that is unanswered (R14, R43), every cursor is
within its buffer, that of DEC_PACKET's own source included (R50, R51, R62), that source lives no longer than the
command (R29, R62), the scan runs only under the start-byte policy (R24), and without that policy ESCAPED means that
the last wire byte was an `ESC` (R26). -/
def Obligations.StepKeepsInvariant : Prop := ∀ s t : State, s.Inv → step s = .next t → t.Inv

/-- The responses each command can return, and no others (R80). -/
def Obligations.PermittedResponses : Prop :=
  ∀ (i : Instr) (s t : State), exec i s = .next t →
    (∀ r, t.enc.responses = s.enc.responses ++ [r] →
      ((∃ v, i = .encInit v) → r = ⟨.ok, 0⟩) ∧ (unitOf i = .encoder → r = ⟨.ok, 0⟩ ∨ r = ⟨.ioError, 0⟩)) ∧
    (∀ r, t.dec.responses = s.dec.responses ++ [r] →
      ((∃ v, i = .decInit v) ∨ i = .decClearMalformed → r = ⟨.ok, 0⟩) ∧
      (i = .decGetMalformed → r = ⟨.ok, 0⟩ ∨ r = ⟨.ok, 1⟩) ∧
      ((∃ b, i = .decByte b) → r = ⟨.more, 0⟩ ∨ r = ⟨.endOfPacket, 0⟩ ∨ r = ⟨.ioError, 0⟩) ∧
      (i = .decTransfer ∨ (∃ w, i = .decPacket w) →
        r = ⟨.endOfPacket, 0⟩ ∨ r = ⟨.incompletePacket, 0⟩ ∨ r = ⟨.startByteNotFound, 0⟩ ∨ r = ⟨.ioError, 0⟩))

/-- Exactly one response follows when a command returns, and none before (R14): a unit that is idle after its command
gave one response, a unit still busy gave none, and the other unit gave none. -/
def Obligations.OneResponsePerCommand : Prop :=
  ∀ (i : Instr) (s t : State), exec i s = .next t →
    (unitOf i = .encoder →
      t.dec.responses = s.dec.responses ∧
      (t.enc.busy = false → ∃ r, t.enc.responses = s.enc.responses ++ [r]) ∧
      (t.enc.busy = true → t.enc.responses = s.enc.responses)) ∧
    (unitOf i = .decoder →
      t.enc.responses = s.enc.responses ∧
      (t.dec.busy = false → ∃ r, t.dec.responses = s.dec.responses ++ [r]) ∧
      (t.dec.busy = true → t.dec.responses = s.dec.responses))

/-- The response word: `CODE` above `VALUE`, with the numbers of R79. -/
def Obligations.ResponseWordLayout : Prop :=
  (∀ r : Response, r.word.extractLsb' 8 8 = r.code.toByte ∧ r.word.extractLsb' 0 8 = r.value) ∧
  (Response.plain .ok).word = 0x0000 ∧ (Response.plain .more).word = 0x0100 ∧
  (Response.plain .endOfPacket).word = 0x0200 ∧ (Response.plain .incompletePacket).word = 0x0300 ∧
  (Response.plain .startByteNotFound).word = 0x0400 ∧ (Response.plain .ioError).word = 0x0500

/-- Whatever a step does, no transaction of a port follows one of the same port that failed (R48, R165, R168): of the
writes a unit adds, all but the last are answered `Ok`, and of the reads, all but the last yield a byte or are short. If
the last write or the last read failed, the unit answered IO_ERROR and is idle. What a failing answer leaves on the
other port is for AnswerCompletesTheWaitingTransaction and the statements about each command's IO_ERROR. -/
def Obligations.FailedTransactionEndsTheCommand : Prop :=
  ∀ s t : State, step s = .next t →
    (∃ reads writes, t.enc.srcLog = s.enc.srcLog ++ reads ∧ t.enc.snkLog = s.enc.snkLog ++ writes ∧
      (∀ x ∈ writes.dropLast, x.status = .ok) ∧
      (∀ x ∈ reads.dropLast, fetchByte x.answer = .again ∨ ∃ b, fetchByte x.answer = .byte b) ∧
      ((∃ x, writes.getLast? = some x ∧ x.status ≠ .ok) ∨ (∃ x, reads.getLast? = some x ∧ fetchByte x.answer = .ioFail) →
        t.enc.responses = s.enc.responses ++ [.plain .ioError] ∧ t.enc.busy = false)) ∧
    (∃ reads writes, t.dec.srcLog = s.dec.srcLog ++ reads ∧ t.dec.snkLog = s.dec.snkLog ++ writes ∧
      (∀ x ∈ writes.dropLast, x.status = .ok) ∧
      (∀ x ∈ reads.dropLast, fetchByte x.answer = .again ∨ ∃ b, fetchByte x.answer = .byte b) ∧
      ((∃ x, writes.getLast? = some x ∧ x.status ≠ .ok) ∨ (∃ x, reads.getLast? = some x ∧ fetchByte x.answer = .ioFail) →
        t.dec.responses = s.dec.responses ++ [.plain .ioError] ∧ t.dec.busy = false))

/-- The policies are written by INIT alone (R23, R24): a step that changes `ENC.USE_START` is power-on reset or
ENC_INIT, and one that changes `DEC.REQ_START` is power-on reset or DEC_INIT. -/
def Obligations.PoliciesAreWrittenByInitOnly : Prop :=
  ∀ s t : State, step s = .next t →
    (t.enc.useStart ≠ s.enc.useStart →
      ∃ x rest, s.inputs = x :: rest ∧
        (x = .powerOn ∨ ∃ w operand v, x = .command w operand ∧ decode w operand = .ok (.encInit v))) ∧
    (t.dec.reqStart ≠ s.dec.reqStart →
      ∃ x rest, s.inputs = x :: rest ∧
        (x = .powerOn ∨ ∃ w operand v, x = .command w operand ∧ decode w operand = .ok (.decInit v)))

/-- The units share nothing (R57): a command of the encoder and one of the decoder give the same state in either
order. -/
def Obligations.UnitsCommute : Prop :=
  ∀ (i j : Instr) (s t u : State), unitOf i = .encoder → unitOf j = .decoder →
    exec i s = .next t → exec j s = .next u → ∃ v, exec j t = .next v ∧ exec i u = .next v
end

