-- ==== Sys2Proof/Laws/Decode.lean ====
section
/-! SUPPORT. The fields of an assembled word, and the check on a packet operand's length. -/

namespace Sys2Proof

@[simp] theorem opField_assemble (op : BitVec 4) (s : Bool) (d : Byte) : opField (assemble op s d) = op := by
  unfold opField assemble
  ext i hi
  simp
  grind

@[simp] theorem rsvField_assemble (op : BitVec 4) (s : Bool) (d : Byte) : rsvField (assemble op s d) = 0 := by
  unfold rsvField assemble
  ext i hi
  simp
  grind

@[simp] theorem sField_assemble (op : BitVec 4) (s : Bool) (d : Byte) : sField (assemble op s d) = s := by
  unfold sField assemble
  rw [BitVec.getLsbD_append, BitVec.getLsbD_append]
  simp

@[simp] theorem dField_assemble (op : BitVec 4) (s : Bool) (d : Byte) : dField (assemble op s d) = d := by
  unfold dField assemble
  ext i hi
  simp
  grind

/-- A word whose reserved field is 0 is assembled from its fields (R70). -/
theorem assemble_fields {w : Word} (h : rsvField w = 0) : assemble (opField w) (sField w) (dField w) = w := by
  unfold assemble opField sField dField
  rw [← h]
  unfold rsvField
  ext i hi
  simp only [BitVec.getElem_append, BitVec.getElem_extractLsb', BitVec.getElem_ofBool]
  grind

/-- `fits` is the bound on the operand's length (R76). -/
theorem fits_iff (bs : List Byte) (n : Nat) : fits bs n = true ↔ bs.length ≤ n := by
  induction bs generalizing n with
  | nil => simp [fits]
  | cons b bs ih =>
    cases n with
    | zero => simp [fits]
    | succ n => simp [fits, ih]

/-! ## The fields of a word that a row's mask and match select (R75) -/

theorem opField_and {w m : Word} (h : opField m = 0xF) : opField (w &&& m) = opField w := by
  unfold opField at *
  rw [← BitVec.and_allOnes (x := BitVec.extractLsb' 12 4 w)]
  have : BitVec.extractLsb' 12 4 (w &&& m) = BitVec.extractLsb' 12 4 w &&& BitVec.extractLsb' 12 4 m := by
    ext i hi
    simp
  rw [this, h]
  rfl

theorem rsvField_and {w m : Word} (h : rsvField m = 0x7) : rsvField (w &&& m) = rsvField w := by
  unfold rsvField at *
  rw [← BitVec.and_allOnes (x := BitVec.extractLsb' 9 3 w)]
  have : BitVec.extractLsb' 9 3 (w &&& m) = BitVec.extractLsb' 9 3 w &&& BitVec.extractLsb' 9 3 m := by
    ext i hi
    simp
  rw [this, h]
  rfl

theorem dField_and {w m : Word} (h : dField m = 0xFF) : dField (w &&& m) = dField w := by
  unfold dField at *
  rw [← BitVec.and_allOnes (x := BitVec.extractLsb' 0 8 w)]
  have : BitVec.extractLsb' 0 8 (w &&& m) = BitVec.extractLsb' 0 8 w &&& BitVec.extractLsb' 0 8 m := by
    ext i hi
    simp
  rw [this, h]
  rfl

theorem sField_and {w m : Word} (h : sField m = true) : sField (w &&& m) = sField w := by
  unfold sField at *
  rw [BitVec.getLsbD_and, h, Bool.and_true]

/-- A word of a row with `S`: every other field is the row's. -/
theorem fields_of_sRow {w v : Word} (h : w &&& 0xFEFF = v) :
    opField w = opField v ∧ rsvField w = rsvField v ∧ dField w = dField v := by
  subst h
  exact ⟨(opField_and (by decide)).symm, (rsvField_and (by decide)).symm, (dField_and (by decide)).symm⟩

/-- A word of a row with `D`: every other field is the row's. -/
theorem fields_of_dRow {w v : Word} (h : w &&& 0xFF00 = v) :
    opField w = opField v ∧ rsvField w = rsvField v ∧ sField w = sField v := by
  subst h
  exact ⟨(opField_and (by decide)).symm, (rsvField_and (by decide)).symm, (sField_and (by decide)).symm⟩

end Sys2Proof
end

