-- ==== Sys2Proof/Laws/State.lean ====
section
/-! SUPPORT. One lemma per field of State for each named update of it, so that no proof unfolds a record update. -/

namespace Sys2Proof.Machine

/-! ## The encoder unit -/

@[simp] theorem EncUnit.setUseStart_useStart (u : EncUnit) (v : Bool) : (u.setUseStart v).useStart = v := rfl
@[simp] theorem EncUnit.setUseStart_task (u : EncUnit) (v : Bool) : (u.setUseStart v).task = u.task := rfl
@[simp] theorem EncUnit.setUseStart_src (u : EncUnit) (v : Bool) : (u.setUseStart v).src = u.src := rfl
@[simp] theorem EncUnit.setUseStart_snk (u : EncUnit) (v : Bool) : (u.setUseStart v).snk = u.snk := rfl
@[simp] theorem EncUnit.setUseStart_srcLog (u : EncUnit) (v : Bool) : (u.setUseStart v).srcLog = u.srcLog := rfl
@[simp] theorem EncUnit.setUseStart_snkLog (u : EncUnit) (v : Bool) : (u.setUseStart v).snkLog = u.snkLog := rfl
@[simp] theorem EncUnit.setUseStart_responses (u : EncUnit) (v : Bool) : (u.setUseStart v).responses = u.responses := rfl

@[simp] theorem EncUnit.afterRead_useStart (u : EncUnit) (p : Source) (a : SrcAnswer) : (u.afterRead p a).useStart = u.useStart := rfl
@[simp] theorem EncUnit.afterRead_task (u : EncUnit) (p : Source) (a : SrcAnswer) : (u.afterRead p a).task = u.task := rfl
@[simp] theorem EncUnit.afterRead_src (u : EncUnit) (p : Source) (a : SrcAnswer) : (u.afterRead p a).src = p := rfl
@[simp] theorem EncUnit.afterRead_snk (u : EncUnit) (p : Source) (a : SrcAnswer) : (u.afterRead p a).snk = u.snk := rfl
@[simp] theorem EncUnit.afterRead_srcLog (u : EncUnit) (p : Source) (a : SrcAnswer) : (u.afterRead p a).srcLog = u.srcLog ++ [⟨Config.readChunk, a⟩] := rfl
@[simp] theorem EncUnit.afterRead_snkLog (u : EncUnit) (p : Source) (a : SrcAnswer) : (u.afterRead p a).snkLog = u.snkLog := rfl
@[simp] theorem EncUnit.afterRead_responses (u : EncUnit) (p : Source) (a : SrcAnswer) : (u.afterRead p a).responses = u.responses := rfl

@[simp] theorem EncUnit.afterWrite_useStart (u : EncUnit) (p : Sink) (b : Byte) (st : SnkStatus) : (u.afterWrite p b st).useStart = u.useStart := rfl
@[simp] theorem EncUnit.afterWrite_task (u : EncUnit) (p : Sink) (b : Byte) (st : SnkStatus) : (u.afterWrite p b st).task = u.task := rfl
@[simp] theorem EncUnit.afterWrite_src (u : EncUnit) (p : Sink) (b : Byte) (st : SnkStatus) : (u.afterWrite p b st).src = u.src := rfl
@[simp] theorem EncUnit.afterWrite_snk (u : EncUnit) (p : Sink) (b : Byte) (st : SnkStatus) : (u.afterWrite p b st).snk = p := rfl
@[simp] theorem EncUnit.afterWrite_srcLog (u : EncUnit) (p : Sink) (b : Byte) (st : SnkStatus) : (u.afterWrite p b st).srcLog = u.srcLog := rfl
@[simp] theorem EncUnit.afterWrite_snkLog (u : EncUnit) (p : Sink) (b : Byte) (st : SnkStatus) : (u.afterWrite p b st).snkLog = u.snkLog ++ [⟨[b], st⟩] := rfl
@[simp] theorem EncUnit.afterWrite_responses (u : EncUnit) (p : Sink) (b : Byte) (st : SnkStatus) : (u.afterWrite p b st).responses = u.responses := rfl

@[simp] theorem EncUnit.idle_useStart (u : EncUnit) : (u.idle).useStart = u.useStart := rfl
@[simp] theorem EncUnit.idle_task (u : EncUnit) : (u.idle).task = none := rfl
@[simp] theorem EncUnit.idle_src (u : EncUnit) : (u.idle).src = u.src := rfl
@[simp] theorem EncUnit.idle_snk (u : EncUnit) : (u.idle).snk = u.snk := rfl
@[simp] theorem EncUnit.idle_srcLog (u : EncUnit) : (u.idle).srcLog = u.srcLog := rfl
@[simp] theorem EncUnit.idle_snkLog (u : EncUnit) : (u.idle).snkLog = u.snkLog := rfl
@[simp] theorem EncUnit.idle_responses (u : EncUnit) : (u.idle).responses = u.responses := rfl

@[simp] theorem EncUnit.waitAt_useStart (u : EncUnit) (t : EncTask) : (u.waitAt t).useStart = u.useStart := rfl
@[simp] theorem EncUnit.waitAt_task (u : EncUnit) (t : EncTask) : (u.waitAt t).task = some t := rfl
@[simp] theorem EncUnit.waitAt_src (u : EncUnit) (t : EncTask) : (u.waitAt t).src = u.src := rfl
@[simp] theorem EncUnit.waitAt_snk (u : EncUnit) (t : EncTask) : (u.waitAt t).snk = u.snk := rfl
@[simp] theorem EncUnit.waitAt_srcLog (u : EncUnit) (t : EncTask) : (u.waitAt t).srcLog = u.srcLog := rfl
@[simp] theorem EncUnit.waitAt_snkLog (u : EncUnit) (t : EncTask) : (u.waitAt t).snkLog = u.snkLog := rfl
@[simp] theorem EncUnit.waitAt_responses (u : EncUnit) (t : EncTask) : (u.waitAt t).responses = u.responses := rfl

@[simp] theorem EncUnit.respond_useStart (u : EncUnit) (r : Response) : (u.respond r).useStart = u.useStart := rfl
@[simp] theorem EncUnit.respond_task (u : EncUnit) (r : Response) : (u.respond r).task = u.task := rfl
@[simp] theorem EncUnit.respond_src (u : EncUnit) (r : Response) : (u.respond r).src = u.src := rfl
@[simp] theorem EncUnit.respond_snk (u : EncUnit) (r : Response) : (u.respond r).snk = u.snk := rfl
@[simp] theorem EncUnit.respond_srcLog (u : EncUnit) (r : Response) : (u.respond r).srcLog = u.srcLog := rfl
@[simp] theorem EncUnit.respond_snkLog (u : EncUnit) (r : Response) : (u.respond r).snkLog = u.snkLog := rfl
@[simp] theorem EncUnit.respond_responses (u : EncUnit) (r : Response) : (u.respond r).responses = u.responses ++ [r] := rfl

@[simp] theorem EncUnit.endCommand_useStart (u : EncUnit) (r : Response) : (u.endCommand r).useStart = u.useStart := rfl
@[simp] theorem EncUnit.endCommand_task (u : EncUnit) (r : Response) : (u.endCommand r).task = none := rfl
@[simp] theorem EncUnit.endCommand_src (u : EncUnit) (r : Response) : (u.endCommand r).src = u.src := rfl
@[simp] theorem EncUnit.endCommand_snk (u : EncUnit) (r : Response) : (u.endCommand r).snk = u.snk := rfl
@[simp] theorem EncUnit.endCommand_srcLog (u : EncUnit) (r : Response) : (u.endCommand r).srcLog = u.srcLog := rfl
@[simp] theorem EncUnit.endCommand_snkLog (u : EncUnit) (r : Response) : (u.endCommand r).snkLog = u.snkLog := rfl
@[simp] theorem EncUnit.endCommand_responses (u : EncUnit) (r : Response) : (u.endCommand r).responses = u.responses ++ [r] := rfl

@[simp] theorem EncUnit.setSrc_useStart (u : EncUnit) (p : Source) : (u.setSrc p).useStart = u.useStart := rfl
@[simp] theorem EncUnit.setSrc_task (u : EncUnit) (p : Source) : (u.setSrc p).task = u.task := rfl
@[simp] theorem EncUnit.setSrc_src (u : EncUnit) (p : Source) : (u.setSrc p).src = p := rfl
@[simp] theorem EncUnit.setSrc_snk (u : EncUnit) (p : Source) : (u.setSrc p).snk = u.snk := rfl
@[simp] theorem EncUnit.setSrc_srcLog (u : EncUnit) (p : Source) : (u.setSrc p).srcLog = u.srcLog := rfl
@[simp] theorem EncUnit.setSrc_snkLog (u : EncUnit) (p : Source) : (u.setSrc p).snkLog = u.snkLog := rfl
@[simp] theorem EncUnit.setSrc_responses (u : EncUnit) (p : Source) : (u.setSrc p).responses = u.responses := rfl

@[simp] theorem EncUnit.setSnk_useStart (u : EncUnit) (p : Sink) : (u.setSnk p).useStart = u.useStart := rfl
@[simp] theorem EncUnit.setSnk_task (u : EncUnit) (p : Sink) : (u.setSnk p).task = u.task := rfl
@[simp] theorem EncUnit.setSnk_src (u : EncUnit) (p : Sink) : (u.setSnk p).src = u.src := rfl
@[simp] theorem EncUnit.setSnk_snk (u : EncUnit) (p : Sink) : (u.setSnk p).snk = p := rfl
@[simp] theorem EncUnit.setSnk_srcLog (u : EncUnit) (p : Sink) : (u.setSnk p).srcLog = u.srcLog := rfl
@[simp] theorem EncUnit.setSnk_snkLog (u : EncUnit) (p : Sink) : (u.setSnk p).snkLog = u.snkLog := rfl
@[simp] theorem EncUnit.setSnk_responses (u : EncUnit) (p : Sink) : (u.setSnk p).responses = u.responses := rfl

/-! ## The decoder unit -/

@[simp] theorem DecUnit.setReqStart_reqStart (u : DecUnit) (v : Bool) : (u.setReqStart v).reqStart = v := rfl
@[simp] theorem DecUnit.setReqStart_prev (u : DecUnit) (v : Bool) : (u.setReqStart v).prev = u.prev := rfl
@[simp] theorem DecUnit.setReqStart_esc (u : DecUnit) (v : Bool) : (u.setReqStart v).esc = u.esc := rfl
@[simp] theorem DecUnit.setReqStart_malformed (u : DecUnit) (v : Bool) : (u.setReqStart v).malformed = u.malformed := rfl
@[simp] theorem DecUnit.setReqStart_task (u : DecUnit) (v : Bool) : (u.setReqStart v).task = u.task := rfl
@[simp] theorem DecUnit.setReqStart_packetSrc (u : DecUnit) (v : Bool) : (u.setReqStart v).packetSrc = u.packetSrc := rfl
@[simp] theorem DecUnit.setReqStart_src (u : DecUnit) (v : Bool) : (u.setReqStart v).src = u.src := rfl
@[simp] theorem DecUnit.setReqStart_snk (u : DecUnit) (v : Bool) : (u.setReqStart v).snk = u.snk := rfl
@[simp] theorem DecUnit.setReqStart_srcLog (u : DecUnit) (v : Bool) : (u.setReqStart v).srcLog = u.srcLog := rfl
@[simp] theorem DecUnit.setReqStart_snkLog (u : DecUnit) (v : Bool) : (u.setReqStart v).snkLog = u.snkLog := rfl
@[simp] theorem DecUnit.setReqStart_responses (u : DecUnit) (v : Bool) : (u.setReqStart v).responses = u.responses := rfl

@[simp] theorem DecUnit.setPrev_reqStart (u : DecUnit) (b : Byte) : (u.setPrev b).reqStart = u.reqStart := rfl
@[simp] theorem DecUnit.setPrev_prev (u : DecUnit) (b : Byte) : (u.setPrev b).prev = b := rfl
@[simp] theorem DecUnit.setPrev_esc (u : DecUnit) (b : Byte) : (u.setPrev b).esc = u.esc := rfl
@[simp] theorem DecUnit.setPrev_malformed (u : DecUnit) (b : Byte) : (u.setPrev b).malformed = u.malformed := rfl
@[simp] theorem DecUnit.setPrev_task (u : DecUnit) (b : Byte) : (u.setPrev b).task = u.task := rfl
@[simp] theorem DecUnit.setPrev_packetSrc (u : DecUnit) (b : Byte) : (u.setPrev b).packetSrc = u.packetSrc := rfl
@[simp] theorem DecUnit.setPrev_src (u : DecUnit) (b : Byte) : (u.setPrev b).src = u.src := rfl
@[simp] theorem DecUnit.setPrev_snk (u : DecUnit) (b : Byte) : (u.setPrev b).snk = u.snk := rfl
@[simp] theorem DecUnit.setPrev_srcLog (u : DecUnit) (b : Byte) : (u.setPrev b).srcLog = u.srcLog := rfl
@[simp] theorem DecUnit.setPrev_snkLog (u : DecUnit) (b : Byte) : (u.setPrev b).snkLog = u.snkLog := rfl
@[simp] theorem DecUnit.setPrev_responses (u : DecUnit) (b : Byte) : (u.setPrev b).responses = u.responses := rfl

@[simp] theorem DecUnit.setEsc_reqStart (u : DecUnit) (e : EscState) : (u.setEsc e).reqStart = u.reqStart := rfl
@[simp] theorem DecUnit.setEsc_prev (u : DecUnit) (e : EscState) : (u.setEsc e).prev = u.prev := rfl
@[simp] theorem DecUnit.setEsc_esc (u : DecUnit) (e : EscState) : (u.setEsc e).esc = e := rfl
@[simp] theorem DecUnit.setEsc_malformed (u : DecUnit) (e : EscState) : (u.setEsc e).malformed = u.malformed := rfl
@[simp] theorem DecUnit.setEsc_task (u : DecUnit) (e : EscState) : (u.setEsc e).task = u.task := rfl
@[simp] theorem DecUnit.setEsc_packetSrc (u : DecUnit) (e : EscState) : (u.setEsc e).packetSrc = u.packetSrc := rfl
@[simp] theorem DecUnit.setEsc_src (u : DecUnit) (e : EscState) : (u.setEsc e).src = u.src := rfl
@[simp] theorem DecUnit.setEsc_snk (u : DecUnit) (e : EscState) : (u.setEsc e).snk = u.snk := rfl
@[simp] theorem DecUnit.setEsc_srcLog (u : DecUnit) (e : EscState) : (u.setEsc e).srcLog = u.srcLog := rfl
@[simp] theorem DecUnit.setEsc_snkLog (u : DecUnit) (e : EscState) : (u.setEsc e).snkLog = u.snkLog := rfl
@[simp] theorem DecUnit.setEsc_responses (u : DecUnit) (e : EscState) : (u.setEsc e).responses = u.responses := rfl

@[simp] theorem DecUnit.setMalformed_reqStart (u : DecUnit) (v : Bool) : (u.setMalformed v).reqStart = u.reqStart := rfl
@[simp] theorem DecUnit.setMalformed_prev (u : DecUnit) (v : Bool) : (u.setMalformed v).prev = u.prev := rfl
@[simp] theorem DecUnit.setMalformed_esc (u : DecUnit) (v : Bool) : (u.setMalformed v).esc = u.esc := rfl
@[simp] theorem DecUnit.setMalformed_malformed (u : DecUnit) (v : Bool) : (u.setMalformed v).malformed = v := rfl
@[simp] theorem DecUnit.setMalformed_task (u : DecUnit) (v : Bool) : (u.setMalformed v).task = u.task := rfl
@[simp] theorem DecUnit.setMalformed_packetSrc (u : DecUnit) (v : Bool) : (u.setMalformed v).packetSrc = u.packetSrc := rfl
@[simp] theorem DecUnit.setMalformed_src (u : DecUnit) (v : Bool) : (u.setMalformed v).src = u.src := rfl
@[simp] theorem DecUnit.setMalformed_snk (u : DecUnit) (v : Bool) : (u.setMalformed v).snk = u.snk := rfl
@[simp] theorem DecUnit.setMalformed_srcLog (u : DecUnit) (v : Bool) : (u.setMalformed v).srcLog = u.srcLog := rfl
@[simp] theorem DecUnit.setMalformed_snkLog (u : DecUnit) (v : Bool) : (u.setMalformed v).snkLog = u.snkLog := rfl
@[simp] theorem DecUnit.setMalformed_responses (u : DecUnit) (v : Bool) : (u.setMalformed v).responses = u.responses := rfl

@[simp] theorem DecUnit.construct_reqStart (u : DecUnit) (v : Bool) : (u.construct v).reqStart = v := rfl
@[simp] theorem DecUnit.construct_prev (u : DecUnit) (v : Bool) : (u.construct v).prev = 0x00 := rfl
@[simp] theorem DecUnit.construct_esc (u : DecUnit) (v : Bool) : (u.construct v).esc = .normal := rfl
@[simp] theorem DecUnit.construct_malformed (u : DecUnit) (v : Bool) : (u.construct v).malformed = false := rfl
@[simp] theorem DecUnit.construct_task (u : DecUnit) (v : Bool) : (u.construct v).task = u.task := rfl
@[simp] theorem DecUnit.construct_packetSrc (u : DecUnit) (v : Bool) : (u.construct v).packetSrc = u.packetSrc := rfl
@[simp] theorem DecUnit.construct_src (u : DecUnit) (v : Bool) : (u.construct v).src = u.src := rfl
@[simp] theorem DecUnit.construct_snk (u : DecUnit) (v : Bool) : (u.construct v).snk = u.snk := rfl
@[simp] theorem DecUnit.construct_srcLog (u : DecUnit) (v : Bool) : (u.construct v).srcLog = u.srcLog := rfl
@[simp] theorem DecUnit.construct_snkLog (u : DecUnit) (v : Bool) : (u.construct v).snkLog = u.snkLog := rfl
@[simp] theorem DecUnit.construct_responses (u : DecUnit) (v : Bool) : (u.construct v).responses = u.responses := rfl

@[simp] theorem DecUnit.logRead_reqStart (u : DecUnit) (a : SrcAnswer) : (u.logRead a).reqStart = u.reqStart := rfl
@[simp] theorem DecUnit.logRead_prev (u : DecUnit) (a : SrcAnswer) : (u.logRead a).prev = u.prev := rfl
@[simp] theorem DecUnit.logRead_esc (u : DecUnit) (a : SrcAnswer) : (u.logRead a).esc = u.esc := rfl
@[simp] theorem DecUnit.logRead_malformed (u : DecUnit) (a : SrcAnswer) : (u.logRead a).malformed = u.malformed := rfl
@[simp] theorem DecUnit.logRead_task (u : DecUnit) (a : SrcAnswer) : (u.logRead a).task = u.task := rfl
@[simp] theorem DecUnit.logRead_packetSrc (u : DecUnit) (a : SrcAnswer) : (u.logRead a).packetSrc = u.packetSrc := rfl
@[simp] theorem DecUnit.logRead_src (u : DecUnit) (a : SrcAnswer) : (u.logRead a).src = u.src := rfl
@[simp] theorem DecUnit.logRead_snk (u : DecUnit) (a : SrcAnswer) : (u.logRead a).snk = u.snk := rfl
@[simp] theorem DecUnit.logRead_srcLog (u : DecUnit) (a : SrcAnswer) : (u.logRead a).srcLog = u.srcLog ++ [⟨Config.readChunk, a⟩] := rfl
@[simp] theorem DecUnit.logRead_snkLog (u : DecUnit) (a : SrcAnswer) : (u.logRead a).snkLog = u.snkLog := rfl
@[simp] theorem DecUnit.logRead_responses (u : DecUnit) (a : SrcAnswer) : (u.logRead a).responses = u.responses := rfl

@[simp] theorem DecUnit.afterWrite_reqStart (u : DecUnit) (p : Sink) (b : Byte) (st : SnkStatus) : (u.afterWrite p b st).reqStart = u.reqStart := rfl
@[simp] theorem DecUnit.afterWrite_prev (u : DecUnit) (p : Sink) (b : Byte) (st : SnkStatus) : (u.afterWrite p b st).prev = u.prev := rfl
@[simp] theorem DecUnit.afterWrite_esc (u : DecUnit) (p : Sink) (b : Byte) (st : SnkStatus) : (u.afterWrite p b st).esc = u.esc := rfl
@[simp] theorem DecUnit.afterWrite_malformed (u : DecUnit) (p : Sink) (b : Byte) (st : SnkStatus) : (u.afterWrite p b st).malformed = u.malformed := rfl
@[simp] theorem DecUnit.afterWrite_task (u : DecUnit) (p : Sink) (b : Byte) (st : SnkStatus) : (u.afterWrite p b st).task = u.task := rfl
@[simp] theorem DecUnit.afterWrite_packetSrc (u : DecUnit) (p : Sink) (b : Byte) (st : SnkStatus) : (u.afterWrite p b st).packetSrc = u.packetSrc := rfl
@[simp] theorem DecUnit.afterWrite_src (u : DecUnit) (p : Sink) (b : Byte) (st : SnkStatus) : (u.afterWrite p b st).src = u.src := rfl
@[simp] theorem DecUnit.afterWrite_snk (u : DecUnit) (p : Sink) (b : Byte) (st : SnkStatus) : (u.afterWrite p b st).snk = p := rfl
@[simp] theorem DecUnit.afterWrite_srcLog (u : DecUnit) (p : Sink) (b : Byte) (st : SnkStatus) : (u.afterWrite p b st).srcLog = u.srcLog := rfl
@[simp] theorem DecUnit.afterWrite_snkLog (u : DecUnit) (p : Sink) (b : Byte) (st : SnkStatus) : (u.afterWrite p b st).snkLog = u.snkLog ++ [⟨[b], st⟩] := rfl
@[simp] theorem DecUnit.afterWrite_responses (u : DecUnit) (p : Sink) (b : Byte) (st : SnkStatus) : (u.afterWrite p b st).responses = u.responses := rfl

@[simp] theorem DecUnit.idle_reqStart (u : DecUnit) : (u.idle).reqStart = u.reqStart := rfl
@[simp] theorem DecUnit.idle_prev (u : DecUnit) : (u.idle).prev = u.prev := rfl
@[simp] theorem DecUnit.idle_esc (u : DecUnit) : (u.idle).esc = u.esc := rfl
@[simp] theorem DecUnit.idle_malformed (u : DecUnit) : (u.idle).malformed = u.malformed := rfl
@[simp] theorem DecUnit.idle_task (u : DecUnit) : (u.idle).task = none := rfl
@[simp] theorem DecUnit.idle_packetSrc (u : DecUnit) : (u.idle).packetSrc = none := rfl
@[simp] theorem DecUnit.idle_src (u : DecUnit) : (u.idle).src = u.src := rfl
@[simp] theorem DecUnit.idle_snk (u : DecUnit) : (u.idle).snk = u.snk := rfl
@[simp] theorem DecUnit.idle_srcLog (u : DecUnit) : (u.idle).srcLog = u.srcLog := rfl
@[simp] theorem DecUnit.idle_snkLog (u : DecUnit) : (u.idle).snkLog = u.snkLog := rfl
@[simp] theorem DecUnit.idle_responses (u : DecUnit) : (u.idle).responses = u.responses := rfl

@[simp] theorem DecUnit.waitAt_reqStart (u : DecUnit) (t : DecTask) : (u.waitAt t).reqStart = u.reqStart := rfl
@[simp] theorem DecUnit.waitAt_prev (u : DecUnit) (t : DecTask) : (u.waitAt t).prev = u.prev := rfl
@[simp] theorem DecUnit.waitAt_esc (u : DecUnit) (t : DecTask) : (u.waitAt t).esc = u.esc := rfl
@[simp] theorem DecUnit.waitAt_malformed (u : DecUnit) (t : DecTask) : (u.waitAt t).malformed = u.malformed := rfl
@[simp] theorem DecUnit.waitAt_task (u : DecUnit) (t : DecTask) : (u.waitAt t).task = some t := rfl
@[simp] theorem DecUnit.waitAt_packetSrc (u : DecUnit) (t : DecTask) : (u.waitAt t).packetSrc = u.packetSrc := rfl
@[simp] theorem DecUnit.waitAt_src (u : DecUnit) (t : DecTask) : (u.waitAt t).src = u.src := rfl
@[simp] theorem DecUnit.waitAt_snk (u : DecUnit) (t : DecTask) : (u.waitAt t).snk = u.snk := rfl
@[simp] theorem DecUnit.waitAt_srcLog (u : DecUnit) (t : DecTask) : (u.waitAt t).srcLog = u.srcLog := rfl
@[simp] theorem DecUnit.waitAt_snkLog (u : DecUnit) (t : DecTask) : (u.waitAt t).snkLog = u.snkLog := rfl
@[simp] theorem DecUnit.waitAt_responses (u : DecUnit) (t : DecTask) : (u.waitAt t).responses = u.responses := rfl

@[simp] theorem DecUnit.respond_reqStart (u : DecUnit) (r : Response) : (u.respond r).reqStart = u.reqStart := rfl
@[simp] theorem DecUnit.respond_prev (u : DecUnit) (r : Response) : (u.respond r).prev = u.prev := rfl
@[simp] theorem DecUnit.respond_esc (u : DecUnit) (r : Response) : (u.respond r).esc = u.esc := rfl
@[simp] theorem DecUnit.respond_malformed (u : DecUnit) (r : Response) : (u.respond r).malformed = u.malformed := rfl
@[simp] theorem DecUnit.respond_task (u : DecUnit) (r : Response) : (u.respond r).task = u.task := rfl
@[simp] theorem DecUnit.respond_packetSrc (u : DecUnit) (r : Response) : (u.respond r).packetSrc = u.packetSrc := rfl
@[simp] theorem DecUnit.respond_src (u : DecUnit) (r : Response) : (u.respond r).src = u.src := rfl
@[simp] theorem DecUnit.respond_snk (u : DecUnit) (r : Response) : (u.respond r).snk = u.snk := rfl
@[simp] theorem DecUnit.respond_srcLog (u : DecUnit) (r : Response) : (u.respond r).srcLog = u.srcLog := rfl
@[simp] theorem DecUnit.respond_snkLog (u : DecUnit) (r : Response) : (u.respond r).snkLog = u.snkLog := rfl
@[simp] theorem DecUnit.respond_responses (u : DecUnit) (r : Response) : (u.respond r).responses = u.responses ++ [r] := rfl

@[simp] theorem DecUnit.endCommand_reqStart (u : DecUnit) (r : Response) : (u.endCommand r).reqStart = u.reqStart := rfl
@[simp] theorem DecUnit.endCommand_prev (u : DecUnit) (r : Response) : (u.endCommand r).prev = u.prev := rfl
@[simp] theorem DecUnit.endCommand_esc (u : DecUnit) (r : Response) : (u.endCommand r).esc = u.esc := rfl
@[simp] theorem DecUnit.endCommand_malformed (u : DecUnit) (r : Response) : (u.endCommand r).malformed = u.malformed := rfl
@[simp] theorem DecUnit.endCommand_task (u : DecUnit) (r : Response) : (u.endCommand r).task = none := rfl
@[simp] theorem DecUnit.endCommand_packetSrc (u : DecUnit) (r : Response) : (u.endCommand r).packetSrc = none := rfl
@[simp] theorem DecUnit.endCommand_src (u : DecUnit) (r : Response) : (u.endCommand r).src = u.src := rfl
@[simp] theorem DecUnit.endCommand_snk (u : DecUnit) (r : Response) : (u.endCommand r).snk = u.snk := rfl
@[simp] theorem DecUnit.endCommand_srcLog (u : DecUnit) (r : Response) : (u.endCommand r).srcLog = u.srcLog := rfl
@[simp] theorem DecUnit.endCommand_snkLog (u : DecUnit) (r : Response) : (u.endCommand r).snkLog = u.snkLog := rfl
@[simp] theorem DecUnit.endCommand_responses (u : DecUnit) (r : Response) : (u.endCommand r).responses = u.responses ++ [r] := rfl

@[simp] theorem DecUnit.attachPacket_reqStart (u : DecUnit) (w : List Byte) : (u.attachPacket w).reqStart = u.reqStart := rfl
@[simp] theorem DecUnit.attachPacket_prev (u : DecUnit) (w : List Byte) : (u.attachPacket w).prev = u.prev := rfl
@[simp] theorem DecUnit.attachPacket_esc (u : DecUnit) (w : List Byte) : (u.attachPacket w).esc = u.esc := rfl
@[simp] theorem DecUnit.attachPacket_malformed (u : DecUnit) (w : List Byte) : (u.attachPacket w).malformed = u.malformed := rfl
@[simp] theorem DecUnit.attachPacket_task (u : DecUnit) (w : List Byte) : (u.attachPacket w).task = u.task := rfl
@[simp] theorem DecUnit.attachPacket_packetSrc (u : DecUnit) (w : List Byte) : (u.attachPacket w).packetSrc = some ⟨w, 0⟩ := rfl
@[simp] theorem DecUnit.attachPacket_src (u : DecUnit) (w : List Byte) : (u.attachPacket w).src = u.src := rfl
@[simp] theorem DecUnit.attachPacket_snk (u : DecUnit) (w : List Byte) : (u.attachPacket w).snk = u.snk := rfl
@[simp] theorem DecUnit.attachPacket_srcLog (u : DecUnit) (w : List Byte) : (u.attachPacket w).srcLog = u.srcLog := rfl
@[simp] theorem DecUnit.attachPacket_snkLog (u : DecUnit) (w : List Byte) : (u.attachPacket w).snkLog = u.snkLog := rfl
@[simp] theorem DecUnit.attachPacket_responses (u : DecUnit) (w : List Byte) : (u.attachPacket w).responses = u.responses := rfl

@[simp] theorem DecUnit.setSrc_reqStart (u : DecUnit) (p : Source) : (u.setSrc p).reqStart = u.reqStart := rfl
@[simp] theorem DecUnit.setSrc_prev (u : DecUnit) (p : Source) : (u.setSrc p).prev = u.prev := rfl
@[simp] theorem DecUnit.setSrc_esc (u : DecUnit) (p : Source) : (u.setSrc p).esc = u.esc := rfl
@[simp] theorem DecUnit.setSrc_malformed (u : DecUnit) (p : Source) : (u.setSrc p).malformed = u.malformed := rfl
@[simp] theorem DecUnit.setSrc_task (u : DecUnit) (p : Source) : (u.setSrc p).task = u.task := rfl
@[simp] theorem DecUnit.setSrc_packetSrc (u : DecUnit) (p : Source) : (u.setSrc p).packetSrc = u.packetSrc := rfl
@[simp] theorem DecUnit.setSrc_src (u : DecUnit) (p : Source) : (u.setSrc p).src = p := rfl
@[simp] theorem DecUnit.setSrc_snk (u : DecUnit) (p : Source) : (u.setSrc p).snk = u.snk := rfl
@[simp] theorem DecUnit.setSrc_srcLog (u : DecUnit) (p : Source) : (u.setSrc p).srcLog = u.srcLog := rfl
@[simp] theorem DecUnit.setSrc_snkLog (u : DecUnit) (p : Source) : (u.setSrc p).snkLog = u.snkLog := rfl
@[simp] theorem DecUnit.setSrc_responses (u : DecUnit) (p : Source) : (u.setSrc p).responses = u.responses := rfl

@[simp] theorem DecUnit.setSnk_reqStart (u : DecUnit) (p : Sink) : (u.setSnk p).reqStart = u.reqStart := rfl
@[simp] theorem DecUnit.setSnk_prev (u : DecUnit) (p : Sink) : (u.setSnk p).prev = u.prev := rfl
@[simp] theorem DecUnit.setSnk_esc (u : DecUnit) (p : Sink) : (u.setSnk p).esc = u.esc := rfl
@[simp] theorem DecUnit.setSnk_malformed (u : DecUnit) (p : Sink) : (u.setSnk p).malformed = u.malformed := rfl
@[simp] theorem DecUnit.setSnk_task (u : DecUnit) (p : Sink) : (u.setSnk p).task = u.task := rfl
@[simp] theorem DecUnit.setSnk_packetSrc (u : DecUnit) (p : Sink) : (u.setSnk p).packetSrc = u.packetSrc := rfl
@[simp] theorem DecUnit.setSnk_src (u : DecUnit) (p : Sink) : (u.setSnk p).src = u.src := rfl
@[simp] theorem DecUnit.setSnk_snk (u : DecUnit) (p : Sink) : (u.setSnk p).snk = p := rfl
@[simp] theorem DecUnit.setSnk_srcLog (u : DecUnit) (p : Sink) : (u.setSnk p).srcLog = u.srcLog := rfl
@[simp] theorem DecUnit.setSnk_snkLog (u : DecUnit) (p : Sink) : (u.setSnk p).snkLog = u.snkLog := rfl
@[simp] theorem DecUnit.setSnk_responses (u : DecUnit) (p : Sink) : (u.setSnk p).responses = u.responses := rfl

/-! ## The machine -/

@[simp] theorem State.setEnc_enc (s : State) (u : EncUnit) : (s.setEnc u).enc = u := rfl
@[simp] theorem State.setEnc_dec (s : State) (u : EncUnit) : (s.setEnc u).dec = s.dec := rfl
@[simp] theorem State.setEnc_inputs (s : State) (u : EncUnit) : (s.setEnc u).inputs = s.inputs := rfl

@[simp] theorem State.setDec_enc (s : State) (u : DecUnit) : (s.setDec u).enc = s.enc := rfl
@[simp] theorem State.setDec_dec (s : State) (u : DecUnit) : (s.setDec u).dec = u := rfl
@[simp] theorem State.setDec_inputs (s : State) (u : DecUnit) : (s.setDec u).inputs = s.inputs := rfl

@[simp] theorem State.takeInput_enc (s : State) (is : List Input) : (s.takeInput is).enc = s.enc := rfl
@[simp] theorem State.takeInput_dec (s : State) (is : List Input) : (s.takeInput is).dec = s.dec := rfl
@[simp] theorem State.takeInput_inputs (s : State) (is : List Input) : (s.takeInput is).inputs = is := rfl

@[simp] theorem State.offerNext_enc (s : State) (w : Word) : (s.offerNext w).enc = s.enc := rfl
@[simp] theorem State.offerNext_dec (s : State) (w : Word) : (s.offerNext w).dec = s.dec := rfl
@[simp] theorem State.offerNext_inputs (s : State) (w : Word) : (s.offerNext w).inputs = .command w [] :: s.inputs := rfl

@[simp] theorem State.setEnc_setEnc (s : State) (u v : EncUnit) : (s.setEnc u).setEnc v = s.setEnc v := rfl
@[simp] theorem State.setDec_setDec (s : State) (u v : DecUnit) : (s.setDec u).setDec v = s.setDec v := rfl
theorem State.setDec_setEnc (s : State) (u : EncUnit) (v : DecUnit) :
    (s.setDec v).setEnc u = (s.setEnc u).setDec v := rfl

/-- Waiting again at the transaction the unit waits at already changes nothing. -/
theorem EncUnit.waitAt_eq_self {u : EncUnit} {t : EncTask} (h : u.task = some t) : u.waitAt t = u := by
  cases u; cases h; rfl

/-- Waiting again at the transaction the unit waits at already changes nothing. -/
theorem DecUnit.waitAt_eq_self {u : DecUnit} {t : DecTask} (h : u.task = some t) : u.waitAt t = u := by
  cases u; cases h; rfl

end Sys2Proof.Machine
end

