-- ==== Sys2Proof/Laws/Ports.lean ====
section
/-! SUPPORT. What the port operations can do: one lemma per operation, and the small lemmas of the premises on `ENV`. -/

namespace Sys2Proof.Machine

/-! ## Reads -/

/-- A read of a source leaves at most as many answers as before, and one fewer if it gave a byte or was short. -/
theorem Source.read_supply {p p' : Source} {a : SrcAnswer} (h : p.read Config.readChunk = some (a, p')) :
    (a.status = .more → p'.supply < p.supply) ∧ p'.supply ≤ p.supply := by
  cases p with
  | external as =>
    cases as with
    | nil => simp [Source.read] at h
    | cons x xs =>
      simp only [Source.read, Option.some.injEq, Prod.mk.injEq] at h
      obtain ⟨rfl, rfl⟩ := h
      simp [Source.supply]
  | inMemory m =>
    simp only [Source.read, Option.some.injEq, Prod.mk.injEq] at h
    obtain ⟨rfl, rfl⟩ := h
    unfold MemSource.read
    split
    · simp
    · simp only [Source.supply, MemSource.supply, Config.readChunk]
      omega

/-- A byte comes with `More` and as the only one (R49). -/
theorem fetchByte_byte {a : SrcAnswer} {b : Byte} (h : fetchByte a = .byte b) : a = ⟨[b], .more⟩ := by
  obtain ⟨bs, st⟩ := a
  unfold fetchByte at h
  split at h <;> simp_all

/-- A short read is `([], More)` (R49). -/
theorem fetchByte_again {a : SrcAnswer} (h : fetchByte a = .again) : a = ⟨[], .more⟩ := by
  obtain ⟨bs, st⟩ := a
  unfold fetchByte at h
  split at h <;> simp_all

/-- The end of the stream is `([], Eof)` (R49). -/
theorem fetchByte_eos {a : SrcAnswer} (h : fetchByte a = .eos) : a = eofAnswer := by
  obtain ⟨bs, st⟩ := a
  unfold fetchByte at h
  split at h <;> simp_all [eofAnswer]

@[simp] theorem fetchByte_one (b : Byte) : fetchByte ⟨[b], .more⟩ = .byte b := rfl
@[simp] theorem fetchByte_none : fetchByte ⟨[], .more⟩ = .again := rfl
@[simp] theorem fetchByte_eofAnswer : fetchByte eofAnswer = .eos := rfl

/-- An in-memory source with a byte left answers one request of one byte with that byte (R50). -/
theorem MemSource.read_byte {m : MemSource} {b : Byte} (h : m.buffer[m.cursor]? = some b) :
    m.read Config.readChunk = (⟨[b], .more⟩, { m with cursor := m.cursor + 1 }) := by
  obtain ⟨hlt, hb⟩ := List.getElem?_eq_some_iff.mp h
  have hd : m.buffer.drop m.cursor = b :: m.buffer.drop (m.cursor + 1) := by
    rw [List.drop_eq_getElem_cons hlt, hb]
  have hk : min 1 (m.buffer.length - m.cursor) = 1 := by omega
  simp [MemSource.read, Config.readChunk, memRead, Nat.not_le.mpr hlt, hd, hk]

/-- An exhausted in-memory source answers `([], Eof)` and stays as it is (R50). -/
theorem MemSource.read_end {m : MemSource} {n : Nat} (h : m.buffer.length ≤ m.cursor) :
    m.read n = (eofAnswer, m) := by
  simp [MemSource.read, h, eofAnswer]

/-- A read never moves the cursor past the buffer, and leaves the buffer (R50, R58). -/
theorem MemSource.read_buffer (m : MemSource) (n : Nat) : (m.read n).2.buffer = m.buffer := by
  unfold MemSource.read; split <;> rfl

/-- A read leaves the cursor within the buffer (R50). -/
theorem MemSource.read_wf {m : MemSource} {n : Nat} (hw : m.wf = true) : (m.read n).2.wf = true := by
  simp only [MemSource.wf, decide_eq_true_eq] at hw ⊢
  unfold MemSource.read
  split
  · exact hw
  · simp only; omega

theorem Source.read_wf {p p' : Source} {n : Nat} {a : SrcAnswer} (h : p.read n = some (a, p')) (hw : p.wf = true) :
    p'.wf = true := by
  cases p with
  | external as => cases as <;> simp_all [Source.read]; obtain ⟨-, rfl⟩ := h; rfl
  | inMemory m =>
    simp only [Source.read, Option.some.injEq, Prod.mk.injEq] at h
    obtain ⟨-, rfl⟩ := h
    exact MemSource.read_wf hw

theorem Source.attach_wf (d : SrcDevice) : d.attach.wf = true := by
  cases d <;> simp [SrcDevice.attach, Source.wf, MemSource.wf]

theorem Source.give_wf {p p' : Source} {a : SrcAnswer} (h : p.give a = some p') : p'.wf = true := by
  cases p <;> simp [Source.give] at h; subst h; rfl

/-! ## Writes -/

theorem memWrite_length {buffer : List Byte} {c : Nat} {v : List Byte} (h : c + v.length ≤ buffer.length) :
    (memWrite buffer c v).length = buffer.length := by
  simp only [memWrite, List.length_append, List.length_take, List.length_drop]; omega

/-- Outside the written bytes the buffer is as it was (R51). -/
theorem memWrite_getElem?_of_outside {buffer : List Byte} {c : Nat} {v : List Byte} {i : Nat}
    (h : c + v.length ≤ buffer.length) (hi : i < c ∨ c + v.length ≤ i) : (memWrite buffer c v)[i]? = buffer[i]? := by
  have hl : (buffer.take c).length = c := by rw [List.length_take]; omega
  have hl2 : (buffer.take c ++ v).length = c + v.length := by rw [List.length_append, hl]
  unfold memWrite
  rcases hi with hi | hi
  · rw [List.getElem?_append_left (by omega), List.getElem?_append_left (by omega), List.getElem?_take_of_lt hi]
  · rw [List.getElem?_append_right (by omega), List.getElem?_drop, hl2]
    congr 1; omega

/-- The written bytes stand at the cursor (R51). -/
theorem memWrite_getElem?_of_inside {buffer : List Byte} {c : Nat} {v : List Byte} {i : Nat}
    (h : c + v.length ≤ buffer.length) (hi : i < v.length) : (memWrite buffer c v)[c + i]? = v[i]? := by
  have hl : (buffer.take c).length = c := by rw [List.length_take]; omega
  unfold memWrite
  rw [List.getElem?_append_left (by rw [List.length_append]; omega), List.getElem?_append_right (by omega), hl]
  congr 1; omega

theorem MemSink.write_fits {m : MemSink} {bs : List Byte} (h : m.cursor + bs.length ≤ m.buffer.length) :
    m.write bs = (.ok, ⟨memWrite m.buffer m.cursor bs, m.cursor + bs.length⟩) := by
  simp [MemSink.write, Nat.not_lt.mpr h]

theorem MemSink.write_full {m : MemSink} {bs : List Byte} (h : m.buffer.length < m.cursor + bs.length) :
    m.write bs = (.eof, m) := by
  simp [MemSink.write, h]

theorem Sink.write_wf {p p' : Sink} {bs : List Byte} {st : SnkStatus} (h : p.write bs = some (st, p'))
    (hw : p.wf = true) : p'.wf = true := by
  cases p with
  | external as => cases as <;> simp_all [Sink.write]; obtain ⟨-, rfl⟩ := h; rfl
  | inMemory m =>
    simp only [Sink.write, Option.some.injEq, Prod.mk.injEq] at h
    obtain ⟨-, rfl⟩ := h
    simp only [Sink.wf, decide_eq_true_eq] at hw ⊢
    unfold MemSink.write
    split
    · exact hw
    · simp only [memWrite_length (Nat.le_of_not_lt ‹_›)]; omega

theorem Sink.attach_wf (d : SnkDevice) : d.attach.wf = true := by cases d <;> simp [SnkDevice.attach, Sink.wf]

theorem Sink.give_wf {p p' : Sink} {st : SnkStatus} (h : p.give st = some p') : p'.wf = true := by
  cases p <;> simp [Sink.give] at h; subst h; rfl

/-! ## The premises on `ENV` -/

@[simp] theorem Sink.accepts_nil (p : Sink) : p.accepts [] = some p := rfl

/-- A sink accepts `b :: bs` when its next write is answered `Ok` and it then accepts `bs`. -/
theorem Sink.accepts_cons {p p' : Sink} {b : Byte} {bs : List Byte} :
    p.accepts (b :: bs) = some p' ↔ ∃ q, p.write [b] = some (.ok, q) ∧ q.accepts bs = some p' := by
  constructor
  · intro h
    simp only [Sink.accepts] at h
    split at h
    · exact ⟨_, ‹_›, h⟩
    · cases h
  · rintro ⟨q, hq, h⟩
    simp [Sink.accepts, hq, h]

/-- Accepting bytes in two runs is accepting them in one. -/
theorem Sink.accepts_append {p p' : Sink} {bs cs : List Byte} :
    p.accepts (bs ++ cs) = some p' ↔ ∃ q, p.accepts bs = some q ∧ q.accepts cs = some p' := by
  induction bs generalizing p with
  | nil => simp
  | cons b bs ih =>
    simp only [List.cons_append, Sink.accepts_cons, ih]
    constructor
    · rintro ⟨q, hq, r, hr, h⟩; exact ⟨r, ⟨q, hq, hr⟩, h⟩
    · rintro ⟨r, ⟨q, hq, hr⟩, h⟩; exact ⟨q, hq, r, hr, h⟩

@[simp] theorem wrote_nil : wrote [] = [] := rfl
@[simp] theorem wrote_cons (b : Byte) (bs : List Byte) : wrote (b :: bs) = ⟨[b], .ok⟩ :: wrote bs := rfl
@[simp] theorem wrote_append (bs cs : List Byte) : wrote (bs ++ cs) = wrote bs ++ wrote cs := by simp [wrote]
@[simp] theorem readEach_nil : readEach [] = [] := rfl
@[simp] theorem readEach_cons (b : Byte) (bs : List Byte) :
    readEach (b :: bs) = ⟨Config.readChunk, ⟨[b], .more⟩⟩ :: readEach bs := rfl
@[simp] theorem readEach_append (bs cs : List Byte) : readEach (bs ++ cs) = readEach bs ++ readEach cs := by
  simp [readEach]

/-- An in-memory source yields the bytes that are left of its buffer, without a short read (R50). -/
theorem reads_inMemory {m : MemSource} {bs rest : List Byte} (h : m.buffer.drop m.cursor = bs ++ rest) :
    Reads (.inMemory m) bs (readEach bs) (.inMemory { m with cursor := m.cursor + bs.length }) := by
  induction bs generalizing m with
  | nil => exact .nil _
  | cons b bs ih =>
    have hb : m.buffer[m.cursor]? = some b := by
      rw [← List.head?_drop, h]; rfl
    have hd : ({ m with cursor := m.cursor + 1 } : MemSource).buffer.drop (m.cursor + 1) = bs ++ rest := by
      show m.buffer.drop (m.cursor + 1) = _
      rw [← List.drop_drop, h]; rfl
    have := ih (m := { m with cursor := m.cursor + 1 }) hd
    have hc : m.cursor + 1 + bs.length = m.cursor + (b :: bs).length := by simp; omega
    rw [hc] at this
    exact .byte (a := ⟨[b], .more⟩) (by simp [Source.read, MemSource.read_byte hb]) rfl this

/-! ## The ports of the units -/

theorem EncUnit.read_eq {u : EncUnit} {a : SrcAnswer} {p : Source}
    (h : u.src.read Config.readChunk = some (a, p)) : u.read = some (a, u.afterRead p a) := by
  simp [EncUnit.read, h]

theorem EncUnit.write_eq {u : EncUnit} {b : Byte} {st : SnkStatus} {p : Sink}
    (h : u.snk.write [b] = some (st, p)) : u.write b = some (st, u.afterWrite p b st) := by
  simp [EncUnit.write, h]

theorem DecUnit.write_eq {u : DecUnit} {b : Byte} {st : SnkStatus} {p : Sink}
    (h : u.snk.write [b] = some (st, p)) : u.write b = some (st, u.afterWrite p b st) := by
  simp [DecUnit.write, h]

theorem DecUnit.read_eq {u : DecUnit} {a : SrcAnswer} {p : Source}
    (h : u.activeSrc.read Config.readChunk = some (a, p)) : u.read = some (a, (u.setActiveSrc p).logRead a) := by
  simp [DecUnit.read, h]

/-- What an answered read of the encoder's source changes. -/
theorem EncUnit.read_some {u u' : EncUnit} {a : SrcAnswer} (h : u.read = some (a, u')) :
    ∃ p, u.src.read Config.readChunk = some (a, p) ∧ u' = u.afterRead p a := by
  unfold EncUnit.read at h
  split at h
  · cases h
  · cases h; exact ⟨_, ‹_›, rfl⟩

/-- What an answered write of the encoder's sink changes. -/
theorem EncUnit.write_some {u u' : EncUnit} {b : Byte} {st : SnkStatus} (h : u.write b = some (st, u')) :
    ∃ p, u.snk.write [b] = some (st, p) ∧ u' = u.afterWrite p b st := by
  unfold EncUnit.write at h
  split at h
  · cases h
  · cases h; exact ⟨_, ‹_›, rfl⟩

/-- What an answered read at `DEC.SRC` changes. -/
theorem DecUnit.read_some {u u' : DecUnit} {a : SrcAnswer} (h : u.read = some (a, u')) :
    ∃ p, u.activeSrc.read Config.readChunk = some (a, p) ∧ u' = (u.setActiveSrc p).logRead a := by
  unfold DecUnit.read at h
  split at h
  · cases h
  · cases h; exact ⟨_, ‹_›, rfl⟩

/-- What an answered write of the decoder's sink changes. -/
theorem DecUnit.write_some {u u' : DecUnit} {b : Byte} {st : SnkStatus} (h : u.write b = some (st, u')) :
    ∃ p, u.snk.write [b] = some (st, p) ∧ u' = u.afterWrite p b st := by
  unfold DecUnit.write at h
  split at h
  · cases h
  · cases h; exact ⟨_, ‹_›, rfl⟩

/-! ## What stands at `DEC.SRC` -/

/-- A read leaves an adapter an adapter and a device a device. -/
theorem Source.read_kind {p p' : Source} {n : Nat} {a : SrcAnswer} (h : p.read n = some (a, p')) :
    (∃ m m', p = .inMemory m ∧ p' = .inMemory m') ∨ (∃ x y, p = .external x ∧ p' = .external y) := by
  cases p with
  | external as =>
    cases as with
    | nil => simp [Source.read] at h
    | cons x xs =>
      simp only [Source.read, Option.some.injEq, Prod.mk.injEq] at h
      exact .inr ⟨_, _, rfl, h.2.symm⟩
  | inMemory m =>
    simp only [Source.read, Option.some.injEq, Prod.mk.injEq] at h
    exact .inl ⟨_, _, rfl, h.2.symm⟩

/-- After a read, what stands at `DEC.SRC` is the source after the read (R62). -/
theorem DecUnit.activeSrc_setActiveSrc {u : DecUnit} {p : Source} {n : Nat} {a : SrcAnswer}
    (h : u.activeSrc.read n = some (a, p)) : (u.setActiveSrc p).activeSrc = p := by
  unfold DecUnit.activeSrc at h
  split at h
  · rename_i m hm
    obtain ⟨m', m'', hm', rfl⟩ | ⟨x, y, hx, rfl⟩ := Source.read_kind h
    · simp [DecUnit.setActiveSrc, hm, DecUnit.activeSrc]
    · cases hx
  · simp [DecUnit.setActiveSrc, DecUnit.activeSrc, *]

/-- A read at `DEC.SRC` leaves the cursor of DEC_PACKET's own source within its buffer (R50, R62). -/
theorem DecUnit.setActiveSrc_packet_wf {u : DecUnit} {p : Source} {n : Nat} {a : SrcAnswer}
    (h : u.activeSrc.read n = some (a, p)) (hw : ∀ m, u.packetSrc = some m → m.wf = true) :
    ∀ m, (u.setActiveSrc p).packetSrc = some m → m.wf = true := by
  unfold DecUnit.activeSrc at h
  split at h
  · rename_i m hm
    simp only [Source.read, Option.some.injEq, Prod.mk.injEq] at h
    obtain ⟨-, rfl⟩ := h
    simpa [DecUnit.setActiveSrc, hm] using MemSource.read_wf (hw m hm)
  · simp [DecUnit.setActiveSrc, *]

/-- `setActiveSrc` writes `src` or `packetSrc` and nothing else. -/
theorem DecUnit.setActiveSrc_frame (u : DecUnit) (p : Source) :
    (u.setActiveSrc p).reqStart = u.reqStart ∧ (u.setActiveSrc p).prev = u.prev ∧ (u.setActiveSrc p).esc = u.esc ∧
    (u.setActiveSrc p).malformed = u.malformed ∧ (u.setActiveSrc p).task = u.task ∧ (u.setActiveSrc p).snk = u.snk ∧
    (u.setActiveSrc p).srcLog = u.srcLog ∧ (u.setActiveSrc p).snkLog = u.snkLog ∧
    (u.setActiveSrc p).responses = u.responses := by
  unfold DecUnit.setActiveSrc
  split <;> simp

@[simp] theorem DecUnit.setActiveSrc_reqStart (u : DecUnit) (p : Source) : (u.setActiveSrc p).reqStart = u.reqStart :=
  (u.setActiveSrc_frame p).1
@[simp] theorem DecUnit.setActiveSrc_prev (u : DecUnit) (p : Source) : (u.setActiveSrc p).prev = u.prev :=
  (u.setActiveSrc_frame p).2.1
@[simp] theorem DecUnit.setActiveSrc_esc (u : DecUnit) (p : Source) : (u.setActiveSrc p).esc = u.esc :=
  (u.setActiveSrc_frame p).2.2.1
@[simp] theorem DecUnit.setActiveSrc_malformed (u : DecUnit) (p : Source) :
    (u.setActiveSrc p).malformed = u.malformed :=
  (u.setActiveSrc_frame p).2.2.2.1
@[simp] theorem DecUnit.setActiveSrc_task (u : DecUnit) (p : Source) : (u.setActiveSrc p).task = u.task :=
  (u.setActiveSrc_frame p).2.2.2.2.1
@[simp] theorem DecUnit.setActiveSrc_snk (u : DecUnit) (p : Source) : (u.setActiveSrc p).snk = u.snk :=
  (u.setActiveSrc_frame p).2.2.2.2.2.1
@[simp] theorem DecUnit.setActiveSrc_srcLog (u : DecUnit) (p : Source) : (u.setActiveSrc p).srcLog = u.srcLog :=
  (u.setActiveSrc_frame p).2.2.2.2.2.2.1
@[simp] theorem DecUnit.setActiveSrc_snkLog (u : DecUnit) (p : Source) : (u.setActiveSrc p).snkLog = u.snkLog :=
  (u.setActiveSrc_frame p).2.2.2.2.2.2.2.1
@[simp] theorem DecUnit.setActiveSrc_responses (u : DecUnit) (p : Source) :
    (u.setActiveSrc p).responses = u.responses :=
  (u.setActiveSrc_frame p).2.2.2.2.2.2.2.2

@[simp] theorem DecUnit.activeSrc_logRead (u : DecUnit) (a : SrcAnswer) : (u.logRead a).activeSrc = u.activeSrc := rfl
@[simp] theorem DecUnit.activeSrc_afterWrite (u : DecUnit) (p : Sink) (b : Byte) (st : SnkStatus) :
    (u.afterWrite p b st).activeSrc = u.activeSrc := rfl
@[simp] theorem DecUnit.activeSrc_setPrev (u : DecUnit) (b : Byte) : (u.setPrev b).activeSrc = u.activeSrc := rfl
@[simp] theorem DecUnit.activeSrc_setEsc (u : DecUnit) (e : EscState) : (u.setEsc e).activeSrc = u.activeSrc := rfl
@[simp] theorem DecUnit.activeSrc_setMalformed (u : DecUnit) (v : Bool) :
    (u.setMalformed v).activeSrc = u.activeSrc := rfl

end Sys2Proof.Machine
end

