-- ==== Sys2Proof/Laws/Decoder.lean ====
section
/-! SUPPORT. What the decoder's shared operations can do: the rows of the decode step, a command going on
transaction by transaction (`decContinue_wait`), its fuel (`decRun_settles`), and `decContinue_rec`. -/

namespace Sys2Proof.Machine

/-! ## The decode step, row by row -/

theorem END_ne_ESC : END ≠ ESC := by decide

/-- R121. -/
theorem decodeStep_normal_end {u : DecUnit} (h : u.esc = .normal) :
    decodeStep u END = (u.setPrev END, none, .endOfPacket) := by
  simp [decodeStep, h]

/-- R122. -/
theorem decodeStep_normal_esc {u : DecUnit} (h : u.esc = .normal) :
    decodeStep u ESC = ((u.setPrev ESC).setEsc .escaped, none, .more) := by
  simp [decodeStep, h, END_ne_ESC.symm]

/-- R123. -/
theorem decodeStep_normal_other {u : DecUnit} {b : Byte} (h : u.esc = .normal) (h1 : b ≠ END) (h2 : b ≠ ESC) :
    decodeStep u b = (u.setPrev b, some b, .more) := by
  simp [decodeStep, h, h1, h2]

/-- R124. -/
theorem decodeStep_escaped_end {u : DecUnit} (h : u.esc = .escaped) :
    decodeStep u ESC_END = ((u.setPrev ESC_END).setEsc .normal, some END, .more) := by
  simp [decodeStep, h, unescape]

/-- R125. -/
theorem decodeStep_escaped_esc {u : DecUnit} (h : u.esc = .escaped) :
    decodeStep u ESC_ESC = ((u.setPrev ESC_ESC).setEsc .normal, some ESC, .more) := by
  have h1 : unescape ESC_ESC = (ESC, false) := by decide
  simp [decodeStep, h, h1]

/-- R126. -/
theorem decodeStep_escaped_other {u : DecUnit} {b : Byte} (h : u.esc = .escaped) (h1 : b ≠ ESC_END)
    (h2 : b ≠ ESC_ESC) :
    decodeStep u b = (((u.setPrev b).setEsc .normal).setMalformed true, some b, .more) := by
  simp [decodeStep, h, unescape, h1, h2]

/-- All a decode step can do: one of the six rows of the transition table (R121 to R126). -/
theorem decodeStep_cases (u : DecUnit) (b : Byte) :
    (u.esc = .normal ∧ b = END ∧ decodeStep u b = (u.setPrev b, none, .endOfPacket)) ∨
    (u.esc = .normal ∧ b = ESC ∧ decodeStep u b = ((u.setPrev b).setEsc .escaped, none, .more)) ∨
    (u.esc = .normal ∧ b ≠ END ∧ b ≠ ESC ∧ decodeStep u b = (u.setPrev b, some b, .more)) ∨
    (u.esc = .escaped ∧ b = ESC_END ∧ decodeStep u b = ((u.setPrev b).setEsc .normal, some END, .more)) ∨
    (u.esc = .escaped ∧ b = ESC_ESC ∧ decodeStep u b = ((u.setPrev b).setEsc .normal, some ESC, .more)) ∨
    (u.esc = .escaped ∧ b ≠ ESC_END ∧ b ≠ ESC_ESC ∧
      decodeStep u b = (((u.setPrev b).setEsc .normal).setMalformed true, some b, .more)) := by
  cases he : u.esc with
  | normal =>
    by_cases h1 : b = END
    · subst h1; simp [decodeStep_normal_end he]
    · by_cases h2 : b = ESC
      · subst h2; simp [decodeStep_normal_esc he]
      · simp [h1, h2, decodeStep_normal_other he h1 h2]
  | escaped =>
    by_cases h1 : b = ESC_END
    · subst h1; simp [decodeStep_escaped_end he]
    · by_cases h2 : b = ESC_ESC
      · subst h2; simp [decodeStep_escaped_esc he]
      · simp [h1, h2, decodeStep_escaped_other he h1 h2]

/-- A decode step changes `DEC.PREV`, `DEC.ESC` and `DEC.MALFORMED` and nothing else (R120). -/
theorem decodeStep_frame (u : DecUnit) (b : Byte) :
    ∃ e m, (decodeStep u b).1 = ((u.setPrev b).setEsc e).setMalformed m ∧ (u.malformed = true → m = true) ∧
      (e = .escaped → b = ESC) := by
  have self : ∀ v : DecUnit, (v.setEsc v.esc).setMalformed v.malformed = v := fun _ => rfl
  obtain ⟨h, hb, hs⟩ | ⟨h, hb, hs⟩ | ⟨h, h1, h2, hs⟩ | ⟨h, hb, hs⟩ | ⟨h, hb, hs⟩ | ⟨h, h1, h2, hs⟩ := decodeStep_cases u b
  · exact ⟨u.esc, u.malformed, by rw [hs]; rfl, id, by simp [h]⟩
  · exact ⟨.escaped, u.malformed, by rw [hs]; rfl, id, fun _ => hb⟩
  · exact ⟨u.esc, u.malformed, by rw [hs]; rfl, id, by simp [h]⟩
  · exact ⟨.normal, u.malformed, by rw [hs]; rfl, id, by simp⟩
  · exact ⟨.normal, u.malformed, by rw [hs]; rfl, id, by simp⟩
  · exact ⟨.normal, true, by rw [hs], fun _ => rfl, by simp⟩

/-- A byte is consumed into one of two things: an emit, or the command's next step (R120). -/
theorem decConsume_cases (u : DecUnit) (b : Byte) (inLoop : Bool) :
    (decConsume u b inLoop).1 = (decodeStep u b).1 ∧
    ((∃ x, (decodeStep u b).2.1 = some x ∧
        (decConsume u b inLoop).2 = .wait (.emit x (decodeStep u b).2.2 inLoop)) ∨
     ((decodeStep u b).2.1 = none ∧ (decConsume u b inLoop).2 = decGoOn (decodeStep u b).2.2 inLoop)) := by
  unfold decConsume
  split <;> simp_all

/-! ## The fuel is enough -/

@[simp] theorem DecUnit.activeSrc_decodeStep (u : DecUnit) (b : Byte) : (decodeStep u b).1.activeSrc = u.activeSrc := by
  obtain ⟨e, m, h, -⟩ := decodeStep_frame u b
  simp [h]

/-- A byte consumed leaves the in-memory source of DEC_PACKET. -/
@[simp] theorem decConsume_packetSrc (u : DecUnit) (b : Byte) (inLoop : Bool) :
    (decConsume u b inLoop).1.packetSrc = u.packetSrc := by
  obtain ⟨e, m, h, -⟩ := decodeStep_frame u b
  rw [(decConsume_cases u b inLoop).1, h]
  rfl

/-- What a read of the scan brings leaves the in-memory source of DEC_PACKET. -/
@[simp] theorem decScanned_packetSrc (u : DecUnit) (f : Fetch) : (decScanned u f).1.packetSrc = u.packetSrc := by
  cases f <;> simp only [decScanned]
  split <;> rfl

/-- What a read of the decode loop brings leaves the in-memory source of DEC_PACKET. -/
@[simp] theorem decFetched_packetSrc (u : DecUnit) (got : Bool) (f : Fetch) :
    (decFetched u got f).1.packetSrc = u.packetSrc := by
  cases f <;> simp [decFetched]

theorem decWork_decGoOn (u : DecUnit) (sig : Signal) (inLoop : Bool) :
    decWork u (decGoOn sig inLoop) ≤ if inLoop then 2 * u.activeSrc.supply + 1 else 0 := by
  cases inLoop <;> cases sig <;> simp [decGoOn, decWork]

theorem decWork_decConsume (u : DecUnit) (b : Byte) :
    decWork (decConsume u b true).1 (decConsume u b true).2 ≤ 2 * u.activeSrc.supply + 2 := by
  obtain ⟨h1, ⟨x, -, h2⟩ | ⟨-, h2⟩⟩ := decConsume_cases u b true
  · simp [h1, h2, decWork]
  · have := decWork_decGoOn (decodeStep u b).1 (decodeStep u b).2.2 true
    rw [h1, h2]; simp at this ⊢; omega

/-- All an answered transaction of the decoder can be: a read of the scan or of the loop, or an emit. -/
theorem decTransact_cases {u u' : DecUnit} {t : DecTask} {p : DecProgress} (h : decTransact u t = some (u', p)) :
    (∃ a q, t = .scan ∧ u.activeSrc.read Config.readChunk = some (a, q) ∧
      (u', p) = decScanned ((u.setActiveSrc q).logRead a) (fetchByte a)) ∨
    (∃ got a q, t = .fetch got ∧ u.activeSrc.read Config.readChunk = some (a, q) ∧
      (u', p) = decFetched ((u.setActiveSrc q).logRead a) got (fetchByte a)) ∨
    (∃ x sig inLoop st q, t = .emit x sig inLoop ∧ u.snk.write [x] = some (st, q) ∧ u' = u.afterWrite q x st ∧
      p = decEmitted sig inLoop (putByte st)) := by
  cases t with
  | scan =>
    simp only [decTransact] at h
    split at h
    · cases h
    · obtain ⟨q, hq, rfl⟩ := DecUnit.read_some ‹_›
      exact .inl ⟨_, q, rfl, hq, (Option.some.inj h).symm⟩
  | fetch got =>
    simp only [decTransact] at h
    split at h
    · cases h
    · obtain ⟨q, hq, rfl⟩ := DecUnit.read_some ‹_›
      exact .inr (.inl ⟨got, _, q, rfl, hq, (Option.some.inj h).symm⟩)
  | emit x sig inLoop =>
    simp only [decTransact] at h
    split at h
    · cases h
    · obtain ⟨q, hq, rfl⟩ := DecUnit.write_some ‹_›
      simp only [Option.some.injEq, Prod.mk.injEq] at h
      exact .inr (.inr ⟨x, sig, inLoop, _, q, rfl, hq, h.1.symm, h.2.symm⟩)

/-- Every answered transaction leaves less work. -/
theorem decTransact_work {u u' : DecUnit} {t : DecTask} {p : DecProgress} (h : decTransact u t = some (u', p)) :
    decWork u' p < decWork u (.wait t) := by
  obtain ⟨a, q, rfl, hq, h⟩ | ⟨got, a, q, rfl, hq, h⟩ | ⟨x, sig, inLoop, st, q, rfl, -, rfl, rfl⟩ :=
    decTransact_cases h
  · have hsup := Source.read_supply hq
    have hact := DecUnit.activeSrc_setActiveSrc hq
    cases hf : fetchByte a with
    | ioFail => simp only [hf, decScanned] at h; cases h; simp [decWork]
    | eos => simp only [hf, decScanned] at h; cases h; simp [decWork]
    | again =>
      have := hsup.1 (by rw [fetchByte_again hf])
      simp only [hf, decScanned] at h; cases h
      simp only [decWork, DecUnit.activeSrc_logRead, hact]; omega
    | byte b =>
      have := hsup.1 (by rw [fetchByte_byte hf])
      simp only [hf, decScanned] at h
      split at h <;> cases h <;>
        simp only [decWork, DecUnit.activeSrc_setEsc, DecUnit.activeSrc_setPrev, DecUnit.activeSrc_logRead, hact] <;>
        omega
  · have hsup := Source.read_supply hq
    have hact := DecUnit.activeSrc_setActiveSrc hq
    cases hf : fetchByte a with
    | ioFail => simp only [hf, decFetched] at h; cases h; simp [decWork]
    | eos => simp only [hf, decFetched] at h; cases h; simp [decWork]
    | again =>
      have := hsup.1 (by rw [fetchByte_again hf])
      simp only [hf, decFetched] at h; cases h
      simp only [decWork, DecUnit.activeSrc_logRead, hact]; omega
    | byte b =>
      have := hsup.1 (by rw [fetchByte_byte hf])
      have hc := decWork_decConsume ((u.setActiveSrc q).logRead a) b
      simp only [hf, decFetched] at h
      rw [← h] at hc
      simp only [DecUnit.activeSrc_logRead, hact, decWork] at hc ⊢; omega
  · have := decWork_decGoOn (u.afterWrite q x st) sig inLoop
    cases putByte st with
    | ioFail => cases inLoop <;> simp [decEmitted, decWork]
    | done =>
      cases inLoop with
      | false => cases sig <;> simp [decEmitted, decGoOn, decWork]
      | true =>
        simp only [decEmitted, decWork, DecUnit.activeSrc_afterWrite, if_true] at this ⊢
        omega

/-- More fuel than the work there is changes nothing. -/
theorem decRun_fuel {n m : Nat} {u : DecUnit} {p : DecProgress} (hn : decWork u p ≤ n) (hm : decWork u p ≤ m) :
    decRun n u p = decRun m u p := by
  induction n generalizing m u p with
  | zero =>
    cases p with
    | done r => cases m <;> rfl
    | wait t =>
      cases t with
      | emit x sig inLoop => cases inLoop <;> simp [decWork] at hn
      | _ => simp [decWork] at hn
  | succ n ih =>
    cases p with
    | done r => cases m <;> rfl
    | wait t =>
      cases m with
      | zero =>
        cases t with
        | emit x sig inLoop => cases inLoop <;> simp [decWork] at hm
        | _ => simp [decWork] at hm
      | succ m =>
        simp only [decRun]
        cases h : decTransact u t with
        | none => rfl
        | some x =>
          have := decTransact_work h
          exact ih (by omega) (by omega)

/-- A run ends where the command returned or where its transaction is unanswered. -/
theorem decRun_settles {n : Nat} {u : DecUnit} {p : DecProgress} (hn : decWork u p ≤ n) {t : DecTask}
    (h : (decRun n u p).2 = .wait t) : decTransact (decRun n u p).1 t = none := by
  induction n generalizing u p with
  | zero =>
    cases p with
    | done r => cases h
    | wait t =>
      cases t with
      | emit x sig inLoop => cases inLoop <;> simp [decWork] at hn
      | _ => simp [decWork] at hn
  | succ n ih =>
    cases p with
    | done r => cases h
    | wait t' =>
      simp only [decRun] at h ⊢
      cases hx : decTransact u t' with
      | none => simp only [hx] at h ⊢; cases h; exact hx
      | some x =>
        have := decTransact_work hx
        simp only [hx] at h ⊢
        exact ih (by omega) h

/-! ## A command, transaction by transaction -/

@[simp] theorem decContinue_done (u : DecUnit) (r : DecOutcome) :
    decContinue u (.done r) = u.endCommand r.response := rfl

/-- A command that waits at an unanswered transaction stays there. -/
theorem decContinue_wait_none {u : DecUnit} {t : DecTask} (h : decTransact u t = none) :
    decContinue u (.wait t) = u.waitAt t := by
  have : decRun (decWork u (.wait t)) u (.wait t) = (u, .wait t) := by
    cases decWork u (.wait t) with
    | zero => rfl
    | succ n => simp [decRun, h]
  rw [decContinue, this]; rfl

/-- A command whose transaction is answered goes on from there. -/
theorem decContinue_wait_some {u u' : DecUnit} {t : DecTask} {p : DecProgress} (h : decTransact u t = some (u', p)) :
    decContinue u (.wait t) = decContinue u' p := by
  have hlt := decTransact_work h
  have : decRun (decWork u (.wait t)) u (.wait t) = decRun (decWork u' p) u' p := by
    obtain ⟨n, hn⟩ : ∃ n, decWork u (.wait t) = n + 1 := ⟨_, (Nat.succ_pred_eq_of_pos (by omega)).symm⟩
    rw [hn]
    simp only [decRun, h]
    exact decRun_fuel (by omega) (le_refl _)
  rw [decContinue, this, decContinue]

/-- A command's continuation, unfolded once. -/
theorem decContinue_wait (u : DecUnit) (t : DecTask) :
    decContinue u (.wait t) =
      match decTransact u t with
      | none => u.waitAt t
      | some (u', p) => decContinue u' p := by
  cases h : decTransact u t with
  | none => exact decContinue_wait_none h
  | some x => exact decContinue_wait_some h

/-- What every answered transaction keeps, a command keeps up to its return or the transaction it waits at. -/
theorem decContinue_rec {Q : DecUnit → DecProgress → Prop} {R : DecUnit → Prop}
    (hstep : ∀ u t u' p, Q u (.wait t) → decTransact u t = some (u', p) → Q u' p)
    (hdone : ∀ u r, Q u (.done r) → R (u.endCommand r.response))
    (hwait : ∀ u t, Q u (.wait t) → decTransact u t = none → R (u.waitAt t))
    {u : DecUnit} {p : DecProgress} (h : Q u p) : R (decContinue u p) := by
  generalize hn : decWork u p = n
  induction n using Nat.strong_induction_on generalizing u p with
  | _ n ih =>
    cases p with
    | done r => exact hdone _ _ h
    | wait t =>
      cases ht : decTransact u t with
      | none => rw [decContinue_wait_none ht]; exact hwait _ _ h ht
      | some x =>
        rw [decContinue_wait_some ht]
        exact ih _ (hn ▸ decTransact_work ht) (hstep _ _ _ _ h ht) rfl

/-- An emit that is answered `Ok`: the command goes on (R120). -/
theorem decContinue_emit_ok {u : DecUnit} {x : Byte} {sig : Signal} {inLoop : Bool} {p : Sink}
    (h : u.snk.write [x] = some (.ok, p)) :
    decContinue u (.wait (.emit x sig inLoop)) = decContinue (u.afterWrite p x .ok) (decGoOn sig inLoop) :=
  decContinue_wait_some (by simp [decTransact, DecUnit.write_eq h, putByte, decEmitted])

/-- An emit that fails ends the command with IO_ERROR (R128). -/
theorem decContinue_emit_fail {u : DecUnit} {x : Byte} {sig : Signal} {inLoop : Bool} {p : Sink} {st : SnkStatus}
    (h : u.snk.write [x] = some (st, p)) (hst : st ≠ .ok) :
    decContinue u (.wait (.emit x sig inLoop)) = (u.afterWrite p x st).endCommand (.plain .ioError) := by
  rw [decContinue_wait_some (u' := u.afterWrite p x st)
    (p := .done (if inLoop then .transfer .ioError else .byte .ioError))]
  · cases inLoop <;> rfl
  · cases st <;> simp_all [decTransact, DecUnit.write_eq h, putByte, decEmitted]

/-- A read of the decode loop that is answered (R132). -/
theorem decContinue_fetch {u : DecUnit} {got : Bool} {a : SrcAnswer} {p : Source}
    (h : u.activeSrc.read Config.readChunk = some (a, p)) :
    decContinue u (.wait (.fetch got)) =
      decContinue (decFetched ((u.setActiveSrc p).logRead a) got (fetchByte a)).1
        (decFetched ((u.setActiveSrc p).logRead a) got (fetchByte a)).2 :=
  decContinue_wait_some (by simp [decTransact, DecUnit.read_eq h])

/-- A read of the start-byte scan that is answered (R129). -/
theorem decContinue_scan {u : DecUnit} {a : SrcAnswer} {p : Source}
    (h : u.activeSrc.read Config.readChunk = some (a, p)) :
    decContinue u (.wait .scan) =
      decContinue (decScanned ((u.setActiveSrc p).logRead a) (fetchByte a)).1
        (decScanned ((u.setActiveSrc p).logRead a) (fetchByte a)).2 :=
  decContinue_wait_some (by simp [decTransact, DecUnit.read_eq h])

/-! ## Commands -/

/-- However a decoder command goes on, the cursor of DEC_PACKET's own source stays within its buffer (R50, R62). -/
theorem decContinue_packet_wf {u : DecUnit} (h : ∀ m, u.packetSrc = some m → m.wf = true) (p : DecProgress) :
    ∀ m, (decContinue u p).packetSrc = some m → m.wf = true := by
  refine decContinue_rec (Q := fun v _ => ∀ m, v.packetSrc = some m → m.wf = true)
    (R := fun v => ∀ m, v.packetSrc = some m → m.wf = true) ?_ (by simp) (fun _ _ hv _ => hv) h
  intro v t v' r hv ht
  obtain ⟨a, q, -, hq, hc⟩ | ⟨got, a, q, -, hq, hc⟩ | ⟨x, _, _, _, _, -, -, rfl, -⟩ := decTransact_cases ht
  · rw [show v' = _ from congrArg Prod.fst hc]
    simpa using DecUnit.setActiveSrc_packet_wf hq hv
  · rw [show v' = _ from congrArg Prod.fst hc]
    simpa using DecUnit.setActiveSrc_packet_wf hq hv
  · exact hv

/-- All a command of the decoder can do: it runs on an idle unit, and only the decoder changes (R57). -/
theorem onDec_cases {s : State} {u : DecUnit} {o : Host.Outcome State Fault Refusal} (h : onDec s u = o) :
    (s.dec.busy = false ∧ o = .next (s.setDec u)) ∨ (s.dec.busy = true ∧ o = .refused (.unitBusy .decoder)) := by
  unfold onDec at h
  cases hb : s.dec.busy <;> simp [hb] at h <;> simp [h]

theorem onDec_idle {s : State} {u : DecUnit} (h : s.dec.busy = false) : onDec s u = .next (s.setDec u) := by
  simp [onDec, h]

theorem onDec_busy {s : State} {u : DecUnit} (h : s.dec.busy = true) :
    onDec s u = .refused (.unitBusy .decoder) := by
  simp [onDec, h]

end Sys2Proof.Machine
end

