-- ==== Sys2Proof/Laws/DecoderRuns.lean ====
section
/-! SUPPORT. What the decoder does over many transactions: the start-byte scan and the decode loop over reads that
yield a wire byte sequence (`decContinue_scan_reads`, `decContinue_loop_reads`), and where a transfer stands after
them (`decContinue_transfer_reads`). -/

namespace Sys2Proof.Machine

/-- The decoder after accepted or failed writes. -/
def DecUnit.hasWritten (u : DecUnit) (p : Sink) (log : List SnkXact) : DecUnit :=
  { u with snk := p, snkLog := u.snkLog ++ log }

/-- The decoder after reads that left `p` at `DEC.SRC`, whatever stands there. -/
def DecUnit.readTo (u : DecUnit) (p : Source) (log : List SrcXact) : DecUnit :=
  { u.setActiveSrc p with srcLog := u.srcLog ++ log }

@[simp] theorem DecUnit.hasWritten_reqStart (u : DecUnit) (p : Sink) (log : List SnkXact) :
    (u.hasWritten p log).reqStart = u.reqStart := rfl
@[simp] theorem DecUnit.hasWritten_prev (u : DecUnit) (p : Sink) (log : List SnkXact) :
    (u.hasWritten p log).prev = u.prev := rfl
@[simp] theorem DecUnit.hasWritten_esc (u : DecUnit) (p : Sink) (log : List SnkXact) :
    (u.hasWritten p log).esc = u.esc := rfl
@[simp] theorem DecUnit.hasWritten_malformed (u : DecUnit) (p : Sink) (log : List SnkXact) :
    (u.hasWritten p log).malformed = u.malformed := rfl
@[simp] theorem DecUnit.hasWritten_task (u : DecUnit) (p : Sink) (log : List SnkXact) :
    (u.hasWritten p log).task = u.task := rfl
@[simp] theorem DecUnit.hasWritten_packetSrc (u : DecUnit) (p : Sink) (log : List SnkXact) :
    (u.hasWritten p log).packetSrc = u.packetSrc := rfl
@[simp] theorem DecUnit.hasWritten_src (u : DecUnit) (p : Sink) (log : List SnkXact) :
    (u.hasWritten p log).src = u.src := rfl
@[simp] theorem DecUnit.hasWritten_snk (u : DecUnit) (p : Sink) (log : List SnkXact) :
    (u.hasWritten p log).snk = p := rfl
@[simp] theorem DecUnit.hasWritten_srcLog (u : DecUnit) (p : Sink) (log : List SnkXact) :
    (u.hasWritten p log).srcLog = u.srcLog := rfl
@[simp] theorem DecUnit.hasWritten_snkLog (u : DecUnit) (p : Sink) (log : List SnkXact) :
    (u.hasWritten p log).snkLog = u.snkLog ++ log := rfl
@[simp] theorem DecUnit.hasWritten_responses (u : DecUnit) (p : Sink) (log : List SnkXact) :
    (u.hasWritten p log).responses = u.responses := rfl
@[simp] theorem DecUnit.hasWritten_activeSrc (u : DecUnit) (p : Sink) (log : List SnkXact) :
    (u.hasWritten p log).activeSrc = u.activeSrc := rfl

@[simp] theorem DecUnit.decoded_reqStart (u : DecUnit) (d : Decoded) : (u.decoded d).reqStart = u.reqStart := rfl
@[simp] theorem DecUnit.decoded_prev (u : DecUnit) (d : Decoded) : (u.decoded d).prev = prevAfter u.prev d.consumed := rfl
@[simp] theorem DecUnit.decoded_esc (u : DecUnit) (d : Decoded) : (u.decoded d).esc = d.esc := rfl
@[simp] theorem DecUnit.decoded_malformed (u : DecUnit) (d : Decoded) : (u.decoded d).malformed = (u.malformed || d.malformed) := rfl
@[simp] theorem DecUnit.decoded_task (u : DecUnit) (d : Decoded) : (u.decoded d).task = u.task := rfl
@[simp] theorem DecUnit.decoded_packetSrc (u : DecUnit) (d : Decoded) : (u.decoded d).packetSrc = u.packetSrc := rfl
@[simp] theorem DecUnit.decoded_src (u : DecUnit) (d : Decoded) : (u.decoded d).src = u.src := rfl
@[simp] theorem DecUnit.decoded_snk (u : DecUnit) (d : Decoded) : (u.decoded d).snk = u.snk := rfl
@[simp] theorem DecUnit.decoded_srcLog (u : DecUnit) (d : Decoded) : (u.decoded d).srcLog = u.srcLog := rfl
@[simp] theorem DecUnit.decoded_snkLog (u : DecUnit) (d : Decoded) : (u.decoded d).snkLog = u.snkLog := rfl
@[simp] theorem DecUnit.decoded_responses (u : DecUnit) (d : Decoded) : (u.decoded d).responses = u.responses := rfl
@[simp] theorem DecUnit.decoded_activeSrc (u : DecUnit) (d : Decoded) : (u.decoded d).activeSrc = u.activeSrc := rfl

@[simp] theorem DecUnit.readTo_reqStart (u : DecUnit) (p : Source) (log : List SrcXact) :
    (u.readTo p log).reqStart = u.reqStart := by simp [DecUnit.readTo]
@[simp] theorem DecUnit.readTo_prev (u : DecUnit) (p : Source) (log : List SrcXact) :
    (u.readTo p log).prev = u.prev := by simp [DecUnit.readTo]
@[simp] theorem DecUnit.readTo_esc (u : DecUnit) (p : Source) (log : List SrcXact) :
    (u.readTo p log).esc = u.esc := by simp [DecUnit.readTo]
@[simp] theorem DecUnit.readTo_malformed (u : DecUnit) (p : Source) (log : List SrcXact) :
    (u.readTo p log).malformed = u.malformed := by simp [DecUnit.readTo]
@[simp] theorem DecUnit.readTo_task (u : DecUnit) (p : Source) (log : List SrcXact) :
    (u.readTo p log).task = u.task := by simp [DecUnit.readTo]
@[simp] theorem DecUnit.readTo_snk (u : DecUnit) (p : Source) (log : List SrcXact) :
    (u.readTo p log).snk = u.snk := by simp [DecUnit.readTo]
@[simp] theorem DecUnit.readTo_srcLog (u : DecUnit) (p : Source) (log : List SrcXact) :
    (u.readTo p log).srcLog = u.srcLog ++ log := rfl
@[simp] theorem DecUnit.readTo_snkLog (u : DecUnit) (p : Source) (log : List SrcXact) :
    (u.readTo p log).snkLog = u.snkLog := by simp [DecUnit.readTo]
@[simp] theorem DecUnit.readTo_responses (u : DecUnit) (p : Source) (log : List SrcXact) :
    (u.readTo p log).responses = u.responses := by simp [DecUnit.readTo]

theorem DecUnit.afterWrite_eq_hasWritten (u : DecUnit) (p : Sink) (b : Byte) (st : SnkStatus) :
    u.afterWrite p b st = u.hasWritten p [⟨[b], st⟩] := rfl

@[simp] theorem DecUnit.hasWritten_hasWritten (u : DecUnit) (p q : Sink) (l m : List SnkXact) :
    (u.hasWritten p l).hasWritten q m = u.hasWritten q (l ++ m) := by
  simp [DecUnit.hasWritten]

@[simp] theorem DecUnit.hasWritten_nil (u : DecUnit) : u.hasWritten u.snk [] = u := by
  simp [DecUnit.hasWritten]

theorem DecUnit.task_none {u : DecUnit} (h : u.busy = false) : u.task = none := by
  cases u; simpa [DecUnit.busy] using h

theorem DecUnit.busy_of_task_none {u : DecUnit} (h : u.task = none) : u.busy = false := by
  simp [DecUnit.busy, h]

/-! ## What stands at `DEC.SRC` through many reads -/

theorem DecUnit.setActiveSrc_self (u : DecUnit) : u.setActiveSrc u.activeSrc = u := by
  cases u with
  | mk a b c d e ps f g h i j => cases ps <;> rfl

/-- Two reads leave what the second leaves. -/
theorem DecUnit.setActiveSrc_setActiveSrc {u : DecUnit} {p q : Source} (hp : (u.setActiveSrc p).activeSrc = p)
    (hq : ((u.setActiveSrc p).setActiveSrc q).activeSrc = q) :
    (u.setActiveSrc p).setActiveSrc q = u.setActiveSrc q := by
  cases u with
  | mk a b c d e ps f g h i j =>
    cases ps with
    | none => rfl
    | some m =>
      cases p with
      | external x => simp [DecUnit.setActiveSrc, DecUnit.activeSrc] at hp
      | inMemory m' =>
        cases q with
        | external x => simp [DecUnit.setActiveSrc, DecUnit.activeSrc] at hq
        | inMemory m'' => rfl

/-- Reads at `DEC.SRC` leave there what they leave. -/
theorem Reads.activeSrc {u : DecUnit} {w : List Byte} {log : List SrcXact} {p : Source}
    (hr : Reads u.activeSrc w log p) : (u.setActiveSrc p).activeSrc = p := by
  generalize hs : u.activeSrc = s at hr
  induction hr generalizing u with
  | nil s => subst hs; rw [DecUnit.setActiveSrc_self]
  | again hread _ _ ih =>
    subst hs
    have h1 := DecUnit.activeSrc_setActiveSrc hread
    have h2 := ih h1
    rw [DecUnit.setActiveSrc_setActiveSrc h1 h2] at h2
    exact h2
  | byte hread _ _ ih =>
    subst hs
    have h1 := DecUnit.activeSrc_setActiveSrc hread
    have h2 := ih h1
    rw [DecUnit.setActiveSrc_setActiveSrc h1 h2] at h2
    exact h2

@[simp] theorem DecUnit.readTo_self (u : DecUnit) : u.readTo u.activeSrc [] = u := by
  simp [DecUnit.readTo, DecUnit.setActiveSrc_self]

theorem DecUnit.readTo_activeSrc {u : DecUnit} {p : Source} {log : List SrcXact}
    (h : (u.setActiveSrc p).activeSrc = p) : (u.readTo p log).activeSrc = p := h

/-- The first of many reads, with a register write `f` after it. -/
theorem DecUnit.readTo_cons {u : DecUnit} {a : SrcAnswer} {p q : Source} {log : List SrcXact}
    (hp : (u.setActiveSrc p).activeSrc = p) (hq : ((u.setActiveSrc p).setActiveSrc q).activeSrc = q) :
    ((u.setActiveSrc p).logRead a).readTo q log = u.readTo q (⟨Config.readChunk, a⟩ :: log) := by
  have h := DecUnit.setActiveSrc_setActiveSrc hp hq
  have hl : ∀ v : DecUnit, (v.logRead a).setActiveSrc q = (v.setActiveSrc q).logRead a := by
    intro v
    unfold DecUnit.setActiveSrc
    simp only [DecUnit.logRead_packetSrc]
    split <;> rfl
  simp only [DecUnit.readTo, hl, h, DecUnit.logRead_srcLog, DecUnit.setActiveSrc_srcLog]
  simp [DecUnit.logRead]

/-- Register writes and what stands at `DEC.SRC` do not touch each other. -/
theorem DecUnit.setRegs_readTo (u : DecUnit) (b : Byte) (e : EscState) (m : Bool) (p : Source) (log : List SrcXact) :
    (((u.setPrev b).setEsc e).setMalformed m).readTo p log =
      (((u.readTo p log).setPrev b).setEsc e).setMalformed m := by
  unfold DecUnit.readTo DecUnit.setActiveSrc
  simp only [DecUnit.setMalformed_packetSrc, DecUnit.setEsc_packetSrc, DecUnit.setPrev_packetSrc]
  split <;> rfl

/-! ## The meaning of a wire byte sequence, byte by byte -/

/-- `DEC.ESC` after a decode step. -/
def stepEsc (e : EscState) (b : Byte) : EscState :=
  match e with
  | .normal => if b = ESC then .escaped else .normal
  | .escaped => .normal

/-- The data byte a decode step emits. -/
def stepData (e : EscState) (b : Byte) : Option Byte :=
  match e with
  | .normal => if b = END then none else if b = ESC then none else some b
  | .escaped => some (unescape b).1

/-- Whether a decode step is one of R126. -/
def stepBad (e : EscState) (b : Byte) : Bool :=
  match e with
  | .normal => false
  | .escaped => (unescape b).2

/-- Whether a decode step ends the packet (R121). -/
def stepEnds (e : EscState) (b : Byte) : Bool :=
  match e with
  | .normal => b == END
  | .escaped => false

/-- A decode step, row by row in one line. -/
theorem decodeStep_eq (u : DecUnit) (b : Byte) :
    decodeStep u b =
      (((u.setPrev b).setEsc (stepEsc u.esc b)).setMalformed (u.malformed || stepBad u.esc b), stepData u.esc b,
        if stepEnds u.esc b then .endOfPacket else .more) := by
  have e1 : ∀ v : DecUnit, (v.setEsc v.esc).setMalformed v.malformed = v := fun _ => rfl
  have e2 : ∀ v : DecUnit, v.setMalformed v.malformed = v := fun _ => rfl
  cases he : u.esc with
  | normal =>
    by_cases h1 : b = END
    · subst h1
      have := e1 (u.setPrev END)
      simp only [DecUnit.setPrev_esc, DecUnit.setPrev_malformed, he] at this
      simp [decodeStep_normal_end he, stepEsc, stepData, stepBad, stepEnds, END_ne_ESC, this]
    · by_cases h2 : b = ESC
      · subst h2
        have := e2 ((u.setPrev ESC).setEsc .escaped)
        simp only [DecUnit.setEsc_malformed, DecUnit.setPrev_malformed] at this
        simp [decodeStep_normal_esc he, stepEsc, stepData, stepBad, stepEnds, END_ne_ESC.symm, this]
      · have := e1 (u.setPrev b)
        simp only [DecUnit.setPrev_esc, DecUnit.setPrev_malformed, he] at this
        simp [decodeStep_normal_other he h1 h2, stepEsc, stepData, stepBad, stepEnds, h1, h2, this]
  | escaped =>
    have := e2 ((u.setPrev b).setEsc .normal)
    simp only [DecUnit.setEsc_malformed, DecUnit.setPrev_malformed] at this
    simp only [decodeStep, DecUnit.setPrev_esc, he, stepEsc, stepData, stepBad, stepEnds]
    cases hx : unescape b with
    | mk x m => cases m <;> simp [this]

/-- A step that ends the packet is an `END` in NORMAL and emits nothing (R121). -/
theorem stepEnds_spec {e : EscState} {b : Byte} (h : stepEnds e b = true) :
    e = .normal ∧ b = END ∧ stepData e b = none ∧ stepEsc e b = .normal ∧ stepBad e b = false := by
  cases e with
  | escaped => cases h
  | normal =>
    have hb : b = END := by simpa [stepEnds] using h
    subst hb
    exact ⟨rfl, rfl, rfl, rfl, rfl⟩

@[simp] theorem decodeWire_nil (e : EscState) : decodeWire e [] = ⟨[], e, false, [], false⟩ := by
  cases e <;> rfl

/-- The meaning of a wire byte sequence from its first byte. -/
theorem decodeWire_cons (e : EscState) (b : Byte) (bs : List Byte) :
    decodeWire e (b :: bs) =
      if stepEnds e b then ⟨[], .normal, false, [b], true⟩
      else
        ⟨(stepData e b).toList ++ (decodeWire (stepEsc e b) bs).data, (decodeWire (stepEsc e b) bs).esc,
          stepBad e b || (decodeWire (stepEsc e b) bs).malformed, b :: (decodeWire (stepEsc e b) bs).consumed,
          (decodeWire (stepEsc e b) bs).ended⟩ := by
  cases e with
  | normal =>
    by_cases h1 : b = END
    · simp [decodeWire, stepEnds, h1]
    · by_cases h2 : b = ESC
      · simp [decodeWire, stepEnds, stepEsc, stepData, stepBad, h2, END_ne_ESC.symm]
      · simp [decodeWire, stepEnds, stepEsc, stepData, stepBad, h1, h2]
  | escaped =>
    simp only [decodeWire, stepEnds, stepEsc, stepData, stepBad, unescape, Bool.false_eq_true, if_false]
    by_cases h1 : b = ESC_END
    · simp [h1]
    · by_cases h2 : b = ESC_ESC
      · have : ESC_ESC ≠ ESC_END := by decide
        simp [h2, this]
      · simp [h1, h2]

@[simp] theorem prevAfter_nil (prev : Byte) : prevAfter prev [] = prev := rfl
@[simp] theorem prevAfter_cons (prev b : Byte) (bs : List Byte) : prevAfter prev (b :: bs) = prevAfter b bs := by
  cases bs <;> simp [prevAfter, List.getLastD]

theorem prevAfter_append (prev : Byte) (bs cs : List Byte) :
    prevAfter prev (bs ++ cs) = prevAfter (prevAfter prev bs) cs := by
  induction bs generalizing prev with
  | nil => rfl
  | cons b bs ih => simp [ih]

/-! ## The scan -/

/-- The scan over reads that yield no `END`: the bytes are discarded, only `DEC.PREV` follows them (R129). -/
theorem decContinue_scan_reads {u : DecUnit} {w : List Byte} {log : List SrcXact} {p : Source}
    (hr : Reads u.activeSrc w log p) (hw : END ∉ w) :
    decContinue u (.wait .scan) = decContinue ((u.readTo p log).setPrev (prevAfter u.prev w)) (.wait .scan) := by
  generalize hs : u.activeSrc = s at hr
  induction hr generalizing u with
  | nil s =>
    subst hs
    rw [DecUnit.readTo_self]
    rfl
  | @again p0 p1 p2 bs log a hread hf hrest ih =>
    subst hs
    have h1 := DecUnit.activeSrc_setActiveSrc hread
    have h2 := Reads.activeSrc (u := (u.setActiveSrc p1)) (by rw [h1]; exact hrest)
    rw [decContinue_scan hread, hf]
    simp only [decScanned]
    rw [ih hw (by simpa using h1), DecUnit.readTo_cons h1 h2]
    simp
  | @byte p0 p1 p2 b bs log a hread hf hrest ih =>
    subst hs
    have h1 := DecUnit.activeSrc_setActiveSrc hread
    have h2 := Reads.activeSrc (u := (u.setActiveSrc p1)) (by rw [h1]; exact hrest)
    have hb : b ≠ END := fun h => hw (by simp [h])
    have hbs : END ∉ bs := fun h => hw (by simp [h])
    rw [decContinue_scan hread, hf]
    simp only [decScanned, hb, if_false]
    rw [ih hbs (by simpa using h1)]
    have := DecUnit.setRegs_readTo ((u.setActiveSrc p1).logRead a) b u.esc u.malformed p2 log
    have e1 : ((((u.setActiveSrc p1).logRead a).setPrev b).setEsc u.esc).setMalformed u.malformed =
        ((u.setActiveSrc p1).logRead a).setPrev b := by ext : 1 <;> simp
    rw [e1] at this
    rw [this, DecUnit.readTo_cons h1 h2]
    congr 1
    ext : 1 <;> simp [DecUnit.readTo]

/-! ## The decode loop -/

/-- One byte consumed in the decode loop, its emit accepted: the loop goes on (R120, R132). -/
theorem decContinue_consume {u : DecUnit} {b : Byte} {q : Sink} (he : stepEnds u.esc b = false)
    (hq : u.snk.accepts (stepData u.esc b).toList = some q) :
    decContinue (decConsume u b true).1 (decConsume u b true).2 =
      decContinue ((((u.setPrev b).setEsc (stepEsc u.esc b)).setMalformed
        (u.malformed || stepBad u.esc b)).hasWritten q (wrote (stepData u.esc b).toList)) (.wait (.fetch true)) := by
  unfold decConsume
  rw [decodeStep_eq, he]
  cases hx : stepData u.esc b with
  | none =>
    rw [hx] at hq
    cases hq
    simp only [Bool.false_eq_true, if_false, decGoOn]
    congr 1
    ext : 1 <;> simp [DecUnit.hasWritten]
  | some x =>
    rw [hx] at hq
    obtain ⟨q', hq', hq⟩ := Sink.accepts_cons.mp hq
    cases hq
    simp only [Bool.false_eq_true, if_false]
    rw [decContinue_emit_ok (by simpa using hq')]
    rfl

/-- The decode loop over reads that yield `w`, no `END` ending the packet, on a sink that accepts the data bytes. -/
theorem decContinue_loop_reads {u : DecUnit} {w : List Byte} {log : List SrcXact} {p : Source} {got : Bool} {q : Sink}
    (hr : Reads u.activeSrc w log p) (he : (decodeWire u.esc w).ended = false)
    (hq : u.snk.accepts (decodeWire u.esc w).data = some q) :
    decContinue u (.wait (.fetch got)) =
      decContinue (((u.readTo p log).decoded (decodeWire u.esc w)).hasWritten q (wrote (decodeWire u.esc w).data))
        (.wait (.fetch (got || !w.isEmpty))) := by
  generalize hs : u.activeSrc = s at hr
  induction hr generalizing u got with
  | nil s =>
    subst hs
    simp only [decodeWire_nil, Sink.accepts_nil, Option.some.injEq] at hq
    subst hq
    rw [DecUnit.readTo_self]
    congr 1
    · ext : 1 <;> simp [DecUnit.decoded, DecUnit.hasWritten]
    · simp
  | @again p0 p1 p2 bs log a hread hf hrest ih =>
    subst hs
    have h1 := DecUnit.activeSrc_setActiveSrc hread
    have h2 := Reads.activeSrc (u := (u.setActiveSrc p1)) (by rw [h1]; exact hrest)
    rw [decContinue_fetch hread, hf]
    simp only [decFetched]
    rw [ih (by simpa using he) (by simpa using hq) (by simpa using h1), DecUnit.readTo_cons h1 h2]
    simp
  | @byte p0 p1 p2 b bs log a hread hf hrest ih =>
    subst hs
    have h1 := DecUnit.activeSrc_setActiveSrc hread
    have h2 := Reads.activeSrc (u := (u.setActiveSrc p1)) (by rw [h1]; exact hrest)
    have hcons := DecUnit.readTo_cons (a := a) (log := log) h1 h2
    rw [decodeWire_cons] at he hq ⊢
    cases hends : stepEnds u.esc b with
    | true => simp [hends] at he
    | false =>
      simp only [hends, Bool.false_eq_true, if_false] at he hq ⊢
      obtain ⟨q1, hq1, hq⟩ := Sink.accepts_append.mp hq
      rw [decContinue_fetch hread, hf]
      simp only [decFetched]
      rw [decContinue_consume (q := q1) (by simpa using hends) (by simpa using hq1)]
      simp only [DecUnit.logRead_esc, DecUnit.setActiveSrc_esc, DecUnit.logRead_malformed,
        DecUnit.setActiveSrc_malformed]
      rw [ih (by simpa using he) (by simpa using hq) (by simpa using h1)]
      have e2 : ∀ (v : DecUnit) (m : Sink) (l : List SnkXact),
          (v.hasWritten m l).readTo p2 log = (v.readTo p2 log).hasWritten m l := by
        intro v m l
        unfold DecUnit.readTo DecUnit.setActiveSrc DecUnit.hasWritten
        dsimp only
        split <;> rfl
      rw [e2, DecUnit.setRegs_readTo, hcons]
      congr 1
      · ext : 1 <;> simp [DecUnit.decoded, DecUnit.hasWritten, Bool.or_assoc]
      · simp

/-! ## A transfer -/

/-- Where the scan ends: at the first `END`, or nowhere. -/
theorem scanWire_spec (w : List Byte) :
    (scanWire w = none ∧ END ∉ w) ∨
    ∃ noise rest, scanWire w = some (noise ++ [END], rest) ∧ w = noise ++ END :: rest ∧ END ∉ noise := by
  induction w with
  | nil => exact .inl ⟨rfl, by simp⟩
  | cons b bs ih =>
    by_cases hb : b = END
    · subst hb
      exact .inr ⟨[], bs, by simp [scanWire], rfl, by simp⟩
    · obtain ⟨h1, h2⟩ | ⟨noise, rest, h1, rfl, h3⟩ := ih
      · exact .inl ⟨by simp [scanWire, hb, h1], by simp [Ne.symm hb, h2]⟩
      · exact .inr ⟨b :: noise, rest, by simp [scanWire, hb, h1], rfl, by simp [Ne.symm hb, h3]⟩

/-- Reads that yield one sequence and then another, taken apart. -/
theorem Reads.append_inv {p q : Source} {xs ys : List Byte} {log : List SrcXact} (h : Reads p (xs ++ ys) log q) :
    ∃ l m mid, log = l ++ m ∧ Reads p xs l mid ∧ Reads mid ys m q := by
  generalize hz : xs ++ ys = zs at h
  induction h generalizing xs with
  | nil s =>
    obtain ⟨rfl, rfl⟩ := List.append_eq_nil_iff.mp hz
    exact ⟨[], [], s, rfl, .nil s, .nil s⟩
  | again hread hf hrest ih =>
    obtain ⟨l, m, mid, rfl, h1, h2⟩ := ih hz
    exact ⟨_ :: l, m, mid, rfl, .again hread hf h1, h2⟩
  | @byte p0 p1 p2 b bs log a hread hf hrest ih =>
    cases xs with
    | nil =>
      simp only [List.nil_append] at hz
      subst hz
      exact ⟨[], _, p0, rfl, .nil p0, .byte hread hf hrest⟩
    | cons x xs =>
      obtain ⟨rfl, htail⟩ := List.cons.inj hz
      obtain ⟨l, m, mid, rfl, h1, h2⟩ := ih htail
      exact ⟨_ :: l, m, mid, rfl, .byte hread hf h1, h2⟩

/-- Reads one after the other. -/
theorem Reads.append {p q r : Source} {xs ys : List Byte} {l m : List SrcXact} (h : Reads p xs l q)
    (h' : Reads q ys m r) : Reads p (xs ++ ys) (l ++ m) r := by
  induction h with
  | nil s => exact h'
  | again hread hf _ ih => exact .again hread hf (ih h')
  | byte hread hf _ ih => exact .byte hread hf (ih h')

/-- Reads that yield a byte first: short reads, then that byte. -/
theorem Reads.cons_inv {p q : Source} {b : Byte} {bs : List Byte} {log : List SrcXact} (h : Reads p (b :: bs) log q) :
    ∃ l m mid mid' a, log = l ++ ⟨Config.readChunk, a⟩ :: m ∧ Reads p [] l mid ∧
      mid.read Config.readChunk = some (a, mid') ∧ fetchByte a = .byte b ∧ Reads mid' bs m q := by
  generalize hz : b :: bs = zs at h
  induction h with
  | nil s => cases hz
  | again hread hf hrest ih =>
    obtain ⟨l, m, mid, mid', a, rfl, h1, h2⟩ := ih hz
    exact ⟨_ :: l, m, mid, mid', a, rfl, .again hread hf h1, h2⟩
  | @byte p0 p1 p2 b' bs' log a hread hf hrest ih =>
    obtain ⟨rfl, rfl⟩ := List.cons.inj hz
    exact ⟨[], log, p0, p1, a, rfl, .nil p0, hread, hf, hrest⟩

theorem DecUnit.readTo_readTo {u : DecUnit} {p q : Source} {l m : List SrcXact}
    (hp : (u.setActiveSrc p).activeSrc = p) (hq : ((u.setActiveSrc p).setActiveSrc q).activeSrc = q) :
    (u.readTo p l).readTo q m = u.readTo q (l ++ m) := by
  have hl : (u.readTo p l).setActiveSrc q = { u.setActiveSrc q with srcLog := u.srcLog ++ l } := by
    rw [← DecUnit.setActiveSrc_setActiveSrc hp hq]
    unfold DecUnit.readTo DecUnit.setActiveSrc
    cases u with
    | mk a b c d e ps f g h i j => cases ps <;> cases p <;> cases q <;> rfl
  show { (u.readTo p l).setActiveSrc q with srcLog := (u.readTo p l).srcLog ++ m } = _
  rw [hl, DecUnit.readTo_srcLog, List.append_assoc]
  rfl

/-- A transfer over reads that yield `w`, no `END` having ended the packet, on a sink that accepts the data bytes
(R129, R132). -/
theorem decContinue_transfer_reads {u : DecUnit} {w : List Byte} {log : List SrcXact} {p : Source} {q : Sink}
    (hr : Reads u.activeSrc w log p) (he : (transferWire u.reqStart u.esc w).ended = false)
    (hq : u.snk.accepts (transferWire u.reqStart u.esc w).data = some q) :
    decContinue u (decTransferStart u) =
      decContinue (((u.readTo p log).decoded (transferWire u.reqStart u.esc w)).hasWritten q
        (wrote (transferWire u.reqStart u.esc w).data)) (.wait (transferWait u.reqStart w)) := by
  unfold decTransferStart transferWait
  cases hreq : u.reqStart with
  | false =>
    simp only [hreq, transferWire, Bool.false_eq_true, if_false, Bool.false_and] at he hq ⊢
    rw [decContinue_loop_reads hr he hq]
    simp
  | true =>
    obtain ⟨h1, h2⟩ | ⟨noise, rest, h1, rfl, h3⟩ := scanWire_spec w
    · simp only [hreq, transferWire, h1, if_true, Sink.accepts_nil, Option.some.injEq] at he hq ⊢
      subst hq
      rw [decContinue_scan_reads hr h2]
      simp only [Option.isNone_none, Bool.and_self, if_true]
      congr 1
      ext : 1 <;> simp [DecUnit.decoded, DecUnit.hasWritten]
    · simp only [hreq, transferWire, h1, if_true] at he hq ⊢
      obtain ⟨l, m, mid, rfl, hr1, hr2⟩ := hr.append_inv
      obtain ⟨l', m', mid', mid'', a, rfl, hr3, hread, hf, hr4⟩ := hr2.cons_inv
      have hr13 := hr1.append hr3
      rw [List.append_nil] at hr13
      have ha1 := Reads.activeSrc hr13
      have hread' : ((u.readTo mid' (l ++ l')).setPrev (prevAfter u.prev noise)).activeSrc.read Config.readChunk =
          some (a, mid'') := by
        rw [DecUnit.activeSrc_setPrev, DecUnit.readTo_activeSrc ha1]; exact hread
      rw [decContinue_scan_reads hr13 h3, decContinue_scan hread', hf]
      simp only [decScanned, if_true]
      have hset : ((((u.readTo mid' (l ++ l')).setPrev (prevAfter u.prev noise)).setActiveSrc mid'').logRead a).setPrev
          END = (u.readTo mid'' (l ++ l' ++ [⟨Config.readChunk, a⟩])).setPrev END := by
        have h2 : ((u.setActiveSrc mid').setActiveSrc mid'').activeSrc = mid'' :=
          DecUnit.activeSrc_setActiveSrc (by rw [ha1]; exact hread)
        rw [← DecUnit.readTo_readTo ha1 h2]
        unfold DecUnit.readTo DecUnit.setActiveSrc
        cases u with
        | mk a b c d e ps f g h i j => cases ps <;> cases mid' <;> cases mid'' <;> rfl
      rw [hset]
      have ha2 : (u.setActiveSrc mid'').activeSrc = mid'' := by
        have h2 : ((u.setActiveSrc mid').setActiveSrc mid'').activeSrc = mid'' :=
          DecUnit.activeSrc_setActiveSrc (by rw [ha1]; exact hread)
        rw [DecUnit.setActiveSrc_setActiveSrc ha1 h2] at h2
        exact h2
      have ha3 : (((u.readTo mid'' (l ++ l' ++ [⟨Config.readChunk, a⟩])).setPrev END).setEsc .normal).activeSrc =
          mid'' := ha2
      rw [decContinue_loop_reads (log := m') (p := p) (q := q) (by rw [ha3]; exact hr4) (by simpa using he)
        (by simpa using hq)]
      have h4 : ((u.setActiveSrc mid'').setActiveSrc p).activeSrc = p :=
        Reads.activeSrc (by rw [ha2]; exact hr4)
      have hfin : (((u.readTo mid'' (l ++ l' ++ [⟨Config.readChunk, a⟩])).setPrev END).setEsc .normal).readTo p m' =
          ((u.readTo p (l ++ (l' ++ ⟨Config.readChunk, a⟩ :: m'))).setPrev END).setEsc .normal := by
        have := DecUnit.setRegs_readTo (u.readTo mid'' (l ++ l' ++ [⟨Config.readChunk, a⟩])) END .normal u.malformed p
          m'
        rw [DecUnit.readTo_readTo ha2 h4] at this
        have e1 : ∀ v : DecUnit, v.malformed = u.malformed → v.setMalformed u.malformed = v := by
          intro v hv; ext : 1 <;> simp [hv]
        rw [e1 _ (by simp), e1 _ (by simp)] at this
        simpa using this
      rw [hfin]
      simp only [DecUnit.setEsc_esc]
      congr 1
      · ext : 1 <;> simp [DecUnit.decoded, DecUnit.hasWritten, prevAfter_append]
      · simp

end Sys2Proof.Machine
end

