-- ==== Sys2Proof/Laws/DecoderEnds.lean ====
section
/-! SUPPORT. How a transfer of the decoder ends after the reads of Laws/DecoderRuns.lean: at the end of the source, at
a failed read, and at the `END` of the packet; and what one more wire byte adds to a wire byte sequence. -/

namespace Sys2Proof.Machine

/-- One more wire byte after a sequence that ended no packet (R121 to R126). -/
theorem decodeWire_snoc {e : EscState} {w : List Byte} (b : Byte) (h : (decodeWire e w).ended = false) :
    decodeWire e (w ++ [b]) =
      if stepEnds (decodeWire e w).esc b then
        ⟨(decodeWire e w).data, .normal, (decodeWire e w).malformed, (decodeWire e w).consumed ++ [b], true⟩
      else
        ⟨(decodeWire e w).data ++ (stepData (decodeWire e w).esc b).toList, stepEsc (decodeWire e w).esc b,
          (decodeWire e w).malformed || stepBad (decodeWire e w).esc b, (decodeWire e w).consumed ++ [b], false⟩ := by
  induction w generalizing e with
  | nil => simp [decodeWire_cons]
  | cons c cs ih =>
    rw [decodeWire_cons] at h
    split at h
    · simp at h
    · rename_i hn
      simp only [List.cons_append]
      rw [decodeWire_cons, decodeWire_cons, if_neg hn, if_neg hn, ih h]
      simp only
      split <;> simp [Bool.or_assoc]

/-- One more wire byte under the scan (R129). -/
theorem scanWire_snoc (w : List Byte) (b : Byte) :
    scanWire (w ++ [b]) =
      match scanWire w with
      | some (pre, rest) => some (pre, rest ++ [b])
      | none => if b = END then some (w ++ [b], []) else none := by
  induction w with
  | nil => simp [scanWire]
  | cons c cs ih =>
    simp only [List.cons_append, scanWire]
    split
    · rfl
    · rw [ih]
      cases scanWire cs with
      | none => by_cases hb : b = END <;> simp [hb]
      | some x => simp

/-- A sequence whose bytes are all consumed, the last one too, ends no packet before the last. -/
theorem transferWire_not_ended_of_consumed {r : Bool} {e : EscState} {w : List Byte} {b : Byte}
    (h : (transferWire r e (w ++ [b])).consumed = w ++ [b]) : (transferWire r e w).ended = false := by
  by_contra hne
  have hend : (transferWire r e w).ended = true := by simpa using hne
  have stop : ∀ e w x, (decodeWire e w).ended = true →
      (decodeWire e (w ++ x)).consumed = (decodeWire e w).consumed ∧ (decodeWire e w).consumed.length ≤ w.length := by
    intro e w x
    induction w generalizing e with
    | nil => simp
    | cons c cs ih =>
      simp only [List.cons_append]
      rw [decodeWire_cons, decodeWire_cons]
      split
      · simp
      · intro h'
        have := ih _ h'
        simp [this.1, this.2]
  unfold transferWire at h hend
  cases r with
  | false =>
    simp only [Bool.false_eq_true, if_false] at h hend
    obtain ⟨h1, h2⟩ := stop e w [b] hend
    rw [← h1, h] at h2
    simp at h2
  | true =>
    simp only [if_true] at h hend
    rw [scanWire_snoc] at h
    obtain ⟨hs, -⟩ | ⟨noise, rest, hs, rfl, -⟩ := scanWire_spec w
    · simp [hs] at hend
    · simp only [hs] at h hend
      obtain ⟨h1, h2⟩ := stop .normal rest [b] hend
      rw [h1] at h
      have := congrArg List.length h
      simp at this
      omega

/-- A transfer whose reads are followed by one more, which leaves `p'`: the unit after that read. -/
theorem transfer_read {u : DecUnit} {w : List Byte} {log : List SrcXact} {p p' : Source} {a : SrcAnswer} (d : Decoded)
    (q : Sink) (hr : Reads u.activeSrc w log p) (hread : p.read Config.readChunk = some (a, p')) :
    (((((u.readTo p log).decoded d).hasWritten q (wrote d.data)).setActiveSrc p').logRead a) =
      ((u.readTo p' (log ++ [⟨Config.readChunk, a⟩])).decoded d).hasWritten q (wrote d.data) := by
  have ha := Reads.activeSrc hr
  have h2 : ((u.setActiveSrc p).setActiveSrc p').activeSrc = p' :=
    DecUnit.activeSrc_setActiveSrc (by rw [ha]; exact hread)
  rw [← DecUnit.readTo_readTo ha h2]
  unfold DecUnit.readTo DecUnit.setActiveSrc
  cases u with
  | mk a b c d e ps f g h i j => cases ps <;> cases p <;> cases p' <;> rfl

/-- A transfer that meets the end of the source (R133). -/
theorem decContinue_transfer_eof {u : DecUnit} {w : List Byte} {log : List SrcXact} {p p' : Source} {q : Sink}
    (hr : Reads u.activeSrc w log p) (he : (transferWire u.reqStart u.esc w).ended = false)
    (hq : u.snk.accepts (transferWire u.reqStart u.esc w).data = some q)
    (hread : p.read Config.readChunk = some (eofAnswer, p')) :
    decContinue u (decTransferStart u) =
      (((u.readTo p' (log ++ readEof)).decoded (transferWire u.reqStart u.esc w)).hasWritten q
        (wrote (transferWire u.reqStart u.esc w).data)).endCommand
          (.plain (transferCode u.reqStart u.esc w)) := by
  have ha := Reads.activeSrc hr
  rw [decContinue_transfer_reads hr he hq]
  have hu := transfer_read (transferWire u.reqStart u.esc w) q hr hread
  have hcode : transferCode u.reqStart u.esc w =
      if w = [] then .startByteNotFound
      else if u.reqStart && (scanWire w).isNone then .startByteNotFound else .incompletePacket := by
    simp [transferCode, he]
  have hact : ∀ d : Decoded, (((u.readTo p log).decoded d).hasWritten q (wrote d.data)).activeSrc.read
      Config.readChunk = some (eofAnswer, p') := by
    intro d
    simpa [DecUnit.readTo_activeSrc ha] using hread
  rw [hcode]
  unfold transferWait
  split
  · rw [decContinue_scan (hact _), fetchByte_eofAnswer]
    simp only [decScanned, decContinue_done, DecOutcome.response]
    rw [hu]
    simp [readEof]
  · rw [decContinue_fetch (hact _), fetchByte_eofAnswer]
    simp only [decFetched, decContinue_done]
    rw [hu]
    cases w <;> simp [DecOutcome.response, readEof]

/-- A transfer that meets a failed read, in the scan or in the loop (R133). -/
theorem decContinue_transfer_ioFail {u : DecUnit} {w : List Byte} {log : List SrcXact} {p p' : Source} {q : Sink}
    {a : SrcAnswer} (hr : Reads u.activeSrc w log p) (he : (transferWire u.reqStart u.esc w).ended = false)
    (hq : u.snk.accepts (transferWire u.reqStart u.esc w).data = some q)
    (hread : p.read Config.readChunk = some (a, p')) (hf : fetchByte a = .ioFail) :
    decContinue u (decTransferStart u) =
      (((u.readTo p' (log ++ [⟨Config.readChunk, a⟩])).decoded (transferWire u.reqStart u.esc w)).hasWritten q
        (wrote (transferWire u.reqStart u.esc w).data)).endCommand (.plain .ioError) := by
  have ha := Reads.activeSrc hr
  rw [decContinue_transfer_reads hr he hq]
  have hu := transfer_read (transferWire u.reqStart u.esc w) q hr hread
  have hact : ∀ d : Decoded, (((u.readTo p log).decoded d).hasWritten q (wrote d.data)).activeSrc.read
      Config.readChunk = some (a, p') := by
    intro d
    simpa [DecUnit.readTo_activeSrc ha] using hread
  unfold transferWait
  split
  · rw [decContinue_scan (hact _), hf]
    simp only [decScanned, decContinue_done, DecOutcome.response]
    rw [hu]
  · rw [decContinue_fetch (hact _), hf]
    simp only [decFetched, decContinue_done, DecOutcome.response]
    rw [hu]

/-- The byte that ends a packet is an `END` in NORMAL, read by the loop. -/
theorem transferWire_ends {r : Bool} {e : EscState} {w : List Byte} {b : Byte}
    (he : (transferWire r e w).ended = false) (hend : (transferWire r e (w ++ [b])).ended = true) :
    transferWait r w = .fetch (!w.isEmpty) ∧ (transferWire r e w).esc = .normal ∧ b = END ∧
      transferWire r e (w ++ [b]) =
        ⟨(transferWire r e w).data, .normal, (transferWire r e w).malformed, (transferWire r e w).consumed ++ [b],
          true⟩ := by
  unfold transferWait
  unfold transferWire at he hend ⊢
  cases r with
  | false =>
    simp only [Bool.false_eq_true, if_false] at he hend ⊢
    rw [decodeWire_snoc _ he] at hend ⊢
    split at hend
    · rename_i hs
      obtain ⟨h1, h2, -⟩ := stepEnds_spec hs
      simp [h1, h2, stepEnds]
    · simp at hend
  | true =>
    simp only [if_true] at he hend ⊢
    rw [scanWire_snoc] at hend ⊢
    cases hsc : scanWire w with
    | none =>
      simp only [hsc] at hend
      by_cases hb : b = END <;> simp [hb, decodeWire] at hend
    | some x =>
      simp only [hsc] at he hend ⊢
      rw [decodeWire_snoc _ he] at hend ⊢
      split at hend
      · rename_i hs
        obtain ⟨h1, h2, -⟩ := stepEnds_spec hs
        simp [h1, h2, stepEnds]
      · simp at hend

/-- A transfer that meets the `END` of the packet: no read follows (R121, R132). -/
theorem decContinue_transfer_end {u : DecUnit} {w : List Byte} {b : Byte} {log : List SrcXact} {p p' : Source}
    {q : Sink} {a : SrcAnswer} (hr : Reads u.activeSrc w log p)
    (he : (transferWire u.reqStart u.esc w).ended = false)
    (hq : u.snk.accepts (transferWire u.reqStart u.esc (w ++ [b])).data = some q)
    (hread : p.read Config.readChunk = some (a, p')) (hf : fetchByte a = .byte b)
    (hend : (transferWire u.reqStart u.esc (w ++ [b])).ended = true) :
    decContinue u (decTransferStart u) =
      (((u.readTo p' (log ++ [⟨Config.readChunk, a⟩])).decoded (transferWire u.reqStart u.esc (w ++ [b]))).hasWritten q
        (wrote (transferWire u.reqStart u.esc (w ++ [b])).data)).endCommand (.plain .endOfPacket) := by
  have ha := Reads.activeSrc hr
  obtain ⟨hwait, hesc, rfl, hd⟩ := transferWire_ends he hend
  rw [hd] at hq ⊢
  rw [decContinue_transfer_reads hr he hq, hwait,
    decContinue_fetch (a := a) (p := p') (by simpa [DecUnit.readTo_activeSrc ha] using hread), hf]
  simp only [decFetched, decConsume]
  rw [decodeStep_normal_end (by simpa using hesc)]
  simp only [decGoOn, decContinue_done, DecOutcome.response]
  rw [transfer_read _ q hr hread]
  congr 1
  ext : 1 <;> simp [DecUnit.decoded, DecUnit.hasWritten, prevAfter_append, hesc]

end Sys2Proof.Machine
end

