-- ==== Sys2Proof/Laws/Encoder.lean ====
section
/-! SUPPORT. What the encoder's shared operations can do: a command goes on transaction by transaction
(`encContinue_wait`), its fuel is never used up (`encRun_settles`), and whatever every transaction keeps, a whole
command keeps (`encContinue_rec`). -/

namespace Sys2Proof.Machine

/-- A stuffed byte is one byte or an `ESC` and one byte (R100). -/
theorem stuff_cases (b : Byte) :
    (b = END ∧ stuff b = [ESC, ESC_END]) ∨ (b = ESC ∧ stuff b = [ESC, ESC_ESC]) ∨
    (b ≠ END ∧ b ≠ ESC ∧ stuff b = [b]) := by
  unfold stuff
  split
  · exact .inl ⟨‹_›, rfl⟩
  · split
    · exact .inr (.inl ⟨‹_›, rfl⟩)
    · exact .inr (.inr ⟨‹_›, ‹_›, rfl⟩)

theorem stuff_length (b : Byte) : 1 ≤ (stuff b).length ∧ (stuff b).length ≤ 2 := by
  obtain ⟨-, h⟩ | ⟨-, h⟩ | ⟨-, -, h⟩ := stuff_cases b <;> simp [h]

theorem stuff_ne_nil (b : Byte) : stuff b ≠ [] := by
  have := (stuff_length b).1
  intro h; simp [h] at this

@[simp] theorem frame_nil (s : Bool) : frame [] s = leadingEnd s ++ [END] := by simp [frame]

/-! ## Between two transactions -/

@[simp] theorem encGoOn_cons (b : Byte) (out : List Byte) (k : EncThen) :
    encGoOn (b :: out) k = .wait (.write b out k) := rfl
@[simp] theorem encGoOn_finish : encGoOn [] .finish = .done .ok := rfl
@[simp] theorem encGoOn_fetch : encGoOn [] .fetch = .wait .read := rfl

/-- ENC_PACKET's next payload byte is stuffed (R104). -/
theorem encGoOn_payload_some {p : List Byte} {i : Nat} {b : Byte} (h : p[i]? = some b) :
    encGoOn [] (.payload p i) = encGoOn (stuff b) (.payload p (i + 1)) := by
  simp only [encGoOn, h]
  split
  · rfl
  · exact absurd ‹_› (stuff_ne_nil b)

/-- After its last payload byte ENC_PACKET writes the terminating `END` (R104). -/
theorem encGoOn_payload_none {p : List Byte} {i : Nat} (h : p[i]? = none) :
    encGoOn [] (.payload p i) = encGoOn [END] .finish := by
  simp [encGoOn, h]

/-! ## The fuel is enough -/

theorem encWork_encGoOn (u : EncUnit) (out : List Byte) (k : EncThen) :
    encWork u (encGoOn out k) ≤ out.length + encThenWork u.src.supply k := by
  cases out with
  | cons b out => simp only [encGoOn_cons, encWork, List.length_cons]; omega
  | nil =>
    cases k with
    | finish => simp [encWork]
    | fetch => simp [encWork, encThenWork]
    | payload p i =>
      cases h : p[i]? with
      | none => rw [encGoOn_payload_none h]; simp [encWork, encThenWork]
      | some b =>
        rw [encGoOn_payload_some h]
        have hi : i < p.length := (List.getElem?_eq_some_iff.mp h).1
        obtain ⟨-, hs⟩ | ⟨-, hs⟩ | ⟨-, -, hs⟩ := stuff_cases b <;>
          simp only [hs, encGoOn_cons, encWork, encThenWork, List.length_cons, List.length_nil] <;> omega

/-- All an answered transaction of the encoder can be: a write, or ENC_TRANSFER's read. -/
theorem encTransact_cases {u u' : EncUnit} {t : EncTask} {p : EncProgress} (h : encTransact u t = some (u', p)) :
    (∃ b out k st q, t = .write b out k ∧ u.snk.write [b] = some (st, q) ∧ u' = u.afterWrite q b st ∧
      p = encWritten out k (putByte st)) ∨
    (∃ a q, t = .read ∧ u.src.read Config.readChunk = some (a, q) ∧ u' = u.afterRead q a ∧
      p = encFetched (fetchByte a)) := by
  cases t with
  | write b out k =>
    simp only [encTransact] at h
    split at h
    · cases h
    · obtain ⟨q, hq, rfl⟩ := EncUnit.write_some ‹_›
      simp only [Option.some.injEq, Prod.mk.injEq] at h
      exact .inl ⟨b, out, k, _, q, rfl, hq, h.1.symm, h.2.symm⟩
  | read =>
    simp only [encTransact] at h
    split at h
    · cases h
    · obtain ⟨q, hq, rfl⟩ := EncUnit.read_some ‹_›
      simp only [Option.some.injEq, Prod.mk.injEq] at h
      exact .inr ⟨_, q, rfl, hq, h.1.symm, h.2.symm⟩

/-- Every answered transaction leaves less work. -/
theorem encTransact_work {u u' : EncUnit} {t : EncTask} {p : EncProgress} (h : encTransact u t = some (u', p)) :
    encWork u' p < encWork u (.wait t) := by
  obtain ⟨b, out, k, st, q, rfl, -, rfl, rfl⟩ | ⟨a, q, rfl, hq, rfl, rfl⟩ := encTransact_cases h
  · cases putByte st with
    | ioFail => simp only [encWritten, encWork]; omega
    | done =>
      have := encWork_encGoOn (u.afterWrite q b st) out k
      simp only [encWritten, encWork, EncUnit.afterWrite_src] at this ⊢
      omega
  · have hsup := Source.read_supply hq
    cases hf : fetchByte a with
    | ioFail => simp [encFetched, encWork]
    | eos => simp [encFetched, encWork, encThenWork]
    | again =>
      have := hsup.1 (by rw [fetchByte_again hf])
      simp only [encFetched, encWork, EncUnit.afterRead_src]; omega
    | byte b =>
      have := hsup.1 (by rw [fetchByte_byte hf])
      have hg := encWork_encGoOn (u.afterRead q a) (stuff b) .fetch
      have := (stuff_length b).2
      simp only [encFetched, encWork, encThenWork, EncUnit.afterRead_src] at hg ⊢
      omega

/-- More fuel than the work there is changes nothing. -/
theorem encRun_fuel {n m : Nat} {u : EncUnit} {p : EncProgress} (hn : encWork u p ≤ n) (hm : encWork u p ≤ m) :
    encRun n u p = encRun m u p := by
  induction n generalizing m u p with
  | zero =>
    cases p with
    | done r => cases m <;> rfl
    | wait t => cases t <;> simp [encWork] at hn
  | succ n ih =>
    cases p with
    | done r => cases m <;> rfl
    | wait t =>
      cases m with
      | zero => cases t <;> simp [encWork] at hm
      | succ m =>
        simp only [encRun]
        cases h : encTransact u t with
        | none => rfl
        | some x =>
          have := encTransact_work h
          exact ih (by omega) (by omega)

/-- A run ends where the command returned or where its transaction is unanswered. -/
theorem encRun_settles {n : Nat} {u : EncUnit} {p : EncProgress} (hn : encWork u p ≤ n) {t : EncTask}
    (h : (encRun n u p).2 = .wait t) : encTransact (encRun n u p).1 t = none := by
  induction n generalizing u p with
  | zero =>
    cases p with
    | done r => cases h
    | wait t => cases t <;> simp [encWork] at hn
  | succ n ih =>
    cases p with
    | done r => cases h
    | wait t' =>
      simp only [encRun] at h ⊢
      cases hx : encTransact u t' with
      | none => simp only [hx] at h ⊢; cases h; exact hx
      | some x =>
        have := encTransact_work hx
        simp only [hx] at h ⊢
        exact ih (by omega) h

/-! ## A command, transaction by transaction -/

@[simp] theorem encContinue_done (u : EncUnit) (r : EncOutcome) :
    encContinue u (.done r) = u.endCommand r.response := rfl

/-- A command that waits at an unanswered transaction stays there. -/
theorem encContinue_wait_none {u : EncUnit} {t : EncTask} (h : encTransact u t = none) :
    encContinue u (.wait t) = u.waitAt t := by
  have : encRun (encWork u (.wait t)) u (.wait t) = (u, .wait t) := by
    cases encWork u (.wait t) with
    | zero => rfl
    | succ n => simp [encRun, h]
  rw [encContinue, this]; rfl

/-- A command whose transaction is answered goes on from there. -/
theorem encContinue_wait_some {u u' : EncUnit} {t : EncTask} {p : EncProgress} (h : encTransact u t = some (u', p)) :
    encContinue u (.wait t) = encContinue u' p := by
  have hlt := encTransact_work h
  have : encRun (encWork u (.wait t)) u (.wait t) = encRun (encWork u' p) u' p := by
    obtain ⟨n, hn⟩ : ∃ n, encWork u (.wait t) = n + 1 := ⟨_, (Nat.succ_pred_eq_of_pos (by omega)).symm⟩
    rw [hn]
    simp only [encRun, h]
    exact encRun_fuel (by omega) (le_refl _)
  rw [encContinue, this, encContinue]

/-- A command's continuation, unfolded once. -/
theorem encContinue_wait (u : EncUnit) (t : EncTask) :
    encContinue u (.wait t) =
      match encTransact u t with
      | none => u.waitAt t
      | some (u', p) => encContinue u' p := by
  cases h : encTransact u t with
  | none => exact encContinue_wait_none h
  | some x => exact encContinue_wait_some h

/-- What every answered transaction keeps, a command keeps up to its return or the transaction it waits at. -/
theorem encContinue_rec {Q : EncUnit → EncProgress → Prop} {R : EncUnit → Prop}
    (hstep : ∀ u t u' p, Q u (.wait t) → encTransact u t = some (u', p) → Q u' p)
    (hdone : ∀ u r, Q u (.done r) → R (u.endCommand r.response))
    (hwait : ∀ u t, Q u (.wait t) → encTransact u t = none → R (u.waitAt t))
    {u : EncUnit} {p : EncProgress} (h : Q u p) : R (encContinue u p) := by
  generalize hn : encWork u p = n
  induction n using Nat.strong_induction_on generalizing u p with
  | _ n ih =>
    cases p with
    | done r => exact hdone _ _ h
    | wait t =>
      cases ht : encTransact u t with
      | none => rw [encContinue_wait_none ht]; exact hwait _ _ h ht
      | some x =>
        rw [encContinue_wait_some ht]
        exact ih _ (hn ▸ encTransact_work ht) (hstep _ _ _ _ h ht) rfl

/-- A write that is answered `Ok`: the command goes on with the rest. -/
theorem encContinue_write_ok {u : EncUnit} {b : Byte} {out : List Byte} {k : EncThen} {p : Sink}
    (h : u.snk.write [b] = some (.ok, p)) :
    encContinue u (.wait (.write b out k)) = encContinue (u.afterWrite p b .ok) (encGoOn out k) :=
  encContinue_wait_some (by simp [encTransact, EncUnit.write_eq h, putByte, encWritten])

/-- A write that fails ends the command with IO_ERROR (R48). -/
theorem encContinue_write_fail {u : EncUnit} {b : Byte} {out : List Byte} {k : EncThen} {p : Sink} {st : SnkStatus}
    (h : u.snk.write [b] = some (st, p)) (hst : st ≠ .ok) :
    encContinue u (.wait (.write b out k)) = (u.afterWrite p b st).endCommand (.plain .ioError) := by
  rw [encContinue_wait_some (u' := u.afterWrite p b st) (p := .done .ioError)]
  · rfl
  · cases st <;> simp_all [encTransact, EncUnit.write_eq h, putByte, encWritten]

/-- A read that is answered: ENC_TRANSFER goes on with what it fetched (R105). -/
theorem encContinue_read {u : EncUnit} {a : SrcAnswer} {p : Source}
    (h : u.src.read Config.readChunk = some (a, p)) :
    encContinue u (.wait .read) = encContinue (u.afterRead p a) (encFetched (fetchByte a)) :=
  encContinue_wait_some (by simp [encTransact, EncUnit.read_eq h])

/-- Whatever the encoder waits at or returns, everything but its task, ports, records and responses is as before. -/
theorem encContinue_useStart (u : EncUnit) (p : EncProgress) : (encContinue u p).useStart = u.useStart := by
  refine encContinue_rec (Q := fun v _ => v.useStart = u.useStart) (R := fun v => v.useStart = u.useStart)
    ?_ ?_ ?_ rfl
  · intro v t v' q hv ht
    obtain ⟨_, _, _, _, _, -, -, rfl, -⟩ | ⟨_, _, -, -, rfl, -⟩ := encTransact_cases ht <;> exact hv
  · intro v r hv; exact hv
  · intro v t hv _; exact hv

/-! ## Commands -/

/-- All a command of the encoder can do: it runs on an idle unit, and only the encoder changes (R57). -/
theorem onEnc_cases {s : State} {u : EncUnit} {o : Host.Outcome State Fault Refusal} (h : onEnc s u = o) :
    (s.enc.busy = false ∧ o = .next (s.setEnc u)) ∨ (s.enc.busy = true ∧ o = .refused (.unitBusy .encoder)) := by
  unfold onEnc at h
  cases hb : s.enc.busy <;> simp [hb] at h <;> simp [h]

theorem onEnc_idle {s : State} {u : EncUnit} (h : s.enc.busy = false) : onEnc s u = .next (s.setEnc u) := by
  simp [onEnc, h]

theorem onEnc_busy {s : State} {u : EncUnit} (h : s.enc.busy = true) :
    onEnc s u = .refused (.unitBusy .encoder) := by
  simp [onEnc, h]

end Sys2Proof.Machine
end

