-- ==== Sys2Proof/Laws/EncoderRuns.lean ====
section
/-! SUPPORT. What the encoder does over many transactions: the bytes a command still has to write (`encRest`), drained
into a sink that accepts them or fails, and ENC_TRANSFER's loop over the reads of a source. -/

namespace Sys2Proof.Machine

/-- The encoder after accepted or failed writes. -/
def EncUnit.hasWritten (u : EncUnit) (p : Sink) (log : List SnkXact) : EncUnit :=
  { u with snk := p, snkLog := u.snkLog ++ log }

@[simp] theorem EncUnit.hasWritten_snk (u : EncUnit) (p : Sink) (log : List SnkXact) :
    (u.hasWritten p log).snk = p := rfl
@[simp] theorem EncUnit.hasWritten_src (u : EncUnit) (p : Sink) (log : List SnkXact) :
    (u.hasWritten p log).src = u.src := rfl
@[simp] theorem EncUnit.hasRead_snk (u : EncUnit) (p : Source) (log : List SrcXact) :
    (u.hasRead p log).snk = u.snk := rfl
@[simp] theorem EncUnit.hasRead_src (u : EncUnit) (p : Source) (log : List SrcXact) :
    (u.hasRead p log).src = p := rfl

theorem EncUnit.afterWrite_eq_hasWritten (u : EncUnit) (p : Sink) (b : Byte) (st : SnkStatus) :
    u.afterWrite p b st = u.hasWritten p [⟨[b], st⟩] := rfl

theorem EncUnit.afterRead_eq_hasRead (u : EncUnit) (p : Source) (a : SrcAnswer) :
    u.afterRead p a = u.hasRead p [⟨Config.readChunk, a⟩] := rfl

@[simp] theorem EncUnit.hasWritten_hasWritten (u : EncUnit) (p q : Sink) (l m : List SnkXact) :
    (u.hasWritten p l).hasWritten q m = u.hasWritten q (l ++ m) := by
  simp [EncUnit.hasWritten]

@[simp] theorem EncUnit.hasRead_hasRead (u : EncUnit) (p q : Source) (l m : List SrcXact) :
    (u.hasRead p l).hasRead q m = u.hasRead q (l ++ m) := by
  simp [EncUnit.hasRead]

theorem EncUnit.hasWritten_hasRead (u : EncUnit) (p : Sink) (l : List SnkXact) (q : Source) (m : List SrcXact) :
    (u.hasWritten p l).hasRead q m = (u.hasRead q m).hasWritten p l := rfl

@[simp] theorem EncUnit.hasWritten_nil (u : EncUnit) : u.hasWritten u.snk [] = u := by
  simp [EncUnit.hasWritten]

@[simp] theorem EncUnit.hasRead_nil (u : EncUnit) : u.hasRead u.src [] = u := by
  simp [EncUnit.hasRead]

/-- An idle unit's command that wrote and returned is what `returned` says. -/
theorem EncUnit.hasWritten_endCommand {u : EncUnit} (h : u.task = none) (p : Sink) (log : List SnkXact) (c : Code) :
    (u.hasWritten p log).endCommand (.plain c) = u.returned p log c := by
  cases u; cases h; rfl

theorem EncUnit.task_none {u : EncUnit} (h : u.busy = false) : u.task = none := by
  cases u; simpa [EncUnit.busy] using h

theorem EncUnit.busy_of_task_none {u : EncUnit} (h : u.task = none) : u.busy = false := by
  simp [EncUnit.busy, h]

/-! ## What is still to be written -/

/-- The bytes that a command other than ENC_TRANSFER still has to write. -/
def encRest (out : List Byte) : EncThen → List Byte
  | .finish => out
  | .fetch => out
  | .payload p i => out ++ (p.drop i).flatMap stuff ++ [END]

/-- A command that reads no source either has nothing left and returns OK, or waits at the write of its next byte. -/
theorem encGoOn_rest (out : List Byte) {k : EncThen} (hk : k ≠ .fetch) :
    (encRest out k = [] ∧ encGoOn out k = .done .ok) ∨
    ∃ b out' k', k' ≠ .fetch ∧ encRest out k = b :: encRest out' k' ∧ encGoOn out k = .wait (.write b out' k') := by
  cases out with
  | cons b out =>
    refine .inr ⟨b, out, k, hk, ?_, rfl⟩
    cases k <;> simp [encRest]
  | nil =>
    cases k with
    | fetch => exact absurd rfl hk
    | finish => exact .inl ⟨rfl, rfl⟩
    | payload p i =>
      right
      cases h : p[i]? with
      | none =>
        refine ⟨END, [], .finish, by simp, ?_, by rw [encGoOn_payload_none h]; rfl⟩
        have : p.length ≤ i := by simpa using h
        simp [encRest, List.drop_eq_nil_of_le this]
      | some b =>
        obtain ⟨x, xs, hs⟩ := List.exists_cons_of_ne_nil (stuff_ne_nil b)
        refine ⟨x, xs, .payload p (i + 1), by simp, ?_, by rw [encGoOn_payload_some h, hs]; rfl⟩
        obtain ⟨hi, hb⟩ := List.getElem?_eq_some_iff.mp h
        simp [encRest, List.drop_eq_getElem_cons hi, hb, hs]

/-- On a sink that accepts them, a command writes exactly the bytes it has left and returns OK. -/
theorem encContinue_accepts {u : EncUnit} {out : List Byte} {k : EncThen} {q : Sink} (hk : k ≠ .fetch)
    (h : u.snk.accepts (encRest out k) = some q) :
    encContinue u (encGoOn out k) = (u.hasWritten q (wrote (encRest out k))).endCommand (.plain .ok) := by
  generalize hr : encRest out k = bs at h
  induction bs generalizing u out k with
  | nil =>
    obtain ⟨-, hg⟩ | ⟨b, out', k', -, hc, -⟩ := encGoOn_rest out hk
    · cases h; rw [hg]; simp [EncOutcome.response]
    · simp [hr] at hc
  | cons c cs ih =>
    obtain ⟨hc, -⟩ | ⟨b, out', k', hk', hc, hg⟩ := encGoOn_rest out hk
    · simp [hr] at hc
    · rw [hr] at hc
      obtain ⟨rfl, rfl⟩ := List.cons.inj hc
      obtain ⟨p, hp, h⟩ := Sink.accepts_cons.mp h
      rw [hg, encContinue_write_ok hp, ih hk' rfl (by simpa using h), EncUnit.afterWrite_eq_hasWritten]
      simp

/-- Where the sink fails, the command returns IO_ERROR with the bytes before it written and none after (R48). -/
theorem encContinue_fails {u : EncUnit} {out : List Byte} {k : EncThen} {pre rest : List Byte} {x : Byte}
    {st : SnkStatus} {q : Sink} (hk : k ≠ .fetch) (hr : encRest out k = pre ++ x :: rest)
    (h : u.snk.FailsAt pre x st q) :
    encContinue u (encGoOn out k) = (u.hasWritten q (wroteThenFailed pre x st)).endCommand (.plain .ioError) := by
  obtain ⟨p, hp, hx, hst⟩ := h
  induction pre generalizing u out k with
  | nil =>
    obtain ⟨hc, -⟩ | ⟨b, out', k', -, hc, hg⟩ := encGoOn_rest out hk
    · simp [hr] at hc
    · rw [hr] at hc
      obtain ⟨rfl, -⟩ := List.cons.inj hc
      cases hp
      rw [hg, encContinue_write_fail hx hst]
      rfl
  | cons c cs ih =>
    obtain ⟨hc, -⟩ | ⟨b, out', k', hk', hc, hg⟩ := encGoOn_rest out hk
    · simp [hr] at hc
    · rw [hr] at hc
      obtain ⟨rfl, hrest⟩ := List.cons.inj hc
      obtain ⟨r, hr', hp⟩ := Sink.accepts_cons.mp hp
      rw [hg, encContinue_write_ok hr', ih hk' hrest.symm (by simpa using hp), EncUnit.afterWrite_eq_hasWritten]
      simp [wroteThenFailed]

/-- Where a write is unanswered, the command waits at it with the bytes before it written (R43). -/
theorem encContinue_stuck {u : EncUnit} {out : List Byte} {k : EncThen} {pre rest : List Byte} {x : Byte} {q : Sink}
    (hk : k ≠ .fetch) (hr : encRest out k = pre ++ x :: rest) (hp : u.snk.accepts pre = some q)
    (hx : q.write [x] = none) :
    ∃ out' k', encContinue u (encGoOn out k) = (u.hasWritten q (wrote pre)).waitAt (.write x out' k') := by
  induction pre generalizing u out k with
  | nil =>
    obtain ⟨hc, -⟩ | ⟨b, out', k', -, hc, hg⟩ := encGoOn_rest out hk
    · simp [hr] at hc
    · rw [hr] at hc
      obtain ⟨rfl, -⟩ := List.cons.inj hc
      cases hp
      refine ⟨out', k', ?_⟩
      rw [hg, encContinue_wait_none (by simp [encTransact, EncUnit.write, hx])]
      simp
  | cons c cs ih =>
    obtain ⟨hc, -⟩ | ⟨b, out', k', hk', hc, hg⟩ := encGoOn_rest out hk
    · simp [hr] at hc
    · rw [hr] at hc
      obtain ⟨rfl, hrest⟩ := List.cons.inj hc
      obtain ⟨r, hr', hp⟩ := Sink.accepts_cons.mp hp
      obtain ⟨o, k'', h⟩ := ih (u := u.afterWrite r c .ok) hk' hrest.symm (by simpa using hp)
      refine ⟨o, k'', ?_⟩
      rw [hg, encContinue_write_ok hr', h, EncUnit.afterWrite_eq_hasWritten]
      simp

/-- A sink asked for one byte after another accepts them all, fails at one, or leaves one unanswered. -/
theorem Sink.accepts_trichotomy (p : Sink) (bs : List Byte) :
    (∃ q, p.accepts bs = some q) ∨ (∃ pre x rest st q, bs = pre ++ x :: rest ∧ p.FailsAt pre x st q) ∨
    (∃ pre x rest q, bs = pre ++ x :: rest ∧ p.accepts pre = some q ∧ q.write [x] = none) := by
  induction bs generalizing p with
  | nil => exact .inl ⟨p, rfl⟩
  | cons b bs ih =>
    cases h : p.write [b] with
    | none => exact .inr (.inr ⟨[], b, bs, p, rfl, rfl, h⟩)
    | some x =>
      obtain ⟨st, q⟩ := x
      by_cases hst : st = .ok
      · subst hst
        obtain ⟨r, hr⟩ | ⟨pre, x, rest, st, r, rfl, r', h1, h2⟩ | ⟨pre, x, rest, r, rfl, h1, h2⟩ := ih q
        · exact .inl ⟨r, Sink.accepts_cons.mpr ⟨q, h, hr⟩⟩
        · exact .inr (.inl ⟨b :: pre, x, rest, st, r, rfl, r', Sink.accepts_cons.mpr ⟨q, h, h1⟩, h2⟩)
        · exact .inr (.inr ⟨b :: pre, x, rest, r, rfl, Sink.accepts_cons.mpr ⟨q, h, h1⟩, h2⟩)
      · exact .inr (.inl ⟨[], b, bs, st, q, rfl, p, rfl, h, hst⟩)

/-! ## ENC_TRANSFER's loop -/

/-- Writing bytes and then fetching, on a sink that accepts them. -/
theorem encContinue_accepts_fetch {u : EncUnit} {out : List Byte} {q : Sink} (h : u.snk.accepts out = some q) :
    encContinue u (encGoOn out .fetch) = encContinue (u.hasWritten q (wrote out)) (.wait .read) := by
  induction out generalizing u with
  | nil => cases h; simp
  | cons b out ih =>
    obtain ⟨p, hp, h⟩ := Sink.accepts_cons.mp h
    rw [encGoOn_cons, encContinue_write_ok hp, ih (by simpa using h), EncUnit.afterWrite_eq_hasWritten]
    simp

/-- Writing bytes before a fetch, on a sink that fails at one of them. -/
theorem encContinue_fails_fetch {u : EncUnit} {out pre rest : List Byte} {x : Byte} {st : SnkStatus} {q : Sink}
    (hr : out = pre ++ x :: rest) (h : u.snk.FailsAt pre x st q) :
    encContinue u (encGoOn out .fetch) =
      (u.hasWritten q (wroteThenFailed pre x st)).endCommand (.plain .ioError) := by
  subst hr
  obtain ⟨p, hp, hx, hst⟩ := h
  induction pre generalizing u with
  | nil => cases hp; rw [List.nil_append, encGoOn_cons, encContinue_write_fail hx hst]; rfl
  | cons c cs ih =>
    obtain ⟨r, hr, hp⟩ := Sink.accepts_cons.mp hp
    rw [List.cons_append, encGoOn_cons, encContinue_write_ok hr, ih (by simpa using hp),
      EncUnit.afterWrite_eq_hasWritten]
    simp [wroteThenFailed]

/-- The transfer loop over reads that yield the bytes `p`, on a sink that accepts their stuffing (R105). -/
theorem encContinue_reads {u : EncUnit} {p : List Byte} {log : List SrcXact} {src : Source} {q : Sink}
    (hr : Reads u.src p log src) (h : u.snk.accepts (p.flatMap stuff) = some q) :
    encContinue u (.wait .read) =
      encContinue ((u.hasRead src log).hasWritten q (wrote (p.flatMap stuff))) (.wait .read) := by
  generalize hs : u.src = s0 at hr
  induction hr generalizing u with
  | nil s => subst hs; cases h; rw [EncUnit.hasRead_nil, List.flatMap_nil, wrote_nil, EncUnit.hasWritten_nil]
  | @again p0 p1 p2 bs log a hread hf _ ih =>
    subst hs
    rw [encContinue_read hread, hf]
    show encContinue _ (.wait .read) = _
    rw [ih (by simpa using h) rfl, EncUnit.afterRead_eq_hasRead]
    simp
  | @byte p0 p1 p2 b bs log a hread hf _ ih =>
    subst hs
    rw [List.flatMap_cons] at h
    obtain ⟨r, hr, h⟩ := Sink.accepts_append.mp h
    rw [encContinue_read hread, hf]
    show encContinue _ (encGoOn (stuff b) .fetch) = _
    rw [encContinue_accepts_fetch (by simpa using hr), ih (by simpa using h) rfl, EncUnit.afterRead_eq_hasRead]
    simp [EncUnit.hasWritten_hasRead]

end Sys2Proof.Machine
end

