-- ==== Sys2Proof/Laws/PerInstr.lean ====
section
/-! SUPPORT. Facts about every instruction as syntax, one lemma per constructor. -/

namespace Sys2Proof.Laws.UnitBit

open Sys2Proof Sys2Proof.Machine

/-- Bit 15 of the command word selects the unit the command runs on (30_encoding.md R71). -/
def Statement (i : Instr) : Prop := (encode i).1.getLsbD 15 = (unitOf i == .decoder)

/-- Bit 15 of an assembled word is the top bit of its operation. -/
theorem assemble_bit15 (op : BitVec 4) (s : Bool) (d : Byte) : (assemble op s d).getLsbD 15 = op.getLsbD 3 := by
  unfold assemble
  rw [BitVec.getLsbD_append, BitVec.getLsbD_append, BitVec.getLsbD_append]
  simp

theorem encInit (s : Bool) : Statement (.encInit s) := assemble_bit15 _ s _
theorem encByte (b : Byte) : Statement (.encByte b) := assemble_bit15 _ _ b
theorem encPacket (s : Bool) (p : List Byte) : Statement (.encPacket s p) := assemble_bit15 _ s _
theorem encTransfer : Statement .encTransfer := assemble_bit15 _ _ _
theorem decInit (s : Bool) : Statement (.decInit s) := assemble_bit15 _ s _
theorem decByte (b : Byte) : Statement (.decByte b) := assemble_bit15 _ _ b
theorem decTransfer : Statement .decTransfer := assemble_bit15 _ _ _
theorem decPacket (w : List Byte) : Statement (.decPacket w) := assemble_bit15 _ _ _
theorem decGetMalformed : Statement .decGetMalformed := assemble_bit15 _ _ _
theorem decClearMalformed : Statement .decClearMalformed := assemble_bit15 _ _ _

end Sys2Proof.Laws.UnitBit
end

