-- ==== Sys2Proof/Laws/Waits.lean ====
section
/-! SUPPORT. Where a command waits: at a write, a read or an emit that is unanswered, after everything before it
(`encContinue_stuck_out`, `decContinue_transfer_read_none`, `decContinue_transfer_emit`); and what a port with no answer
keeps (`encContinue_keeps_src` and its like). -/

namespace Sys2Proof.Machine

/-! ## The encoder -/

theorem EncUnit.hasWritten_waitAt (u : EncUnit) (q : Sink) (log : List SnkXact) (t : EncTask) :
    (u.hasWritten q log).waitAt t = u.waiting q log t := rfl

@[simp] theorem EncUnit.waitAt_eq_waiting (u : EncUnit) (t : EncTask) : u.waiting u.snk [] t = u.waitAt t := by
  simp [EncUnit.waiting, EncUnit.waitAt]

/-- A write that is unanswered, after accepted writes of the bytes in hand: what is left is as it was (R43). -/
theorem encContinue_stuck_out {u : EncUnit} {out pre rest : List Byte} {x : Byte} {k : EncThen} {q : Sink}
    (ho : out = pre ++ x :: rest) (hp : u.snk.accepts pre = some q) (hx : q.write [x] = none) :
    encContinue u (encGoOn out k) = u.waiting q (wrote pre) (.write x rest k) := by
  subst ho
  induction pre generalizing u with
  | nil =>
    cases hp
    rw [List.nil_append, encGoOn_cons, encContinue_wait_none (by simp [encTransact, EncUnit.write, hx])]
    simp
  | cons c cs ih =>
    obtain ⟨r, hr, hp⟩ := Sink.accepts_cons.mp hp
    rw [List.cons_append, encGoOn_cons, encContinue_write_ok hr, ih (by simpa using hp)]
    simp [EncUnit.waiting, EncUnit.afterWrite]

/-- A read that is unanswered (R43). -/
theorem encContinue_read_none {u : EncUnit} (h : u.src.read Config.readChunk = none) :
    encContinue u (.wait .read) = u.waitAt .read :=
  encContinue_wait_none (by simp [encTransact, EncUnit.read, h])

/-- ENC_TRANSFER after its leading `END` and the reads that yield `p`, on a sink that accepts their stuffing (R105). -/
theorem encContinue_transfer_reads {u : EncUnit} {v : Bool} {p : List Byte} {log : List SrcXact} {src : Source}
    {q : Sink} (hr : Reads u.src p log src) (h : u.snk.accepts (leadingEnd v ++ p.flatMap stuff) = some q) :
    encContinue u (encGoOn (leadingEnd v) .fetch) =
      encContinue ((u.hasRead src log).hasWritten q (wrote (leadingEnd v ++ p.flatMap stuff))) (.wait .read) := by
  obtain ⟨r, h1, h2⟩ := Sink.accepts_append.mp h
  rw [encContinue_accepts_fetch h1, encContinue_reads (by simpa using hr) (by simpa using h2)]
  simp [EncUnit.hasWritten_hasRead]

/-- A source with no answer ready stays as it is: the encoder makes no read. -/
theorem encContinue_keeps_src {u : EncUnit} (h : u.src.read Config.readChunk = none) (p : EncProgress) :
    (encContinue u p).src = u.src ∧ (encContinue u p).srcLog = u.srcLog := by
  refine encContinue_rec (Q := fun v _ => v.src = u.src ∧ v.srcLog = u.srcLog)
    (R := fun v => v.src = u.src ∧ v.srcLog = u.srcLog) ?_ ?_ ?_ ⟨rfl, rfl⟩
  · intro v t v' r hv ht
    obtain ⟨_, _, _, _, _, -, -, rfl, -⟩ | ⟨_, _, -, hq, -, -⟩ := encTransact_cases ht
    · exact hv
    · rw [hv.1, h] at hq
      cases hq
  · intro v r hv; exact hv
  · intro v t hv _; exact hv

/-- A sink with no answer ready stays as it is: the encoder makes no write. -/
theorem encContinue_keeps_snk {u : EncUnit} (h : ∀ b, u.snk.write [b] = none) (p : EncProgress) :
    (encContinue u p).snk = u.snk ∧ (encContinue u p).snkLog = u.snkLog := by
  refine encContinue_rec (Q := fun v _ => v.snk = u.snk ∧ v.snkLog = u.snkLog)
    (R := fun v => v.snk = u.snk ∧ v.snkLog = u.snkLog) ?_ ?_ ?_ ⟨rfl, rfl⟩
  · intro v t v' r hv ht
    obtain ⟨b, _, _, _, _, -, hq, -, -⟩ | ⟨_, _, -, -, rfl, -⟩ := encTransact_cases ht
    · rw [hv.1, h b] at hq
      cases hq
    · exact hv
  · intro v r hv; exact hv
  · intro v t hv _; exact hv

/-! ## The decoder -/

theorem DecUnit.hasWritten_waitAt (u : DecUnit) (q : Sink) (log : List SnkXact) (t : DecTask) :
    (u.hasWritten q log).waitAt t = u.waiting q log t := rfl

@[simp] theorem DecUnit.waitAt_eq_waiting (u : DecUnit) (t : DecTask) : u.waiting u.snk [] t = u.waitAt t := by
  simp [DecUnit.waiting, DecUnit.waitAt]

/-- With the host's source in place, reads leave it as they leave it (R62). -/
theorem DecUnit.readTo_eq_hasRead {u : DecUnit} (h : u.packetSrc = none) (p : Source) (log : List SrcXact) :
    u.readTo p log = u.hasRead p log := by
  simp [DecUnit.readTo, DecUnit.setActiveSrc, h, DecUnit.hasRead]

/-- An emit that is unanswered (R43). -/
theorem decContinue_emit_none {u : DecUnit} {x : Byte} {sig : Signal} {inLoop : Bool} (h : u.snk.write [x] = none) :
    decContinue u (.wait (.emit x sig inLoop)) = u.waitAt (.emit x sig inLoop) :=
  decContinue_wait_none (by simp [decTransact, DecUnit.write, h])

/-- A read of a transfer that is unanswered, in the scan or in the loop (R43). -/
theorem decContinue_transferWait_none {u : DecUnit} {r : Bool} {w : List Byte}
    (h : u.activeSrc.read Config.readChunk = none) :
    decContinue u (.wait (transferWait r w)) = u.waitAt (transferWait r w) := by
  refine decContinue_wait_none ?_
  unfold transferWait
  split <;> simp [decTransact, DecUnit.read, h]

/-- A transfer that waits at a read (R129, R132). -/
theorem decContinue_transfer_read_none {u : DecUnit} {w : List Byte} {log : List SrcXact} {p : Source} {q : Sink}
    (hr : Reads u.activeSrc w log p) (he : (transferWire u.reqStart u.esc w).ended = false)
    (hq : u.snk.accepts (transferWire u.reqStart u.esc w).data = some q) (hread : p.read Config.readChunk = none) :
    decContinue u (decTransferStart u) =
      ((u.readTo p log).decoded (transferWire u.reqStart u.esc w)).waiting q
        (wrote (transferWire u.reqStart u.esc w).data) (transferWait u.reqStart w) := by
  rw [decContinue_transfer_reads hr he hq, decContinue_transferWait_none, DecUnit.hasWritten_waitAt]
  simpa [DecUnit.readTo_activeSrc (Reads.activeSrc hr)] using hread

/-- The byte whose data byte is one more is consumed by the loop, in which it emits. -/
theorem transferWire_emits {r : Bool} {e : EscState} {w : List Byte} {b x : Byte}
    (he : (transferWire r e w).ended = false)
    (hd : (transferWire r e (w ++ [b])).data = (transferWire r e w).data ++ [x]) :
    transferWait r w = .fetch (!w.isEmpty) ∧ stepEnds (transferWire r e w).esc b = false ∧
      stepData (transferWire r e w).esc b = some x ∧
      transferWire r e (w ++ [b]) =
        ⟨(transferWire r e w).data ++ [x], stepEsc (transferWire r e w).esc b,
          (transferWire r e w).malformed || stepBad (transferWire r e w).esc b,
          (transferWire r e w).consumed ++ [b], false⟩ := by
  have one : ∀ d : Decoded, d.data ++ (stepData d.esc b).toList = d.data ++ [x] → stepData d.esc b = some x := by
    intro d h
    cases hs : stepData d.esc b <;> simp_all
  unfold transferWait
  unfold transferWire at he hd ⊢
  cases r with
  | false =>
    simp only [Bool.false_eq_true, if_false] at he hd ⊢
    rw [decodeWire_snoc _ he] at hd ⊢
    split at hd
    · simp at hd
    · rename_i hs
      have hx := one _ hd
      simp [hs, hx]
  | true =>
    simp only [if_true] at he hd ⊢
    rw [scanWire_snoc] at hd ⊢
    cases hsc : scanWire w with
    | none =>
      simp only [hsc] at hd
      by_cases hb : b = END <;> simp [hb] at hd
    | some y =>
      obtain ⟨pre, rest⟩ := y
      simp only [hsc] at he hd ⊢
      rw [decodeWire_snoc _ he] at hd ⊢
      split at hd
      · simp at hd
      · rename_i hs
        have hx := one _ hd
        simp [hs, hx]

/-- A transfer up to an emit: its byte is read and consumed, and its register writes are made (R128, R132). -/
theorem decContinue_transfer_emit {u : DecUnit} {w : List Byte} {b x : Byte} {log : List SrcXact} {p p' : Source}
    {q : Sink} {a : SrcAnswer} (hr : Reads u.activeSrc w log p)
    (he : (transferWire u.reqStart u.esc w).ended = false)
    (hq : u.snk.accepts (transferWire u.reqStart u.esc w).data = some q)
    (hread : p.read Config.readChunk = some (a, p')) (hf : fetchByte a = .byte b)
    (hd : (transferWire u.reqStart u.esc (w ++ [b])).data = (transferWire u.reqStart u.esc w).data ++ [x]) :
    decContinue u (decTransferStart u) =
      decContinue (((u.readTo p' (log ++ [⟨Config.readChunk, a⟩])).decoded
        (transferWire u.reqStart u.esc (w ++ [b]))).hasWritten q (wrote (transferWire u.reqStart u.esc w).data))
        (.wait (.emit x .more true)) := by
  have ha := Reads.activeSrc hr
  obtain ⟨hwait, hends, hdata, hw⟩ := transferWire_emits he hd
  rw [decContinue_transfer_reads hr he hq, hwait,
    decContinue_fetch (a := a) (p := p') (by simpa [DecUnit.readTo_activeSrc ha] using hread), hf]
  simp only [decFetched, decConsume]
  rw [transfer_read _ q hr hread, decodeStep_eq]
  simp only [DecUnit.hasWritten_esc, DecUnit.decoded_esc, hends, hdata, Bool.false_eq_true, if_false]
  rw [hw]
  congr 1
  ext : 1 <;> simp [DecUnit.decoded, DecUnit.hasWritten, prevAfter_append, Bool.or_assoc]

/-- A source at `DEC.SRC` with no answer ready stays as it is: the decoder makes no read. -/
theorem decContinue_keeps_src {u : DecUnit} (hp : u.packetSrc = none) (h : u.src.read Config.readChunk = none)
    (p : DecProgress) : (decContinue u p).src = u.src ∧ (decContinue u p).srcLog = u.srcLog := by
  refine decContinue_rec (Q := fun v _ => v.packetSrc = none ∧ v.src = u.src ∧ v.srcLog = u.srcLog)
    (R := fun v => v.src = u.src ∧ v.srcLog = u.srcLog) ?_ ?_ ?_ ⟨hp, rfl, rfl⟩
  · intro v t v' r hv ht
    have hno : v.activeSrc.read Config.readChunk = none := by
      simp only [DecUnit.activeSrc, hv.1, hv.2.1]
      exact h
    obtain ⟨_, _, -, hq, -⟩ | ⟨_, _, _, -, hq, -⟩ | ⟨_, _, _, _, _, -, -, rfl, -⟩ := decTransact_cases ht
    · rw [hno] at hq
      cases hq
    · rw [hno] at hq
      cases hq
    · exact hv
  · intro v r hv; exact hv.2
  · intro v t hv _; exact hv.2

/-- A byte consumed leaves the sink and the record of writes. -/
theorem decConsume_keeps_snk (u : DecUnit) (b : Byte) (inLoop : Bool) :
    (decConsume u b inLoop).1.snk = u.snk ∧ (decConsume u b inLoop).1.snkLog = u.snkLog := by
  obtain ⟨e, m, h, -⟩ := decodeStep_frame u b
  rw [(decConsume_cases u b inLoop).1, h]
  exact ⟨rfl, rfl⟩

/-- A sink with no answer ready stays as it is: the decoder makes no write. -/
theorem decContinue_keeps_snk {u : DecUnit} (h : ∀ b, u.snk.write [b] = none) (p : DecProgress) :
    (decContinue u p).snk = u.snk ∧ (decContinue u p).snkLog = u.snkLog := by
  refine decContinue_rec (Q := fun v _ => v.snk = u.snk ∧ v.snkLog = u.snkLog)
    (R := fun v => v.snk = u.snk ∧ v.snkLog = u.snkLog) ?_ ?_ ?_ ⟨rfl, rfl⟩
  · intro v t v' r hv ht
    obtain ⟨a, q, -, -, hc⟩ | ⟨got, a, q, -, -, hc⟩ | ⟨x, _, _, _, _, -, hq, -, -⟩ := decTransact_cases ht
    · rw [show v' = _ from congrArg Prod.fst hc]
      cases fetchByte a <;> simp only [decScanned] <;> try split
      all_goals simpa using hv
    · rw [show v' = _ from congrArg Prod.fst hc]
      cases fetchByte a with
      | byte b =>
        have hk := decConsume_keeps_snk ((v.setActiveSrc q).logRead a) b true
        exact ⟨by simpa [decFetched, hv.1] using hk.1, by simpa [decFetched, hv.2] using hk.2⟩
      | eos => simpa [decFetched] using hv
      | ioFail => simpa [decFetched] using hv
      | again => simpa [decFetched] using hv
    · rw [hv.1, h x] at hq
      cases hq
  · intro v r hv; exact hv
  · intro v t hv _; exact hv

end Sys2Proof.Machine
end

