-- ==== Sys2Proof/Tests/Slice0.lean ====
section
/-! SUPPORT. Tests. The words are written out from the patterns of 30_encoding.md R75 and the expected results are
those of 95_test_vectors.md (its vector's name stands beside each) or of the rule named. After them, one witness for
each statement's hypotheses. -/

namespace Sys2Proof.Tests

open Sys2Proof Sys2Proof.Machine

/-! ## Helpers -/

/-- The next state, if there is one. -/
def nextOf : Host.Outcome State Fault Refusal → Option State
  | .next s => some s
  | .fault _ => none
  | .refused _ => none

/-- An encoder over a source and a sink, everything else as after reset. -/
def encOn (v : Bool) (src : Source) (snk : Sink) : State :=
  State.reset.setEnc { State.reset.enc with useStart := v, src := src, snk := snk }

/-- A decoder over a source and a sink, everything else as after reset. -/
def decOn (r : Bool) (e : EscState) (m : Bool) (src : Source) (snk : Sink) : State :=
  State.reset.setDec { State.reset.dec with reqStart := r, esc := e, malformed := m, src := src, snk := snk }

/-- `mem[...]` of the vectors. -/
def mem (bs : List Byte) : Source := .inMemory ⟨bs, 0⟩

/-- `cap k` of the vectors. -/
def cap (k : Nat) : Sink := .inMemory ⟨List.replicate k 0, 0⟩

/-- `acc` of the vectors, for up to twelve writes. -/
def acc : Sink := .external (List.replicate 12 .ok)

/-- The bytes the encoder's sink took and the response words. -/
def encSaw (o : Host.Outcome State Fault Refusal) : Option (List Byte × List Word) :=
  (nextOf o).map fun s => (delivered s.enc.snkLog, s.enc.responses.map Response.word)

/-- The bytes the decoder's sink took, the response words, the number of reads, and `(E, M, P)`. -/
def decSaw (o : Host.Outcome State Fault Refusal) :
    Option (List Byte × List Word × Nat × EscState × Bool × Byte) :=
  (nextOf o).map fun s =>
    (delivered s.dec.snkLog, s.dec.responses.map Response.word, s.dec.srcLog.length, s.dec.esc, s.dec.malformed,
      s.dec.prev)

/-- An operand one byte longer than `PKT_MAX`. -/
def tooLong : List Byte := List.replicate (Config.pktMax + 1) 0

theorem fits_tooLong : fits tooLong Config.pktMax = false := by
  rw [Bool.eq_false_iff, ne_eq, fits_iff, tooLong, List.length_replicate]
  omega

/-! ## Decoding: one word for every constructor, and words that are none (L2.1) -/

theorem test_decode_encInit : decode 0b0001000100000000 [] = .ok (.encInit true) := by decide
theorem test_decode_encByte : decode 0b0010000010100101 [] = .ok (.encByte 0xA5) := by decide
theorem test_decode_encPacket : decode 0b0011000100000000 [] = .ok (.encPacket true []) := by decide
theorem test_decode_encTransfer : decode 0b0100000000000000 [] = .ok .encTransfer := by decide
theorem test_decode_decInit : decode 0b1000000100000000 [] = .ok (.decInit true) := by decide
theorem test_decode_decByte : decode 0b1001000001011010 [] = .ok (.decByte 0x5A) := by decide
theorem test_decode_decTransfer : decode 0b1010000000000000 [] = .ok .decTransfer := by decide
theorem test_decode_decPacket : decode 0b1011000000000000 [] = .ok (.decPacket []) := by decide
theorem test_decode_decGetMalformed : decode 0b1100000000000000 [] = .ok .decGetMalformed := by decide
theorem test_decode_decClearMalformed : decode 0b1101000000000000 [] = .ok .decClearMalformed := by decide

/-- DW-3, DW-4, DW-6, DW-9, DW-10, DW-11, DW-14, DW-17, DW-20, DW-21. -/
theorem test_decode_reserved :
    ([0x1001, 0x1200, 0x2100, 0x4100, 0x0000, 0x5000, 0x6000, 0x7000, 0x9E00, 0xB001, 0xD100, 0xE000,
      0xFFFF] : List Word).all (fun w => (decodeWord w []).isNone) = true := by decide

/-- The words of the encoder, from R75's patterns. -/
theorem test_encode_words :
    encodeWord (.encInit true) = 0x1100 ∧ encodeWord (.encByte 0xC0) = 0x20C0 ∧
    encodeWord (.encPacket true [0x01]) = 0x3100 ∧ encodeWord (.decByte 0xDB) = 0x90DB ∧
    encodeWord .decClearMalformed = 0xD000 := by decide

/-- The host's reading of a row's word. -/
theorem test_decodeTableWord : decodeTableWord 16 0x3100 = some (.encPacket true []) := by decide

/-! ## Ill-formed commands -/

/-- P longer than `PKT_MAX` (R76). -/
theorem test_illformed_encPacket : Instr.wellFormed (.encPacket true tooLong) = false := fits_tooLong

/-- W longer than `PKT_MAX` (R76). -/
theorem test_illformed_decPacket : Instr.wellFormed (.decPacket tooLong) = false := fits_tooLong

theorem decode_tooLong : decode 0x3000 tooLong = .error .operandTooLong := by
  have h : decodeWord 0x3000 tooLong = some (.encPacket false tooLong) := rfl
  unfold decode
  rw [h]
  simp [Instr.operand, Instr.wellFormed, fits_tooLong]

theorem decode_tooLong_dec : decode 0xB000 tooLong = .error .operandTooLong := by
  have h : decodeWord 0xB000 tooLong = some (.decPacket tooLong) := rfl
  unfold decode
  rw [h]
  simp [Instr.operand, Instr.wellFormed, fits_tooLong]

/-- A packet operand with a command that takes none (log entry 3). -/
theorem test_stray_operand : decode 0x1000 [0x01] = .error .strayOperand := by decide

/-! ## The encoder -/

/-- EI-1. -/
theorem test_encInit :
    (nextOf (exec (.encInit true) State.reset)).map (fun s => (s.enc.useStart, s.enc.responses)) =
      some (true, [⟨.ok, 0⟩]) := by decide

/-- EB-2. -/
theorem test_encByte_end :
    encSaw (exec (.encByte 0xC0) (encOn false (mem []) acc)) = some ([0xDB, 0xDC], [0x0000]) := by decide

/-- EB-8: the lone `ESC`. -/
theorem test_encByte_second_write_fails :
    encSaw (exec (.encByte 0xC0) (encOn false (mem []) (.external [.ok, .error]))) =
      some ([0xDB], [0x0500]) := by decide

/-- EP-3. -/
theorem test_encPacket_reserved_values :
    encSaw (exec (.encPacket false [0xC0, 0xDB, 0xDC, 0xDD]) (encOn true (mem []) acc)) =
      some ([0xDB, 0xDC, 0xDB, 0xDD, 0xDC, 0xDD, 0xC0], [0x0000]) := by decide

/-- EP-5. -/
theorem test_encPacket_full_sink :
    encSaw (exec (.encPacket true [0x01]) (encOn false (mem []) (cap 2))) = some ([0xC0, 0x01], [0x0500]) := by
  decide

/-- ET-11. -/
theorem test_encTransfer :
    encSaw (exec .encTransfer (encOn true (mem [0x01, 0xC0, 0xDB]) acc)) =
      some ([0xC0, 0x01, 0xDB, 0xDC, 0xDB, 0xDD, 0xC0], [0x0000]) := by decide

/-- ET-4: bytes that come with `Eof`. -/
theorem test_encTransfer_eof_with_bytes :
    encSaw (exec .encTransfer (encOn false (.external [⟨[0x41], .more⟩, ⟨[0x42], .eof⟩]) acc)) =
      some ([0x41], [0x0500]) := by decide

/-! ## The decoder -/

/-- DM-6. -/
theorem test_decInit :
    (nextOf (exec (.decInit true) (decOn false .escaped true (mem []) acc))).map
      (fun s => (s.dec.reqStart, s.dec.esc, s.dec.malformed, s.dec.prev, s.dec.responses)) =
      some (true, .normal, false, 0x00, [⟨.ok, 0⟩]) := by decide

/-- DS-12: `ESC, END` does not end the packet (C2). -/
theorem test_decByte_escaped_end :
    decSaw (exec (.decByte 0xC0) (decOn false .escaped false (mem []) acc)) =
      some ([0xC0], [0x0100], 0, .normal, true, 0xC0) := by decide

/-- DS-14: the updates stand after a failed emit (D9). -/
theorem test_decByte_failed_emit :
    decSaw (exec (.decByte 0x09) (decOn false .escaped false (mem []) (.external [.error]))) =
      some ([], [0x0500], 0, .normal, true, 0x09) := by decide

/-- DT-9: `ESC, ESC` leaves NORMAL (C1). -/
theorem test_decTransfer_esc_esc :
    decSaw (exec .decTransfer (decOn false .normal false (mem [0xDB, 0xDB, 0xC0]) acc)) =
      some ([0xDB], [0x0200], 3, .normal, true, 0xC0) := by decide

/-- DT-11: the scan decodes nothing. -/
theorem test_decTransfer_scan :
    decSaw (exec .decTransfer (decOn true .escaped false (mem [0xDC, 0xC0, 0x05, 0xC0]) acc)) =
      some ([0x05], [0x0200], 4, .normal, false, 0xC0) := by decide

/-- L1-4. -/
theorem test_decPacket_noise :
    decSaw (exec (.decPacket [0x2C, 0xDB, 0x16, 0xC0, 0x01, 0x02, 0xC0]) (decOn true .normal false (mem []) acc)) =
      some ([0x01, 0x02], [0x0200], 7, .normal, false, 0xC0) := by decide

/-- DP-1: an empty W is START_BYTE_NOT_FOUND under either policy (C4). -/
theorem test_decPacket_empty :
    decSaw (exec (.decPacket []) (decOn false .escaped false (mem []) acc)) =
      some ([], [0x0400], 1, .escaped, false, 0x00) := by decide

/-- DM-2: reading does not clear the flag. -/
theorem test_decGetMalformed :
    decSaw (exec .decGetMalformed (decOn false .normal true (mem []) acc)) =
      some ([], [0x0001], 0, .normal, true, 0x00) := by decide

/-- DM-4: a pending escape survives. -/
theorem test_decClearMalformed :
    decSaw (exec .decClearMalformed (decOn false .escaped true (mem []) acc)) =
      some ([], [0x0000], 0, .escaped, false, 0x00) := by decide

/-! ## Waiting, refusal and the step -/

/-- BZ-1: a busy decoder has no step for a second command. -/
theorem test_busy_refused :
    (nextOf (exec .decTransfer State.reset)).map (fun s => exec .decGetMalformed s) =
      some (.refused (.unitBusy .decoder)) := rfl

/-- The step runs the word that `withFetchWord` places. -/
theorem test_step_withFetchWord :
    (nextOf (step (State.reset.withFetchWord 16 0x8100))).map (fun s => (s.dec.reqStart, s.dec.responses)) =
      some (true, [⟨.ok, 0⟩]) := by decide

/-! ## Witnesses: concrete states and operands that meet the hypotheses of each statement -/

/-- An encoder and a decoder that both wait at a read. -/
def bothBusy : State :=
  (State.reset.setEnc (State.reset.enc.waitAt .read)).setDec (State.reset.dec.waitAt (.fetch false))

theorem witness_PowerOnResetState :
    ({ bothBusy with inputs := [.powerOn] } : State).inputs = .powerOn :: [] ∧
    (State.reset.enc.task = none ∧ State.reset.dec.task = none ∧ State.reset.dec.packetSrc = none) :=
  ⟨rfl, rfl, rfl, rfl⟩

theorem witness_StepRunsOfferedCommand :
    (State.reset.withFetchWord 16 0x1100).inputs = .command 0x1100 [] :: [] ∧
    decode 0x1100 [] = .ok (.encInit true) ∧ decode 0x0000 [] = .error .reserved ∧
    decode 0x1000 [0x01] = .error .strayOperand ∧ decode 0x3000 tooLong = .error .operandTooLong :=
  ⟨rfl, by decide, by decide, by decide, decode_tooLong⟩

theorem witness_ReservedWordsAreTheUnselected :
    (∀ r ∈ rows, r.selects 0xFFFF = false) ∧
    ({ State.reset with inputs := [.command 0xFFFF [0x01]] } : State).inputs = .command 0xFFFF [0x01] :: [] ∧
    (∃ r ∈ rows, r.selects 0xD000 = true) := by
  refine ⟨by decide, rfl, ?_⟩
  exact ⟨⟨0xD000, 0xFFFF⟩, by decide, by decide⟩

theorem witness_TableRowsDecode :
    (0x1100 : Word) &&& 0xFEFF = 0x1000 ∧ (0x20FF : Word) &&& 0xFF00 = 0x2000 ∧
    (0x3100 : Word) &&& 0xFEFF = 0x3000 ∧ (0x4000 : Word) &&& 0xFFFF = 0x4000 ∧
    (0x8100 : Word) &&& 0xFEFF = 0x8000 ∧ (0x90FF : Word) &&& 0xFF00 = 0x9000 ∧
    (0xA000 : Word) &&& 0xFFFF = 0xA000 ∧ (0xB000 : Word) &&& 0xFFFF = 0xB000 ∧
    (0xC000 : Word) &&& 0xFFFF = 0xC000 ∧ (0xD000 : Word) &&& 0xFFFF = 0xD000 ∧
    ([] : List Byte).length ≤ Config.pktMax ∧ Config.pktMax < tooLong.length :=
  ⟨by decide, by decide, by decide, by decide, by decide, by decide, by decide, by decide, by decide, by decide,
    Nat.zero_le _, by simp [tooLong]⟩

/-- An operand of exactly `PKT_MAX` bytes is legal. -/
theorem witness_DecodeOfEncode :
    Instr.wellFormed (.encPacket true (List.replicate Config.pktMax 0xC0)) = true ∧
    Instr.wellFormed (.decPacket []) = true ∧ Instr.wellFormed (.encByte 0xFF) = true :=
  ⟨by simp [Instr.wellFormed, fits_iff], rfl, rfl⟩

theorem witness_EncodeOfDecode : decode 0x20FF [] = .ok (.encByte 0xFF) := by decide

theorem witness_UnitSelectedByBit15 :
    (∃ t, decode 0x4000 [] = .ok .encTransfer ∧ exec .encTransfer State.reset = .next t) ∧
    (0x4000 : Word).getLsbD 15 = false ∧
    (∃ t, decode 0xA000 [] = .ok .decTransfer ∧ exec .decTransfer State.reset = .next t) ∧
    (0xA000 : Word).getLsbD 15 = true :=
  ⟨⟨_, by decide, rfl⟩, by decide, ⟨_, by decide, rfl⟩, by decide⟩

theorem witness_BusyUnitRefuses :
    bothBusy.busy (unitOf .encTransfer) = true ∧ bothBusy.busy (unitOf .decClearMalformed) = true ∧
    decode 0x4000 [] = .ok .encTransfer ∧ decode 0x5000 [] = .error .reserved := by decide

theorem witness_SourceAnswersClassified :
    2 ≤ ([0x41, 0x42] : List Byte).length ∧ 1 ≤ ([0x41] : List Byte).length := by decide

theorem witness_InMemorySourceReads :
    (⟨[0x41], 1⟩ : MemSource).cursor = (⟨[0x41], 1⟩ : MemSource).buffer.length ∧
    (⟨[0x41], 0⟩ : MemSource).cursor < (⟨[0x41], 0⟩ : MemSource).buffer.length := by decide

theorem witness_InMemorySinkWrites :
    (⟨[0x00], 1⟩ : MemSink).buffer.length < 1 + ([0x41] : List Byte).length ∧
    0 + ([0x41] : List Byte).length ≤ (⟨[0x00], 0⟩ : MemSink).buffer.length := by decide

theorem witness_StepKeepsOneByteTransactions :
    (encOn false (mem [0x41]) acc).OneByte ∧
    ∃ t, step ((encOn false (mem [0x41]) acc).withFetchWord 16 0x4000) = .next t ∧ t.enc.srcLog.length = 2 := by
  refine ⟨⟨?_, ?_, ?_, ?_⟩, _, rfl, by decide⟩ <;> intro x hx <;> cases hx

theorem witness_AdapterBuffersFrame :
    (∃ t, exec .encTransfer (encOn false (mem [0x41]) (cap 2)) = .next t ∧ t.enc.snk = .inMemory ⟨[0x41, 0xC0], 2⟩) ∧
    (∃ t, exec .decTransfer (decOn false .normal false (mem [0x41]) (cap 1)) = .next t ∧
      t.dec.snk = .inMemory ⟨[0x41], 1⟩) :=
  ⟨⟨_, rfl, by decide⟩, ⟨_, rfl, by decide⟩⟩

/-- A source with a short read: `([], More)`, a byte, and then what is left (ET-3). -/
theorem reads_short (b : Byte) (rest : List SrcAnswer) :
    Reads (.external (⟨[], .more⟩ :: ⟨[b], .more⟩ :: rest)) [b]
      [⟨Config.readChunk, ⟨[], .more⟩⟩, ⟨Config.readChunk, ⟨[b], .more⟩⟩] (.external rest) :=
  .again rfl rfl (.byte rfl rfl (.nil _))

/-- A unit with nothing answered, and one for each wait in the middle of a command: the second byte of a stuffed pair, the
terminating `END`, the scan. -/
theorem witness_UnansweredTransactionWaits :
    State.reset.inputs = [] ∧
    (∃ s : State, ∃ q, s.enc.task = none ∧ stuff 0xC0 = [ESC] ++ ESC_END :: [] ∧
      s.enc.snk.accepts [ESC] = some q ∧ q.write [ESC_END] = none) ∧
    (∃ s : State, ∃ q, s.enc.task = none ∧ frame [0x01] true = [END, 0x01] ++ END :: [] ∧
      s.enc.snk.accepts [END, 0x01] = some q ∧ q.write [END] = none) ∧
    (∃ s : State, s.enc.task = none ∧ s.enc.useStart = true ∧ s.enc.snk.write [END] = none) ∧
    (∃ s : State, ∃ log src q, s.enc.task = none ∧ Reads s.enc.src [0x41] log src ∧
      s.enc.snk.accepts (leadingEnd s.enc.useStart ++ [0x41].flatMap stuff) = some q ∧
      src.read Config.readChunk = none) ∧
    (∃ s : State, ∃ log src a src' q, s.enc.task = none ∧ Reads s.enc.src [] log src ∧
      src.read Config.readChunk = some (a, src') ∧ fetchByte a = .byte 0xDB ∧ stuff 0xDB = [ESC] ++ ESC_ESC :: [] ∧
      s.enc.snk.accepts (leadingEnd s.enc.useStart ++ [].flatMap stuff ++ [ESC]) = some q ∧
      q.write [ESC_ESC] = none) ∧
    (∃ s : State, ∃ log src src' q, s.enc.task = none ∧ Reads s.enc.src [] log src ∧
      src.read Config.readChunk = some (eofAnswer, src') ∧
      s.enc.snk.accepts (leadingEnd s.enc.useStart ++ [].flatMap stuff) = some q ∧ q.write [END] = none) :=
  ⟨rfl,
    ⟨encOn false (mem []) (.external [.ok]), _, rfl, rfl, rfl, rfl⟩,
    ⟨encOn false (mem []) (.external [.ok, .ok]), _, rfl, rfl, rfl, rfl⟩,
    ⟨encOn true (mem []) (.external []), rfl, rfl, rfl⟩,
    ⟨encOn true (.external [⟨[], .more⟩, ⟨[0x41], .more⟩]) acc, _, _, _, rfl, reads_short _ _, rfl, rfl⟩,
    ⟨encOn true (mem [0xDB]) (.external [.ok, .ok]), _, _, _, _, _, rfl, .nil _, rfl, rfl, rfl, rfl, rfl⟩,
    ⟨encOn false (mem []) (.external []), _, _, _, _, rfl, .nil _, rfl, rfl, rfl⟩⟩

/-- The same for the decoder: a data byte of DEC_BYTE; a read of the scan and one of the loop; a second emit of
DEC_TRANSFER; the first emit of DEC_PACKET. -/
theorem witness_UnansweredTransactionWaits_decoder :
    (∃ s : State, s.dec.task = none ∧ s.dec.packetSrc = none ∧ (decodeWire s.dec.esc [ESC_END]).data = [END] ∧
      s.dec.snk.write [END] = none) ∧
    (∃ s : State, ∃ log src q, s.dec.task = none ∧ s.dec.packetSrc = none ∧ Reads s.dec.src [0x41] log src ∧
      (transferWire s.dec.reqStart s.dec.esc [0x41]).ended = false ∧
      s.dec.snk.accepts (transferWire s.dec.reqStart s.dec.esc [0x41]).data = some q ∧
      src.read Config.readChunk = none ∧ transferWait s.dec.reqStart [0x41] = .scan) ∧
    (∃ s : State, ∃ log src q, s.dec.task = none ∧ s.dec.packetSrc = none ∧ Reads s.dec.src [] log src ∧
      (transferWire s.dec.reqStart s.dec.esc []).ended = false ∧
      s.dec.snk.accepts (transferWire s.dec.reqStart s.dec.esc []).data = some q ∧
      src.read Config.readChunk = none ∧ transferWait s.dec.reqStart [] = .fetch false) ∧
    (∃ s : State, ∃ log src a src' q, s.dec.task = none ∧ s.dec.packetSrc = none ∧ Reads s.dec.src [0x41] log src ∧
      src.read Config.readChunk = some (a, src') ∧ fetchByte a = .byte 0x42 ∧
      (transferWire s.dec.reqStart s.dec.esc [0x41]).ended = false ∧
      (transferWire s.dec.reqStart s.dec.esc ([0x41] ++ [0x42])).data =
        (transferWire s.dec.reqStart s.dec.esc [0x41]).data ++ [0x42] ∧
      s.dec.snk.accepts (transferWire s.dec.reqStart s.dec.esc [0x41]).data = some q ∧ q.write [0x42] = none) ∧
    (∃ s : State, ∃ q, s.dec.task = none ∧ s.dec.packetSrc = none ∧
      (transferWire s.dec.reqStart s.dec.esc [END]).ended = false ∧
      (transferWire s.dec.reqStart s.dec.esc ([END] ++ [0x42])).data =
        (transferWire s.dec.reqStart s.dec.esc [END]).data ++ [0x42] ∧
      s.dec.snk.accepts (transferWire s.dec.reqStart s.dec.esc [END]).data = some q ∧ q.write [0x42] = none) :=
  ⟨⟨decOn false .escaped false (mem []) (.external []), rfl, rfl, by decide, rfl⟩,
    ⟨decOn true .normal false (.external [⟨[], .more⟩, ⟨[0x41], .more⟩]) acc, _, _, _, rfl, rfl, reads_short _ _,
      by decide, rfl, rfl, by decide⟩,
    ⟨State.reset, _, _, _, rfl, rfl, .nil _, rfl, rfl, rfl, by decide⟩,
    ⟨decOn false .normal false (.external [⟨[], .more⟩, ⟨[0x41], .more⟩, ⟨[0x42], .more⟩]) (.external [.ok]),
      _, _, _, _, _, rfl, rfl, reads_short _ _, rfl, rfl, by decide, by decide, rfl, rfl⟩,
    ⟨decOn true .normal false (mem []) (.external []), _, rfl, rfl, by decide, by decide, rfl, rfl⟩⟩

theorem witness_AttachmentChangesOnePort :
    ({ State.reset with inputs := [.attachSource .encoder (.inMemory [0x41])] } : State).inputs =
      .attachSource .encoder (.inMemory [0x41]) :: [] ∧
    ({ State.reset with inputs := [.attachSink .decoder (.inMemory [0x00])] } : State).inputs =
      .attachSink .decoder (.inMemory [0x00]) :: [] ∧
    State.reset.enc.task = none ∧ State.reset.dec.task = none ∧
    bothBusy.busy .encoder = true ∧ bothBusy.busy .decoder = true ∧
    (encOn false (mem []) (cap 1)).enc.src = .inMemory ⟨[], 0⟩ ∧
    (encOn false (mem []) (cap 1)).enc.snk = .inMemory ⟨[0x00], 0⟩ ∧
    (decOn false .normal false (mem []) (cap 1)).dec.src = .inMemory ⟨[], 0⟩ ∧
    (decOn false .normal false (mem []) (cap 1)).dec.snk = .inMemory ⟨[0x00], 0⟩ := by decide

/-- Idle and waiting units with devices behind all four ports, and an answer to each. -/
theorem witness_AnswersOfEnvAreTaken :
    (∀ s ∈ [State.reset, bothBusy], s.enc.src = .external [] ∧ s.enc.snk = .external [] ∧ s.dec.src = .external [] ∧
      s.dec.snk = .external []) ∧
    (State.reset.enc.task = none ∧ State.reset.dec.task = none) ∧
    ({ bothBusy with inputs := [.sourceAnswer .encoder eofAnswer] } : State).inputs =
      .sourceAnswer .encoder eofAnswer :: [] ∧
    ({ bothBusy with inputs := [.sinkAnswer .encoder .ok] } : State).inputs = .sinkAnswer .encoder .ok :: [] ∧
    ({ bothBusy with inputs := [.sourceAnswer .decoder eofAnswer] } : State).inputs =
      .sourceAnswer .decoder eofAnswer :: [] ∧
    ({ bothBusy with inputs := [.sinkAnswer .decoder .eof] } : State).inputs = .sinkAnswer .decoder .eof :: [] := by
  decide

/-- Units that wait: the encoder at a write, the decoder at an emit, with nothing answered on any port. -/
def bothWrite : State :=
  (State.reset.setEnc (State.reset.enc.waitAt (.write END [] .fetch))).setDec
    (State.reset.dec.waitAt (.emit 0x41 .more true))

/-- Each wait, in the scan and in the loop, and an answer that fails and one that does not. -/
theorem witness_AnswerCompletesTheWaitingTransaction :
    (bothBusy.enc.task = some .read ∧ bothBusy.enc.src = .external [] ∧ fetchByte ⟨[], .error⟩ = .ioFail ∧
      fetchByte eofAnswer = .eos) ∧
    (bothWrite.enc.task = some (.write END [] .fetch) ∧ bothWrite.enc.snk = .external [] ∧ SnkStatus.eof ≠ .ok) ∧
    (bothBusy.dec.task = some (.fetch false) ∧ bothBusy.dec.packetSrc = none ∧ bothBusy.dec.src = .external []) ∧
    ((State.reset.dec.waitAt .scan).task = some .scan ∧ (State.reset.dec.waitAt .scan).packetSrc = none ∧
      (State.reset.dec.waitAt .scan).src = .external []) ∧
    (bothWrite.dec.task = some (.emit 0x41 .more true) ∧ bothWrite.dec.snk = .external []) := by decide

theorem witness_AnswerForTheOtherPortIsKept :
    (bothWrite.enc.task = some (.write END [] .fetch) ∧ bothWrite.enc.snk = .external [] ∧
      bothWrite.enc.src = .external []) ∧
    (bothBusy.enc.task = some .read ∧ bothBusy.enc.src = .external [] ∧ bothBusy.enc.snk = .external []) ∧
    (bothWrite.dec.task = some (.emit 0x41 .more true) ∧ bothWrite.dec.snk = .external [] ∧
      bothWrite.dec.src = .external []) ∧
    (bothBusy.dec.task = some (.fetch false) ∧ bothBusy.dec.packetSrc = none ∧ bothBusy.dec.src = .external [] ∧
      bothBusy.dec.snk = .external []) := by decide

/-- A read that is answered before the command and one that is answered after it. -/
theorem witness_AnswerTimeIsIrrelevant :
    (∃ s₁ t, deliver (.sourceAnswer .encoder eofAnswer) State.reset = .next s₁ ∧
      exec .encTransfer State.reset = .next t ∧ t.enc.busy = true) ∧
    (∃ s₁ t, deliver (.sinkAnswer .decoder .ok) State.reset = .next s₁ ∧
      exec (.decByte 0x41) State.reset = .next t ∧ t.dec.busy = true) :=
  ⟨⟨_, _, rfl, rfl, by decide⟩, ⟨_, _, rfl, rfl, by decide⟩⟩

theorem witness_EncInitSetsUseStart : State.reset.enc.task = none ∧ (0x1100 : Word) &&& 0xFEFF = 0x1000 :=
  ⟨rfl, by decide⟩

theorem witness_PacketIsTransferFromMemory : State.reset.enc.task = none := rfl

theorem witness_StuffingOfEveryByte : (0xDC : Byte) ≠ 0xC0 ∧ (0xDC : Byte) ≠ 0xDB := by decide

/-- The first and the second write of a stuffed pair can fail. -/
theorem witness_EncByteWritesStuffing :
    (0x20C0 : Word) &&& 0xFF00 = 0x2000 ∧
    (∃ s : State, ∃ p, s.enc.task = none ∧ s.enc.snk.accepts (stuff 0xC0) = some p) ∧
    (∃ s : State, s.enc.task = none ∧ stuff 0xC0 = [] ++ ESC :: [ESC_END] ∧
      s.enc.snk.FailsAt [] ESC .eof (.external [])) ∧
    (∃ s : State, s.enc.task = none ∧ stuff 0xC0 = [ESC] ++ ESC_END :: [] ∧
      s.enc.snk.FailsAt [ESC] ESC_END .error (.external [])) :=
  ⟨by decide, ⟨encOn false (mem []) acc, _, rfl, rfl⟩,
    ⟨encOn false (mem []) (.external [.eof]), rfl, rfl, _, rfl, rfl, by decide⟩,
    ⟨encOn false (mem []) (.external [.ok, .error]), rfl, rfl, _, rfl, rfl, by decide⟩⟩

/-- The leading and the terminating `END` can fail (EP-6, EP-5). -/
theorem witness_EncPacketWritesFrame :
    ((0x3100 : Word) &&& 0xFEFF = 0x3000 ∧ (List.replicate Config.pktMax END).length ≤ Config.pktMax) ∧
    (∃ s : State, ∃ q, s.enc.task = none ∧ s.enc.snk.accepts (frame [0xC0] true) = some q) ∧
    (∃ s : State, s.enc.task = none ∧ frame [] true = [] ++ END :: [END] ∧ s.enc.snk.FailsAt [] END .eof (cap 0)) ∧
    (∃ s : State, s.enc.task = none ∧ frame [0x01] true = [END, 0x01] ++ END :: [] ∧
      s.enc.snk.FailsAt [END, 0x01] END .eof (.inMemory ⟨[END, 0x01], 2⟩)) :=
  ⟨⟨by decide, by simp⟩, ⟨encOn false (mem []) acc, _, rfl, rfl⟩,
    ⟨encOn false (mem []) (cap 0), rfl, rfl, _, rfl, rfl, by decide⟩,
    ⟨encOn false (mem []) (cap 2), rfl, rfl, _, rfl, rfl, by decide⟩⟩

theorem witness_EncTransferWritesFrame :
    ∃ s : State, ∃ log src src' q, s.enc.task = none ∧ Reads s.enc.src [0xDB] log src ∧
      src.read Config.readChunk = some (eofAnswer, src') ∧
      s.enc.snk.accepts (frame [0xDB] s.enc.useStart) = some q :=
  ⟨encOn true (.external [⟨[], .more⟩, ⟨[0xDB], .more⟩, eofAnswer]) acc, _, _, _, _, rfl, reads_short _ _, rfl, rfl⟩

/-- The leading `END` fails (ET-8); bytes come with `Eof` (ET-4); the second byte of a pair fails (ET-9); the
terminating `END` fails. -/
theorem witness_EncTransferIoErrors :
    (∃ s : State, ∃ q, s.enc.task = none ∧ s.enc.useStart = true ∧ s.enc.snk.FailsAt [] END .eof q) ∧
    (∃ s : State, ∃ log src a src' q, s.enc.task = none ∧ Reads s.enc.src [0x41] log src ∧
      src.read Config.readChunk = some (a, src') ∧ fetchByte a = .ioFail ∧
      s.enc.snk.accepts (leadingEnd s.enc.useStart ++ [0x41].flatMap stuff) = some q) ∧
    (∃ s : State, ∃ log src a src' q, s.enc.task = none ∧ Reads s.enc.src [] log src ∧
      src.read Config.readChunk = some (a, src') ∧ fetchByte a = .byte 0xDB ∧ stuff 0xDB = [ESC] ++ ESC_ESC :: [] ∧
      s.enc.snk.FailsAt (leadingEnd s.enc.useStart ++ [].flatMap stuff ++ [ESC]) ESC_ESC .eof q) ∧
    (∃ s : State, ∃ log src src' q, s.enc.task = none ∧ Reads s.enc.src [] log src ∧
      src.read Config.readChunk = some (eofAnswer, src') ∧
      s.enc.snk.FailsAt (leadingEnd s.enc.useStart ++ [].flatMap stuff) END .error q) :=
  ⟨⟨encOn true (mem []) (.external [.eof]), _, rfl, rfl, _, rfl, rfl, by decide⟩,
    ⟨encOn true (.external [⟨[], .more⟩, ⟨[0x41], .more⟩, ⟨[0x42], .eof⟩]) acc, _, _, _, _, _, rfl, reads_short _ _,
      rfl, rfl, rfl⟩,
    ⟨encOn false (mem [0xDB]) (cap 1), _, _, _, _, _, rfl, .nil _, rfl, rfl, rfl, _, rfl, rfl, by decide⟩,
    ⟨encOn false (mem []) (.external [.error]), _, _, _, _, rfl, .nil _, rfl, _, rfl, rfl, by decide⟩⟩

theorem witness_FrameDelimitersAndEscapes :
    (frame [0xDB] true)[0]? = some END ∧ (frame [0xDB] true)[3]? = some END ∧
    (frame [0xDB] true)[1]? = some ESC := by decide

theorem witness_FrameLength :
    ∃ t, exec (.encPacket true [0xC0]) (encOn false (mem []) acc) = .next t ∧
      t.enc.responses = (encOn false (mem []) acc).enc.responses ++ [.plain .ok] := ⟨_, rfl, by decide⟩

theorem witness_IoErrorLeavesProperPrefix :
    ∃ t, exec (.encPacket true [0x01]) (encOn false (mem []) (cap 2)) = .next t ∧
      t.enc.responses = (encOn false (mem []) (cap 2)).enc.responses ++ [.plain .ioError] := ⟨_, rfl, by decide⟩

/-- Two histories: another policy and another record, the same ports. -/
theorem witness_EncoderForgetsHistory :
    ∃ t, exec (.encByte 0xC0) (encOn false (mem []) acc) = .next t ∧
      (encOn true (mem []) acc).enc.src = (encOn false (mem []) acc).enc.src ∧
      (encOn true (mem []) acc).enc.snk = (encOn false (mem []) acc).enc.snk ∧
      (encOn true (mem []) acc).enc.task = none ∧ unitOf (.encByte 0xC0) = .encoder := ⟨_, rfl, rfl, rfl, rfl, rfl⟩

/-- A command of each unit that answers a next state: for EncoderCommandFrame, DecoderCommandFrame and UnitsCommute. -/
theorem witness_CommandFrames_UnitsCommute :
    (∃ t, unitOf .encTransfer = .encoder ∧ exec .encTransfer (encOn true (mem [0x41]) acc) = .next t) ∧
    (∃ t, unitOf (.encInit true) = .encoder ∧ exec (.encInit true) State.reset = .next t) ∧
    (∃ t, unitOf .decTransfer = .decoder ∧
      exec .decTransfer (decOn true .normal false (mem [0xC0]) acc) = .next t) ∧
    (∃ t, unitOf .decGetMalformed = .decoder ∧ exec .decGetMalformed State.reset = .next t) ∧
    (∃ t u, unitOf (.encByte 0x41) = .encoder ∧ unitOf (.decByte 0x41) = .decoder ∧
      exec (.encByte 0x41) State.reset = .next t ∧ exec (.decByte 0x41) State.reset = .next u) :=
  ⟨⟨_, rfl, rfl⟩, ⟨_, rfl, rfl⟩, ⟨_, rfl, rfl⟩, ⟨_, rfl, rfl⟩, _, _, rfl, rfl, rfl, rfl⟩

/-- A unit that answers and one that waits: for PermittedResponses and OneResponsePerCommand. -/
theorem witness_PermittedResponses_OneResponsePerCommand :
    (∃ t, exec (.encByte 0x41) (encOn false (mem []) acc) = .next t ∧ t.enc.busy = false ∧
      t.enc.responses = [] ++ [⟨.ok, 0⟩]) ∧
    (∃ t, exec (.encByte 0x41) State.reset = .next t ∧ t.enc.busy = true) ∧
    (∃ t, exec (.decPacket []) State.reset = .next t ∧ t.dec.busy = false ∧
      t.dec.responses = [] ++ [⟨.startByteNotFound, 0⟩]) ∧
    (∃ t, exec (.decByte 0x41) State.reset = .next t ∧ t.dec.busy = true) :=
  ⟨⟨_, rfl, by decide, by decide⟩, ⟨_, rfl, by decide⟩, ⟨_, rfl, by decide, by decide⟩, ⟨_, rfl, by decide⟩⟩

theorem witness_DecInitConstructs :
    State.reset.dec.task = none ∧ State.reset.dec.packetSrc = none ∧ (0x8100 : Word) &&& 0xFEFF = 0x8000 :=
  ⟨rfl, rfl, by decide⟩

theorem witness_GetMalformedReturnsFlag :
    State.reset.dec.task = none ∧ State.reset.dec.packetSrc = none ∧ (0xC000 : Word) &&& 0xFFFF = 0xC000 :=
  ⟨rfl, rfl, by decide⟩

theorem witness_ClearMalformedClearsFlag :
    State.reset.dec.task = none ∧ State.reset.dec.packetSrc = none ∧ (0xD000 : Word) &&& 0xFFFF = 0xD000 :=
  ⟨rfl, rfl, by decide⟩

/-- For every clause, an idle decoder with the clause's escape state and a sink that accepts its emit; the bytes at the
edges of the clauses. -/
theorem witness_DecByteTransitions :
    (∃ s : State, ∃ p, s.dec.task = none ∧ s.dec.packetSrc = none ∧ s.dec.esc = .normal ∧ ESC_END ≠ END ∧
      ESC_END ≠ ESC ∧ s.dec.snk.write [ESC_END] = some (.ok, p)) ∧
    (∃ s : State, ∃ p q r, s.dec.task = none ∧ s.dec.packetSrc = none ∧ s.dec.esc = .escaped ∧
      s.dec.snk.write [END] = some (.ok, p) ∧ s.dec.snk.write [ESC] = some (.ok, q) ∧
      END ≠ ESC_END ∧ END ≠ ESC_ESC ∧ ESC ≠ ESC_END ∧ ESC ≠ ESC_ESC ∧ s.dec.snk.write [0x00] = some (.ok, r)) :=
  ⟨⟨decOn false .normal false (mem []) acc, _, rfl, rfl, rfl, by decide, by decide, rfl⟩,
    ⟨decOn false .escaped false (mem []) acc, _, _, _, rfl, rfl, rfl, rfl, rfl, by decide, by decide, by decide,
      by decide, rfl⟩⟩

/-- DS-11 and DS-14. -/
theorem witness_DecByteFailedEmitKeepsRegisters :
    (∃ s : State, ∃ p, s.dec.task = none ∧ s.dec.packetSrc = none ∧ (decodeWire s.dec.esc [0x41]).data = [0x41] ∧
      s.dec.snk.write [0x41] = some (.eof, p) ∧ SnkStatus.eof ≠ .ok) ∧
    (∃ s : State, ∃ p, s.dec.task = none ∧ s.dec.packetSrc = none ∧ (decodeWire s.dec.esc [0x09]).data = [0x09] ∧
      s.dec.snk.write [0x09] = some (.error, p) ∧ SnkStatus.error ≠ .ok) :=
  ⟨⟨decOn false .normal false (mem []) (.external [.eof]), _, rfl, rfl, by decide, rfl, by decide⟩,
    ⟨decOn false .escaped false (mem []) (.external [.error]), _, rfl, rfl, by decide, rfl, by decide⟩⟩

/-- A packet that ends before the source does, a source that ends in an escape sequence, and an empty source
(DT-18, DT-10, DT-19). -/
theorem witness_DecTransferOutcomes :
    (∃ s : State, ∃ d q log src a src', s.dec.task = none ∧ s.dec.packetSrc = none ∧
      transferWire s.dec.reqStart s.dec.esc [0xDC, 0xC0, 0xC0] = d ∧ s.dec.snk.accepts d.data = some q ∧
      [0xDC, 0xC0, 0xC0] = [0xDC, 0xC0] ++ [END] ∧ Reads s.dec.src [0xDC, 0xC0] log src ∧
      src.read Config.readChunk = some (a, src') ∧ fetchByte a = .byte END ∧ d.ended = true ∧
      d.consumed = [0xDC, 0xC0, 0xC0]) ∧
    (∃ s : State, ∃ d q log src src', s.dec.task = none ∧ s.dec.packetSrc = none ∧
      transferWire s.dec.reqStart s.dec.esc [0x41, 0xDB] = d ∧ s.dec.snk.accepts d.data = some q ∧
      Reads s.dec.src [0x41, 0xDB] log src ∧ src.read Config.readChunk = some (eofAnswer, src') ∧
      d.ended = false) ∧
    (∃ s : State, ∃ d q log src src', s.dec.task = none ∧ s.dec.packetSrc = none ∧
      transferWire s.dec.reqStart s.dec.esc [] = d ∧ s.dec.snk.accepts d.data = some q ∧
      Reads s.dec.src [] log src ∧ src.read Config.readChunk = some (eofAnswer, src') ∧ d.ended = false) :=
  ⟨⟨decOn true .escaped false (mem [0xDC, 0xC0, 0xC0, 0x41]) acc, _, _, _, _, _, _, rfl, rfl, rfl, rfl, by decide,
      reads_inMemory (rest := [0xC0, 0x41]) rfl, rfl, rfl, by decide, by decide⟩,
    ⟨decOn false .normal false (mem [0x41, 0xDB]) acc, _, _, _, _, _, rfl, rfl, rfl, rfl,
      reads_inMemory (rest := []) rfl, rfl, by decide⟩,
    ⟨decOn false .escaped false (mem []) acc, _, _, _, _, _, rfl, rfl, rfl, rfl, .nil _, rfl, by decide⟩⟩

/-- DT-15 in the scan, and DT-16's failed emit in the loop. -/
theorem witness_DecTransferIoErrors :
    (∃ s : State, ∃ log src src' a q, s.dec.task = none ∧ s.dec.packetSrc = none ∧ Reads s.dec.src [0x2C] log src ∧
      src.read Config.readChunk = some (a, src') ∧ (transferWire s.dec.reqStart s.dec.esc [0x2C]).ended = false ∧
      fetchByte a = .ioFail ∧ s.dec.snk.accepts (transferWire s.dec.reqStart s.dec.esc [0x2C]).data = some q) ∧
    (∃ s : State, ∃ log src src' a q, s.dec.task = none ∧ s.dec.packetSrc = none ∧ Reads s.dec.src [0x41] log src ∧
      src.read Config.readChunk = some (a, src') ∧ (transferWire s.dec.reqStart s.dec.esc [0x41]).ended = false ∧
      fetchByte a = .byte 0x42 ∧
      (transferWire s.dec.reqStart s.dec.esc ([0x41] ++ [0x42])).data =
        (transferWire s.dec.reqStart s.dec.esc [0x41]).data ++ [0x42] ∧
      s.dec.snk.FailsAt (transferWire s.dec.reqStart s.dec.esc [0x41]).data 0x42 .eof q) :=
  ⟨⟨decOn true .normal false (.external [⟨[0x2C], .more⟩, ⟨[], .error⟩]) acc, _, _, _, _, _, rfl, rfl,
      .byte rfl rfl (.nil _), rfl, by decide, rfl, rfl⟩,
    ⟨decOn false .normal false (mem [0x41, 0x42, 0xC0]) (cap 1), _, _, _, _, _, rfl, rfl,
      reads_inMemory (rest := [0x42, 0xC0]) rfl, rfl, by decide, rfl, by decide, _, rfl, rfl, by decide⟩⟩

/-- Noise and a malformed escape sequence under the start-byte policy, and an empty W. -/
theorem witness_DecPacketDecodesBuffer :
    (∃ s : State, ∃ d q, s.dec.task = none ∧ s.dec.packetSrc = none ∧
      transferWire s.dec.reqStart s.dec.esc [0x2C, 0xC0, 0xDB, 0x09, 0xC0] = d ∧ s.dec.snk.accepts d.data = some q) ∧
    (∃ s : State, ∃ d q, s.dec.task = none ∧ s.dec.packetSrc = none ∧
      transferWire s.dec.reqStart s.dec.esc [] = d ∧ s.dec.snk.accepts d.data = some q) :=
  ⟨⟨decOn true .normal false (mem []) acc, _, _, rfl, rfl, rfl, rfl⟩, ⟨State.reset, _, _, rfl, rfl, rfl, rfl⟩⟩

/-- DP-7. -/
theorem witness_DecPacketFailedEmit :
    ∃ s : State, ∃ q, s.dec.task = none ∧ s.dec.packetSrc = none ∧
      (transferWire s.dec.reqStart s.dec.esc [0x01]).ended = false ∧
      (transferWire s.dec.reqStart s.dec.esc ([0x01] ++ [0x02])).data =
        (transferWire s.dec.reqStart s.dec.esc [0x01]).data ++ [0x02] ∧
      s.dec.snk.FailsAt (transferWire s.dec.reqStart s.dec.esc [0x01]).data 0x02 .eof q :=
  ⟨decOn false .normal false (mem []) (cap 1), _, rfl, rfl, by decide, by decide, _, rfl, rfl, by decide⟩

theorem witness_DecodingAFrameGivesThePayload :
    ∃ s : State, ∃ q, s.dec.task = none ∧ s.dec.packetSrc = none ∧ s.dec.esc = .normal ∧
      s.dec.snk.accepts [0xC0, 0xDB, 0xDC, 0xDD, 0x00] = some q :=
  ⟨decOn true .normal true (mem []) acc, _, rfl, rfl, rfl, rfl⟩

/-- L1-4 and DT-3: under each policy. -/
theorem witness_ReencodingRestoresTheWire :
    (∃ t, exec (.decPacket [0x2C, 0xDB, 0x16, 0xC0, 0x01, 0x02, 0xC0]) (decOn true .normal false (mem []) acc) =
        .next t ∧ t.dec.malformed = false ∧ t.dec.responses = [] ++ [.plain .endOfPacket]) ∧
    (∃ t, exec (.decPacket [0x01, 0xDB, 0xDD, 0xC0, 0x07]) (decOn false .normal false (mem []) acc) = .next t ∧
      t.dec.malformed = false ∧ t.dec.responses = [] ++ [.plain .endOfPacket]) :=
  ⟨⟨_, rfl, by decide, by decide⟩, ⟨_, rfl, by decide, by decide⟩⟩

/-- CB-1, and a run of one byte that ends without an `END`, split before it. -/
theorem witness_ChunkBoundariesDoNotMatter :
    (∃ s : State, ∃ d q, s.dec.task = none ∧ s.dec.packetSrc = none ∧ s.dec.reqStart = false ∧
      decodeWire s.dec.esc ([0x41, 0xDB] ++ [0xDC, 0x42, 0xC0]) = d ∧
      d.consumed = [0x41, 0xDB] ++ [0xDC, 0x42, 0xC0] ∧ s.dec.snk.accepts d.data = some q) ∧
    (∃ s : State, ∃ d q, s.dec.task = none ∧ s.dec.packetSrc = none ∧ s.dec.reqStart = false ∧
      decodeWire s.dec.esc ([] ++ [0xDB]) = d ∧ d.consumed = [] ++ [0xDB] ∧ s.dec.snk.accepts d.data = some q) :=
  ⟨⟨decOn false .normal false (mem []) acc, _, _, rfl, rfl, rfl, rfl, by decide, rfl⟩,
    ⟨decOn false .escaped false (mem []) acc, _, _, rfl, rfl, rfl, rfl, by decide, rfl⟩⟩

theorem witness_PacketDecodingTerminates :
    (∃ t, exec (.decPacket [0x41]) (decOn false .normal false (mem []) (cap 0)) = .next t) ∧
    (decOn false .normal false (mem []) (cap 0)).dec.snk = .inMemory ⟨[], 0⟩ := ⟨⟨_, rfl⟩, rfl⟩

theorem witness_EmitsAtMostWhatItConsumes :
    (∃ t, exec (.decByte 0x41) (decOn false .normal false (mem []) acc) = .next t ∧ t.dec.snkLog.length = 1) ∧
    (∃ t, exec (.decPacket [0x41]) (decOn false .normal false (mem []) acc) = .next t ∧ t.dec.snkLog.length = 1) :=
  ⟨⟨_, rfl, by decide⟩, ⟨_, rfl, by decide⟩⟩

/-- DT-7 and DP-1. -/
theorem witness_StartByteNotFoundWritesNothing :
    (∃ t, exec .decTransfer (decOn true .normal false (mem [0x01, 0xDB, 0x02]) acc) = .next t ∧
      t.dec.responses = [] ++ [.plain .startByteNotFound]) ∧
    (∃ t, exec (.decPacket []) (decOn false .escaped false (mem []) acc) = .next t ∧
      t.dec.responses = [] ++ [.plain .startByteNotFound]) := ⟨⟨_, rfl, by decide⟩, ⟨_, rfl, by decide⟩⟩

/-- ET-9's failed write and ET-6's failed read. -/
theorem witness_FailedTransactionEndsTheCommand :
    (∃ t, step ((encOn false (mem [0xDB]) (cap 1)).withFetchWord 16 0x4000) = .next t ∧
      t.enc.snkLog.getLast? = some ⟨[0xDD], .eof⟩) ∧
    (∃ t, step ((encOn false (.external [⟨[0x41, 0x42], .more⟩]) acc).withFetchWord 16 0x4000) = .next t ∧
      (t.enc.srcLog.getLast?.map fun x => fetchByte x.answer) = some .ioFail) := ⟨⟨_, rfl, by decide⟩, ⟨_, rfl, by decide⟩⟩

theorem witness_MalformedIsSticky :
    ∃ t, step ((decOn false .normal true (mem []) acc).withFetchWord 16 0xD000) = .next t ∧
      t.dec.malformed = false := ⟨_, rfl, by decide⟩

/-- The invariant holds of a state whose units both wait, and a step goes on from it; and of a DEC_PACKET that waits at
an emit with the cursor of its own source at the end of W, from which an answer goes on. -/
theorem witness_StepKeepsInvariant :
    (bothBusy.Inv ∧ ∃ t, step { bothBusy with inputs := [.sourceAnswer .encoder eofAnswer] } = .next t) ∧
    ∃ s t, exec (.decPacket [0x41]) State.reset = .next s ∧ s.dec.packetSrc = some ⟨[0x41], 1⟩ ∧ s.Inv ∧
      step { s with inputs := [.sinkAnswer .decoder .ok] } = .next t := by
  refine ⟨⟨⟨⟨rfl, rfl, rfl⟩, ⟨rfl, rfl, rfl, ?_, ?_, ?_, ?_⟩⟩, _, rfl⟩,
    ⟨_, _, rfl, by decide, ⟨⟨trivial, rfl, rfl⟩, ⟨rfl, rfl, rfl, ?_, ?_, ?_, ?_⟩⟩, rfl⟩⟩
  · intro h; cases h
  · intro _ h; cases h
  · intro h; cases h
  · intro _ h; cases h
  · intro h; cases h
  · intro _ h; cases h; rfl
  · intro h; cases h
  · intro _ h; cases h

theorem witness_PoliciesAreWrittenByInitOnly :
    (∃ t, step (State.reset.withFetchWord 16 0x1100) = .next t ∧ t.enc.useStart ≠ State.reset.enc.useStart) ∧
    (∃ t, step (State.reset.withFetchWord 16 0x8100) = .next t ∧ t.dec.reqStart ≠ State.reset.dec.reqStart) :=
  ⟨⟨_, rfl, by decide⟩, ⟨_, rfl, by decide⟩⟩

end Sys2Proof.Tests
end

/-! SUPPORT. What a step can do, said once: what a command makes of its unit (`exec_cases`), what one action of the
outside world makes of each unit (`deliver_cases`, `step_cases`), and what an answer of `ENV` to a device's port does
(`step_sourceAnswer_encoder` and its like). -/

namespace Sys2Proof.Machine

/-! ## What a command makes of its unit -/

/-- What a command of the encoder makes of the idle unit `u` (R102 to R105). -/
inductive EncCommand (u : EncUnit) : Instr → EncUnit → Prop where
  | init (v : Bool) : EncCommand u (.encInit v) ((u.setUseStart v).endCommand (.plain .ok))
  | byte (b : Byte) : EncCommand u (.encByte b) (encContinue u (encGoOn (stuff b) .finish))
  | packet (v : Bool) (p : List Byte) :
      EncCommand u (.encPacket v p) (encContinue u (encGoOn (leadingEnd v) (.payload p 0)))
  | transfer : EncCommand u .encTransfer (encContinue u (encGoOn (leadingEnd u.useStart) .fetch))

/-- What a command of the decoder makes of the idle unit `u` (R130 to R136). -/
inductive DecCommand (u : DecUnit) : Instr → DecUnit → Prop where
  | init (v : Bool) : DecCommand u (.decInit v) ((u.construct v).endCommand (.plain .ok))
  | byte (b : Byte) :
      DecCommand u (.decByte b) (decContinue (decConsume u b false).1 (decConsume u b false).2)
  | transfer : DecCommand u .decTransfer (decContinue u (decTransferStart u))
  | packet (w : List Byte) : DecCommand u (.decPacket w) (decContinue (u.attachPacket w) (decTransferStart u))
  | getMalformed : DecCommand u .decGetMalformed (u.endCommand ⟨.ok, u.malformedValue⟩)
  | clearMalformed : DecCommand u .decClearMalformed ((u.setMalformed false).endCommand (.plain .ok))

/-- An encoder command that answers a next state found the unit idle and changed nothing else (R14, R57). -/
theorem onEnc_next {s t : State} {u : EncUnit} (h : onEnc s u = .next t) : s.enc.busy = false ∧ t = s.setEnc u := by
  obtain ⟨hb, ho⟩ | ⟨-, ho⟩ := onEnc_cases h
  · exact ⟨hb, Host.Outcome.next.inj ho⟩
  · cases ho

/-- A decoder command that answers a next state found the unit idle and changed nothing else (R14, R57). -/
theorem onDec_next {s t : State} {u : DecUnit} (h : onDec s u = .next t) : s.dec.busy = false ∧ t = s.setDec u := by
  obtain ⟨hb, ho⟩ | ⟨-, ho⟩ := onDec_cases h
  · exact ⟨hb, Host.Outcome.next.inj ho⟩
  · cases ho

/-- All a command that answers a next state can do: one unit was idle and ran it, and only that unit changed. -/
theorem exec_cases {i : Instr} {s t : State} (h : exec i s = .next t) :
    (unitOf i = .encoder ∧ s.enc.busy = false ∧ ∃ u, EncCommand s.enc i u ∧ t = s.setEnc u) ∨
    (unitOf i = .decoder ∧ s.dec.busy = false ∧ ∃ u, DecCommand s.dec i u ∧ t = s.setDec u) := by
  cases i with
  | encInit v => obtain ⟨hb, ht⟩ := onEnc_next h; exact .inl ⟨rfl, hb, _, .init v, ht⟩
  | encByte b => obtain ⟨hb, ht⟩ := onEnc_next h; exact .inl ⟨rfl, hb, _, .byte b, ht⟩
  | encPacket v p => obtain ⟨hb, ht⟩ := onEnc_next h; exact .inl ⟨rfl, hb, _, .packet v p, ht⟩
  | encTransfer => obtain ⟨hb, ht⟩ := onEnc_next h; exact .inl ⟨rfl, hb, _, .transfer, ht⟩
  | decInit v => obtain ⟨hb, ht⟩ := onDec_next h; exact .inr ⟨rfl, hb, _, .init v, ht⟩
  | decByte b => obtain ⟨hb, ht⟩ := onDec_next h; exact .inr ⟨rfl, hb, _, .byte b, ht⟩
  | decTransfer => obtain ⟨hb, ht⟩ := onDec_next h; exact .inr ⟨rfl, hb, _, .transfer, ht⟩
  | decPacket w => obtain ⟨hb, ht⟩ := onDec_next h; exact .inr ⟨rfl, hb, _, .packet w, ht⟩
  | decGetMalformed => obtain ⟨hb, ht⟩ := onDec_next h; exact .inr ⟨rfl, hb, _, .getMalformed, ht⟩
  | decClearMalformed => obtain ⟨hb, ht⟩ := onDec_next h; exact .inr ⟨rfl, hb, _, .clearMalformed, ht⟩

/-! ## What an action of the outside world makes of each unit -/

/-- What the action `x` makes of the encoder `u` (R13). -/
inductive EncMove (u : EncUnit) : Input → EncUnit → Prop where
  | stay (x : Input) : EncMove u x u
  | command {w : Word} {operand : List Byte} {i : Instr} {u' : EncUnit} (hd : decode w operand = .ok i)
      (hb : u.busy = false) (hu : EncCommand u i u') : EncMove u (.command w operand) u'
  | sourceAnswer {a : SrcAnswer} {p : Source} (hp : u.src.give a = some p) :
      EncMove u (.sourceAnswer .encoder a) (wakeEnc (u.setSrc p))
  | sinkAnswer {st : SnkStatus} {p : Sink} (hp : u.snk.give st = some p) :
      EncMove u (.sinkAnswer .encoder st) (wakeEnc (u.setSnk p))
  | attachSource (d : SrcDevice) (hb : u.busy = false) : EncMove u (.attachSource .encoder d) (u.setSrc d.attach)
  | attachSink (d : SnkDevice) (hb : u.busy = false) : EncMove u (.attachSink .encoder d) (u.setSnk d.attach)
  | powerOn : EncMove u .powerOn (u.setUseStart false).idle

/-- What the action `x` makes of the decoder `u` (R13). -/
inductive DecMove (u : DecUnit) : Input → DecUnit → Prop where
  | stay (x : Input) : DecMove u x u
  | command {w : Word} {operand : List Byte} {i : Instr} {u' : DecUnit} (hd : decode w operand = .ok i)
      (hb : u.busy = false) (hu : DecCommand u i u') : DecMove u (.command w operand) u'
  | sourceAnswer {a : SrcAnswer} {p : Source} (hp : u.src.give a = some p) :
      DecMove u (.sourceAnswer .decoder a) (wakeDec (u.setSrc p))
  | sinkAnswer {st : SnkStatus} {p : Sink} (hp : u.snk.give st = some p) :
      DecMove u (.sinkAnswer .decoder st) (wakeDec (u.setSnk p))
  | attachSource (d : SrcDevice) (hb : u.busy = false) : DecMove u (.attachSource .decoder d) (u.setSrc d.attach)
  | attachSink (d : SnkDevice) (hb : u.busy = false) : DecMove u (.attachSink .decoder d) (u.setSnk d.attach)
  | powerOn : DecMove u .powerOn (u.construct false).idle

/-- A word and operand that decode run their command (R14, R78). -/
theorem offer_of_decode_ok {w : Word} {operand : List Byte} {i : Instr} (h : decode w operand = .ok i) (s : State) :
    offer w operand s = exec i s := by
  simp [offer, h]

/-- A word and operand that do not decode are refused by name (R77). -/
theorem offer_of_decode_error {w : Word} {operand : List Byte} {e : Reject} (h : decode w operand = .error e)
    (s : State) : offer w operand s = .refused (refusalOf w e) := by
  simp [offer, h]

/-- What a command offered on the host channel makes of each unit (R14, R78). -/
theorem offer_cases {w : Word} {operand : List Byte} {s t : State} (h : offer w operand s = .next t) :
    EncMove s.enc (.command w operand) t.enc ∧ DecMove s.dec (.command w operand) t.dec := by
  cases hd : decode w operand with
  | error e => rw [offer_of_decode_error hd] at h; cases h
  | ok i =>
    rw [offer_of_decode_ok hd] at h
    obtain ⟨-, hb, u, hu, rfl⟩ | ⟨-, hb, u, hu, rfl⟩ := exec_cases h
    · exact ⟨.command hd hb hu, .stay _⟩
    · exact ⟨.stay _, .command hd hb hu⟩

/-- What an answer of `ENV` to a source port makes of each unit (R43). -/
theorem answerSource_cases {unit : UnitId} {a : SrcAnswer} {s t : State} (h : answerSource unit a s = .next t) :
    EncMove s.enc (.sourceAnswer unit a) t.enc ∧ DecMove s.dec (.sourceAnswer unit a) t.dec := by
  cases unit with
  | encoder =>
    simp only [answerSource] at h
    split at h <;> cases h
    exact ⟨.sourceAnswer ‹_›, .stay _⟩
  | decoder =>
    simp only [answerSource] at h
    split at h <;> cases h
    exact ⟨.stay _, .sourceAnswer ‹_›⟩

/-- What an answer of `ENV` to a sink port makes of each unit (R43). -/
theorem answerSink_cases {unit : UnitId} {st : SnkStatus} {s t : State} (h : answerSink unit st s = .next t) :
    EncMove s.enc (.sinkAnswer unit st) t.enc ∧ DecMove s.dec (.sinkAnswer unit st) t.dec := by
  cases unit with
  | encoder =>
    simp only [answerSink] at h
    split at h <;> cases h
    exact ⟨.sinkAnswer ‹_›, .stay _⟩
  | decoder =>
    simp only [answerSink] at h
    split at h <;> cases h
    exact ⟨.stay _, .sinkAnswer ‹_›⟩

/-- What an attachment behind a source port makes of each unit (R182). -/
theorem attachSource_cases {unit : UnitId} {d : SrcDevice} {s t : State} (h : attachSource unit d s = .next t) :
    EncMove s.enc (.attachSource unit d) t.enc ∧ DecMove s.dec (.attachSource unit d) t.dec := by
  unfold attachSource at h
  split at h
  · cases h
  · have hb := Bool.eq_false_of_not_eq_true ‹_›
    cases unit <;> cases h
    · exact ⟨.attachSource d hb, .stay _⟩
    · exact ⟨.stay _, .attachSource d hb⟩

/-- What an attachment behind a sink port makes of each unit (R182). -/
theorem attachSink_cases {unit : UnitId} {d : SnkDevice} {s t : State} (h : attachSink unit d s = .next t) :
    EncMove s.enc (.attachSink unit d) t.enc ∧ DecMove s.dec (.attachSink unit d) t.dec := by
  unfold attachSink at h
  split at h
  · cases h
  · have hb := Bool.eq_false_of_not_eq_true ‹_›
    cases unit <;> cases h
    · exact ⟨.attachSink d hb, .stay _⟩
    · exact ⟨.stay _, .attachSink d hb⟩

/-- All an action of the outside world can make of the two units. -/
theorem deliver_cases {x : Input} {s t : State} (h : deliver x s = .next t) :
    EncMove s.enc x t.enc ∧ DecMove s.dec x t.dec := by
  cases x with
  | command w operand => exact offer_cases h
  | sourceAnswer unit a => exact answerSource_cases h
  | sinkAnswer unit st => exact answerSink_cases h
  | attachSource unit d => exact attachSource_cases h
  | attachSink unit d => exact attachSink_cases h
  | powerOn => cases h; exact ⟨.powerOn, .powerOn⟩

/-- A step with an action of the outside world left delivers it (R13). -/
theorem step_eq_deliver {s : State} {x : Input} {rest : List Input} (h : s.inputs = x :: rest) :
    step s = deliver x (s.takeInput rest) := by
  simp [step, takeNext, h]

/-- All a step that answers a next state can do: nothing is left to take and it changes nothing, or it takes the next
action, which moves each unit. -/
theorem step_cases {s t : State} (h : step s = .next t) :
    (s.inputs = [] ∧ t = s) ∨
    ∃ x rest, s.inputs = x :: rest ∧ EncMove s.enc x t.enc ∧ DecMove s.dec x t.dec := by
  cases hi : s.inputs with
  | nil => simp only [step, takeNext, hi] at h; cases h; exact .inl ⟨rfl, rfl⟩
  | cons x rest =>
    rw [step_eq_deliver hi] at h
    have hd := deliver_cases h
    exact .inr ⟨x, rest, rfl, hd⟩

/-! ## When a transaction is unanswered -/

@[simp] theorem encTransact_write_eq_none {u : EncUnit} {b : Byte} {out : List Byte} {k : EncThen} :
    encTransact u (.write b out k) = none ↔ u.snk.write [b] = none := by
  simp only [encTransact, EncUnit.write]
  cases u.snk.write [b] <;> simp

@[simp] theorem encTransact_read_eq_none {u : EncUnit} :
    encTransact u .read = none ↔ u.src.read Config.readChunk = none := by
  simp only [encTransact, EncUnit.read]
  cases u.src.read Config.readChunk <;> simp

@[simp] theorem decTransact_scan_eq_none {u : DecUnit} :
    decTransact u .scan = none ↔ u.activeSrc.read Config.readChunk = none := by
  simp only [decTransact, DecUnit.read]
  cases u.activeSrc.read Config.readChunk <;> simp

@[simp] theorem decTransact_fetch_eq_none {u : DecUnit} {got : Bool} :
    decTransact u (.fetch got) = none ↔ u.activeSrc.read Config.readChunk = none := by
  simp only [decTransact, DecUnit.read]
  cases u.activeSrc.read Config.readChunk <;> simp

@[simp] theorem decTransact_emit_eq_none {u : DecUnit} {x : Byte} {sig : Signal} {inLoop : Bool} :
    decTransact u (.emit x sig inLoop) = none ↔ u.snk.write [x] = none := by
  simp only [decTransact, DecUnit.write]
  cases u.snk.write [x] <;> simp

@[simp] theorem DecUnit.activeSrc_waitAt (u : DecUnit) (t : DecTask) : (u.waitAt t).activeSrc = u.activeSrc := rfl

/-! ## What an answer of `ENV` to a device's port does -/

theorem wakeEnc_idle {u : EncUnit} (h : u.task = none) : wakeEnc u = u := by simp [wakeEnc, h]

theorem wakeEnc_waiting {u : EncUnit} {t : EncTask} (h : u.task = some t) :
    wakeEnc u = encContinue u (.wait t) := by simp [wakeEnc, h]

theorem wakeDec_idle {u : DecUnit} (h : u.task = none) : wakeDec u = u := by simp [wakeDec, h]

theorem wakeDec_waiting {u : DecUnit} {t : DecTask} (h : u.task = some t) :
    wakeDec u = decContinue u (.wait t) := by simp [wakeDec, h]

section
variable {s : State} {rest : List Input} {a : SrcAnswer} {st : SnkStatus}

theorem step_sourceAnswer_encoder {as : List SrcAnswer} (hi : s.inputs = .sourceAnswer .encoder a :: rest)
    (hp : s.enc.src = .external as) :
    step s = .next ((s.takeInput rest).setEnc (wakeEnc (s.enc.setSrc (.external (as ++ [a]))))) := by
  simp [step_eq_deliver hi, deliver, answerSource, hp, Source.give]

theorem step_sinkAnswer_encoder {as : List SnkStatus} (hi : s.inputs = .sinkAnswer .encoder st :: rest)
    (hp : s.enc.snk = .external as) :
    step s = .next ((s.takeInput rest).setEnc (wakeEnc (s.enc.setSnk (.external (as ++ [st]))))) := by
  simp [step_eq_deliver hi, deliver, answerSink, hp, Sink.give]

theorem step_sourceAnswer_decoder {as : List SrcAnswer} (hi : s.inputs = .sourceAnswer .decoder a :: rest)
    (hp : s.dec.src = .external as) :
    step s = .next ((s.takeInput rest).setDec (wakeDec (s.dec.setSrc (.external (as ++ [a]))))) := by
  simp [step_eq_deliver hi, deliver, answerSource, hp, Source.give]

theorem step_sinkAnswer_decoder {as : List SnkStatus} (hi : s.inputs = .sinkAnswer .decoder st :: rest)
    (hp : s.dec.snk = .external as) :
    step s = .next ((s.takeInput rest).setDec (wakeDec (s.dec.setSnk (.external (as ++ [st]))))) := by
  simp [step_eq_deliver hi, deliver, answerSink, hp, Sink.give]

end

/-! ## What the decoder's fetches write -/

/-- What a read of the scan brings writes `DEC.PREV` and `DEC.ESC` only (R129). -/
theorem decScanned_frame (u : DecUnit) (f : Fetch) :
    ∃ b e, (decScanned u f).1 = (u.setPrev b).setEsc e := by
  cases f with
  | byte b =>
    simp only [decScanned]
    split
    · exact ⟨b, .normal, rfl⟩
    · exact ⟨b, u.esc, rfl⟩
  | eos => exact ⟨u.prev, u.esc, rfl⟩
  | ioFail => exact ⟨u.prev, u.esc, rfl⟩
  | again => exact ⟨u.prev, u.esc, rfl⟩

/-- A byte consumed writes registers only, and is an `ESC` if it leaves the decoder ESCAPED (R120, R122). -/
theorem decConsume_frame (u : DecUnit) (b : Byte) (inLoop : Bool) :
    ∃ e m, (decConsume u b inLoop).1 = ((u.setPrev b).setEsc e).setMalformed m ∧ (e = .escaped → b = ESC) := by
  obtain ⟨e, m, h, -, hb⟩ := decodeStep_frame u b
  exact ⟨e, m, (decConsume_cases u b inLoop).1.trans h, hb⟩

/-- What a read of the decode loop brings writes registers only: what it consumed, or the same again (R132). -/
theorem decFetched_frame (u : DecUnit) (got : Bool) (f : Fetch) :
    ∃ b e m, (decFetched u got f).1 = ((u.setPrev b).setEsc e).setMalformed m := by
  cases f with
  | byte b =>
    obtain ⟨e, m, h, -⟩ := decConsume_frame u b true
    exact ⟨b, e, m, h⟩
  | eos => exact ⟨u.prev, u.esc, u.malformed, rfl⟩
  | ioFail => exact ⟨u.prev, u.esc, u.malformed, rfl⟩
  | again => exact ⟨u.prev, u.esc, u.malformed, rfl⟩

section
variable (u : DecUnit) (b : Byte) (inLoop got : Bool) (f : Fetch)

@[simp] theorem decConsume_responses : (decConsume u b inLoop).1.responses = u.responses := by
  obtain ⟨e, m, h, -⟩ := decConsume_frame u b inLoop
  simp [h]

@[simp] theorem decScanned_src : (decScanned u f).1.src = u.src := by
  obtain ⟨b, e, h⟩ := decScanned_frame u f
  simp [h]

@[simp] theorem decScanned_srcLog : (decScanned u f).1.srcLog = u.srcLog := by
  obtain ⟨b, e, h⟩ := decScanned_frame u f
  simp [h]

@[simp] theorem decScanned_responses : (decScanned u f).1.responses = u.responses := by
  obtain ⟨b, e, h⟩ := decScanned_frame u f
  simp [h]

@[simp] theorem decFetched_src : (decFetched u got f).1.src = u.src := by
  obtain ⟨b, e, m, h⟩ := decFetched_frame u got f
  simp [h]

@[simp] theorem decFetched_srcLog : (decFetched u got f).1.srcLog = u.srcLog := by
  obtain ⟨b, e, m, h⟩ := decFetched_frame u got f
  simp [h]

@[simp] theorem decFetched_responses : (decFetched u got f).1.responses = u.responses := by
  obtain ⟨b, e, m, h⟩ := decFetched_frame u got f
  simp [h]

end

end Sys2Proof.Machine

/-! SUPPORT. Every step keeps the invariant (O48). What the invariant says of a unit's ports and registers, whatever the
unit does, is kept by every transaction (`decTransact_running` and its like); that a busy unit waits at an unanswered
transaction holds because a command stops nowhere else (`encContinue_inv`, `decContinue_inv`). -/

namespace Sys2Proof.Machine

/-! ## The encoder -/

/-- Whether a transaction is answered depends on the ports, not on the task. -/
theorem encTransact_waitAt_none {u : EncUnit} {t : EncTask} (h : encTransact u t = none) (t' : EncTask) :
    encTransact (u.waitAt t') t = none := by
  cases t with
  | write b out k => simpa using h
  | read => simpa using h

/-- An idle encoder meets its invariant when its cursors are within their buffers. -/
theorem EncUnit.Inv.of_idle {u : EncUnit} (h : u.task = none) (hsrc : u.src.wf = true) (hsnk : u.snk.wf = true) :
    u.Inv where
  waits := by simp [EncUnit.Waits, h]
  src := hsrc
  snk := hsnk

/-- However an encoder command goes on, the encoder meets its invariant where the command stops. -/
theorem encContinue_inv {u : EncUnit} (hsrc : u.src.wf = true) (hsnk : u.snk.wf = true) (p : EncProgress) :
    (encContinue u p).Inv := by
  refine encContinue_rec (Q := fun v _ => v.src.wf = true ∧ v.snk.wf = true) (R := EncUnit.Inv)
    ?_ ?_ ?_ ⟨hsrc, hsnk⟩
  · rintro v t v' r ⟨hsrc, hsnk⟩ ht
    obtain ⟨_, _, _, _, _, -, hw, rfl, -⟩ | ⟨_, _, -, hr, rfl, -⟩ := encTransact_cases ht
    · exact ⟨hsrc, Sink.write_wf hw hsnk⟩
    · exact ⟨Source.read_wf hr hsrc, hsnk⟩
  · rintro v r ⟨hsrc, hsnk⟩
    exact .of_idle rfl hsrc hsnk
  · rintro v t ⟨hsrc, hsnk⟩ ht
    exact ⟨encTransact_waitAt_none ht t, hsrc, hsnk⟩

/-- A woken encoder meets its invariant. -/
theorem wakeEnc_inv {u : EncUnit} (hsrc : u.src.wf = true) (hsnk : u.snk.wf = true) : (wakeEnc u).Inv := by
  cases h : u.task with
  | none => rw [wakeEnc_idle h]; exact .of_idle h hsrc hsnk
  | some t => rw [wakeEnc_waiting h]; exact encContinue_inv hsrc hsnk _

theorem EncCommand.inv {u u' : EncUnit} {i : Instr} (h : EncCommand u i u') (hi : u.Inv) : u'.Inv := by
  cases h with
  | init v => exact .of_idle rfl hi.src hi.snk
  | byte b => exact encContinue_inv hi.src hi.snk _
  | packet v p => exact encContinue_inv hi.src hi.snk _
  | transfer => exact encContinue_inv hi.src hi.snk _

theorem EncMove.inv {u u' : EncUnit} {x : Input} (h : EncMove u x u') (hi : u.Inv) : u'.Inv := by
  cases h with
  | stay => exact hi
  | command _ _ hu => exact hu.inv hi
  | sourceAnswer hp => exact wakeEnc_inv (Source.give_wf hp) hi.snk
  | sinkAnswer hp => exact wakeEnc_inv hi.src (Sink.give_wf hp)
  | attachSource d hb => exact .of_idle (EncUnit.task_none hb) (Source.attach_wf d) hi.snk
  | attachSink d hb => exact .of_idle (EncUnit.task_none hb) hi.src (Sink.attach_wf d)
  | powerOn => exact .of_idle rfl hi.src hi.snk

/-! ## The decoder -/

/-- Whether a transaction is answered depends on the ports, not on the task. -/
theorem decTransact_waitAt_none {u : DecUnit} {t : DecTask} (h : decTransact u t = none) (t' : DecTask) :
    decTransact (u.waitAt t') t = none := by
  cases t with
  | scan => simpa using h
  | fetch got => simpa using h
  | emit x sig inLoop => simpa using h

/-- What the decoder's invariant says of its ports and registers, whether it is busy or not. -/
structure DecUnit.Sound (u : DecUnit) : Prop where
  src : u.src.wf = true
  snk : u.snk.wf = true
  packetCursor : ∀ m, u.packetSrc = some m → m.wf = true
  escaped : u.reqStart = false → u.esc = .escaped → u.prev = ESC

/-- A command of the decoder under way: the decoder is sound, and the scan runs only under the start-byte policy. -/
structure DecUnit.Running (u : DecUnit) (p : DecProgress) : Prop where
  sound : u.Sound
  scan : p = .wait .scan → u.reqStart = true

theorem DecUnit.Inv.sound {u : DecUnit} (h : u.Inv) : u.Sound := ⟨h.src, h.snk, h.packetCursor, h.escaped⟩

/-- An idle decoder meets its invariant when it is sound and DEC_PACKET's own source is gone. -/
theorem DecUnit.Sound.inv_of_idle {u : DecUnit} (h : u.Sound) (ht : u.task = none) (hp : u.packetSrc = none) :
    u.Inv where
  waits := by simp [DecUnit.Waits, ht]
  src := h.src
  snk := h.snk
  packet _ := hp
  packetCursor := h.packetCursor
  scan hs := by simp [ht] at hs
  escaped := h.escaped

/-- Ending a command keeps the decoder sound, DEC_PACKET's own source being gone (R62). -/
theorem DecUnit.Sound.idle {u : DecUnit} (h : u.Sound) : u.idle.Sound := ⟨h.src, h.snk, by simp, h.escaped⟩

/-- A command that returns leaves a sound decoder, idle. -/
theorem DecUnit.Sound.endCommand_inv {u : DecUnit} (h : u.Sound) (r : Response) : (u.endCommand r).Inv :=
  DecUnit.Sound.inv_of_idle { h.idle with } rfl rfl

/-- A command that stops at an unanswered transaction leaves the decoder waiting there. -/
theorem DecUnit.Running.waitAt_inv {u : DecUnit} {t : DecTask} (h : u.Running (.wait t)) (ht : decTransact u t = none) :
    (u.waitAt t).Inv where
  waits := decTransact_waitAt_none ht t
  src := h.sound.src
  snk := h.sound.snk
  packet hn := by simp at hn
  packetCursor := h.sound.packetCursor
  scan hs := h.scan (by simpa using hs)
  escaped := h.sound.escaped

/-- A read at `DEC.SRC` leaves every cursor within its buffer (R50, R62). -/
theorem DecUnit.Sound.afterRead {u : DecUnit} {a : SrcAnswer} {q : Source} (h : u.Sound)
    (hq : u.activeSrc.read Config.readChunk = some (a, q)) : ((u.setActiveSrc q).logRead a).Sound where
  src := by
    have hsrc := h.src
    unfold DecUnit.activeSrc at hq
    unfold DecUnit.setActiveSrc
    split at hq
    · rename_i m hm
      cases q <;> simpa [hm] using hsrc
    · rename_i hm
      simpa [hm] using Source.read_wf hq hsrc
  snk := by simpa using h.snk
  packetCursor := by simpa using DecUnit.setActiveSrc_packet_wf hq h.packetCursor
  escaped := by simpa using h.escaped

/-- A write leaves every cursor within its buffer (R51). -/
theorem DecUnit.Sound.afterWrite {u : DecUnit} {x : Byte} {st : SnkStatus} {q : Sink} (h : u.Sound)
    (hq : u.snk.write [x] = some (st, q)) : (u.afterWrite q x st).Sound :=
  ⟨h.src, Sink.write_wf hq h.snk, h.packetCursor, h.escaped⟩

/-- Register writes keep the decoder sound when ESCAPED comes with an `ESC` (R26). -/
theorem DecUnit.Sound.setRegs {u : DecUnit} (h : u.Sound) {b : Byte} {e : EscState}
    (he : u.reqStart = false → e = .escaped → b = ESC) :
    ((u.setPrev b).setEsc e).Sound :=
  ⟨h.src, h.snk, h.packetCursor, he⟩

/-- The malformed flag is no part of soundness. -/
theorem DecUnit.Sound.setMalformed {u : DecUnit} (h : u.Sound) (m : Bool) : (u.setMalformed m).Sound :=
  ⟨h.src, h.snk, h.packetCursor, h.escaped⟩

/-- Construction leaves a sound decoder (R130). -/
theorem DecUnit.Sound.construct {u : DecUnit} (h : u.Sound) (v : Bool) : (u.construct v).Sound :=
  ⟨h.src, h.snk, h.packetCursor, by simp⟩

/-- DEC_PACKET's own source starts with its cursor within W (R62). -/
theorem DecUnit.Sound.attachPacket {u : DecUnit} (h : u.Sound) (w : List Byte) : (u.attachPacket w).Sound :=
  ⟨h.src, h.snk, by simp [MemSource.wf], h.escaped⟩

/-- A consumed byte keeps the decoder sound (R26, R120). -/
theorem DecUnit.Sound.consumed {u : DecUnit} (h : u.Sound) (b : Byte) (inLoop : Bool) :
    (decConsume u b inLoop).1.Sound := by
  obtain ⟨e, m, hc, he⟩ := decConsume_frame u b inLoop
  rw [hc]
  exact (h.setRegs fun _ => he).setMalformed m

/-- Nothing but the scan itself goes on with the scan (R132). -/
theorem decGoOn_ne_scan (sig : Signal) (inLoop : Bool) : decGoOn sig inLoop ≠ .wait .scan := by
  cases inLoop <;> cases sig <;> simp [decGoOn]

theorem decConsume_ne_scan (u : DecUnit) (b : Byte) (inLoop : Bool) : (decConsume u b inLoop).2 ≠ .wait .scan := by
  obtain ⟨-, ⟨x, -, h⟩ | ⟨-, h⟩⟩ := decConsume_cases u b inLoop
  · simp [h]
  · rw [h]; exact decGoOn_ne_scan _ _

theorem decEmitted_ne_scan (sig : Signal) (inLoop : Bool) (r : Put) : decEmitted sig inLoop r ≠ .wait .scan := by
  cases r with
  | done => exact decGoOn_ne_scan sig inLoop
  | ioFail => simp [decEmitted]

/-- What the scan does with a fetch keeps the command sound: it runs under `REQ_START = 1` (R24, R129). -/
theorem DecUnit.Sound.scanned {u : DecUnit} (h : u.Sound) (hr : u.reqStart = true) (f : Fetch) :
    (decScanned u f).1.Running (decScanned u f).2 := by
  obtain ⟨b, e, hs⟩ := decScanned_frame u f
  have hreq : (decScanned u f).1.reqStart = true := by rw [hs]; exact hr
  refine ⟨?_, fun _ => hreq⟩
  rw [hs]
  exact h.setRegs (by simp [hr])

/-- What the decode loop does with a fetch keeps the command sound (R132). -/
theorem DecUnit.Sound.fetched {u : DecUnit} (h : u.Sound) (got : Bool) (f : Fetch) :
    (decFetched u got f).1.Running (decFetched u got f).2 := by
  cases f with
  | byte b => exact ⟨h.consumed b true, fun hs => absurd hs (decConsume_ne_scan u b true)⟩
  | eos => exact ⟨h, by simp [decFetched]⟩
  | ioFail => exact ⟨h, by simp [decFetched]⟩
  | again => exact ⟨h, by simp [decFetched]⟩

/-- Every answered transaction keeps a command under way. -/
theorem decTransact_running {u u' : DecUnit} {t : DecTask} {p : DecProgress} (h : u.Running (.wait t))
    (ht : decTransact u t = some (u', p)) : u'.Running p := by
  obtain ⟨a, q, rfl, hq, hc⟩ | ⟨got, a, q, rfl, hq, hc⟩ | ⟨x, sig, inLoop, st, q, rfl, hq, rfl, rfl⟩ :=
    decTransact_cases ht
  · have := (h.sound.afterRead hq).scanned (by simpa using h.scan rfl) (fetchByte a)
    rwa [← hc] at this
  · have := (h.sound.afterRead hq).fetched got (fetchByte a)
    rwa [← hc] at this
  · exact ⟨h.sound.afterWrite hq, fun hs => absurd hs (decEmitted_ne_scan sig inLoop _)⟩

/-- However a decoder command goes on, the decoder meets its invariant where the command stops. -/
theorem decContinue_inv {u : DecUnit} {p : DecProgress} (h : u.Running p) : (decContinue u p).Inv :=
  decContinue_rec (Q := DecUnit.Running) (R := DecUnit.Inv) (fun _ _ _ _ hv ht => decTransact_running hv ht)
    (fun _ _ hv => hv.sound.endCommand_inv _) (fun _ _ hv ht => hv.waitAt_inv ht) h

/-- DEC_TRANSFER's body begins with the scan only under the start-byte policy (R132). -/
theorem decTransferStart_scan {u : DecUnit} (h : decTransferStart u = .wait .scan) : u.reqStart = true := by
  unfold decTransferStart at h
  split at h
  · assumption
  · cases h

/-- A woken decoder meets its invariant. -/
theorem wakeDec_inv {u : DecUnit} (h : u.Sound) (hp : u.task = none → u.packetSrc = none)
    (hs : u.task = some .scan → u.reqStart = true) : (wakeDec u).Inv := by
  cases ht : u.task with
  | none => rw [wakeDec_idle ht]; exact h.inv_of_idle ht (hp ht)
  | some t =>
    rw [wakeDec_waiting ht]
    exact decContinue_inv ⟨h, fun he => hs (by cases he; exact ht)⟩

theorem DecCommand.inv {u u' : DecUnit} {i : Instr} (h : DecCommand u i u') (hi : u.Inv) : u'.Inv := by
  have hs := hi.sound
  cases h with
  | init v => exact (hs.construct v).endCommand_inv _
  | byte b => exact decContinue_inv ⟨hs.consumed b false, fun he => absurd he (decConsume_ne_scan u b false)⟩
  | transfer => exact decContinue_inv ⟨hs, decTransferStart_scan⟩
  | packet w => exact decContinue_inv ⟨hs.attachPacket w, decTransferStart_scan⟩
  | getMalformed => exact hs.endCommand_inv _
  | clearMalformed => exact (hs.setMalformed false).endCommand_inv _

theorem DecMove.inv {u u' : DecUnit} {x : Input} (h : DecMove u x u') (hi : u.Inv) : u'.Inv := by
  have hs := hi.sound
  cases h with
  | stay => exact hi
  | command _ _ hu => exact hu.inv hi
  | sourceAnswer hp => exact wakeDec_inv { hs with src := Source.give_wf hp } hi.packet hi.scan
  | sinkAnswer hp => exact wakeDec_inv { hs with snk := Sink.give_wf hp } hi.packet hi.scan
  | attachSource d hb =>
    have ht := DecUnit.task_none hb
    exact DecUnit.Sound.inv_of_idle { hs with src := Source.attach_wf d } ht (hi.packet ht)
  | attachSink d hb =>
    have ht := DecUnit.task_none hb
    exact DecUnit.Sound.inv_of_idle { hs with snk := Sink.attach_wf d } ht (hi.packet ht)
  | powerOn => exact (hs.construct false).idle.inv_of_idle rfl rfl

/-! ## The machine -/

/-- Settles O48: a step changes nothing or moves each unit, and every move keeps its unit's invariant. -/
theorem stepKeepsInvariant : Obligations.StepKeepsInvariant := by
  intro s t hi h
  obtain ⟨-, rfl⟩ | ⟨x, rest, -, henc, hdec⟩ := step_cases h
  · exact hi
  · exact ⟨henc.inv hi.enc, hdec.inv hi.dec⟩

end Sys2Proof.Machine

/-! SUPPORT. One response when a command returns, none before (O50). -/

namespace Sys2Proof.Machine

/-- A unit whose responses were `before` when its command began gave one response if it is idle, none if it is busy
(R14). -/
def OneResponse (before after : List Response) (busy : Bool) : Prop :=
  (busy = false → ∃ r, after = before ++ [r]) ∧ (busy = true → after = before)

theorem EncUnit.endCommand_oneResponse (u : EncUnit) (r : Response) :
    OneResponse u.responses (u.endCommand r).responses (u.endCommand r).busy :=
  ⟨fun _ => ⟨r, rfl⟩, fun h => by simp [EncUnit.busy] at h⟩

theorem DecUnit.endCommand_oneResponse (u : DecUnit) (r : Response) :
    OneResponse u.responses (u.endCommand r).responses (u.endCommand r).busy :=
  ⟨fun _ => ⟨r, rfl⟩, fun h => by simp [DecUnit.busy] at h⟩

theorem EncUnit.waitAt_oneResponse (u : EncUnit) (t : EncTask) :
    OneResponse u.responses (u.waitAt t).responses (u.waitAt t).busy :=
  ⟨fun h => by simp [EncUnit.busy] at h, fun _ => rfl⟩

theorem DecUnit.waitAt_oneResponse (u : DecUnit) (t : DecTask) :
    OneResponse u.responses (u.waitAt t).responses (u.waitAt t).busy :=
  ⟨fun h => by simp [DecUnit.busy] at h, fun _ => rfl⟩

/-- A transaction gives no response (R14). -/
theorem encTransact_responses {u u' : EncUnit} {t : EncTask} {p : EncProgress} (h : encTransact u t = some (u', p)) :
    u'.responses = u.responses := by
  obtain ⟨_, _, _, _, _, -, -, rfl, -⟩ | ⟨_, _, -, -, rfl, -⟩ := encTransact_cases h
  · rfl
  · rfl

/-- A transaction gives no response (R14). -/
theorem decTransact_responses {u u' : DecUnit} {t : DecTask} {p : DecProgress} (h : decTransact u t = some (u', p)) :
    u'.responses = u.responses := by
  obtain ⟨a, q, -, -, hc⟩ | ⟨got, a, q, -, -, hc⟩ | ⟨x, _, _, st, q, -, -, rfl, -⟩ := decTransact_cases h
  · rw [show u' = _ from congrArg Prod.fst hc]
    simp
  · rw [show u' = _ from congrArg Prod.fst hc]
    simp
  · rfl

/-- A command that goes on gives one response where it returns, none where it waits. -/
theorem encContinue_oneResponse (u : EncUnit) (p : EncProgress) :
    OneResponse u.responses (encContinue u p).responses (encContinue u p).busy := by
  refine encContinue_rec (Q := fun v _ => v.responses = u.responses)
    (R := fun v => OneResponse u.responses v.responses v.busy) ?_ ?_ ?_ rfl
  · intro v t v' r hv ht
    exact (encTransact_responses ht).trans hv
  · intro v r hv
    exact hv ▸ v.endCommand_oneResponse _
  · intro v t hv _
    exact hv ▸ v.waitAt_oneResponse t

/-- A command that goes on gives one response where it returns, none where it waits. -/
theorem decContinue_oneResponse (u : DecUnit) (p : DecProgress) :
    OneResponse u.responses (decContinue u p).responses (decContinue u p).busy := by
  refine decContinue_rec (Q := fun v _ => v.responses = u.responses)
    (R := fun v => OneResponse u.responses v.responses v.busy) ?_ ?_ ?_ rfl
  · intro v t v' r hv ht
    exact (decTransact_responses ht).trans hv
  · intro v r hv
    exact hv ▸ v.endCommand_oneResponse _
  · intro v t hv _
    exact hv ▸ v.waitAt_oneResponse t

theorem EncCommand.oneResponse {u u' : EncUnit} {i : Instr} (h : EncCommand u i u') :
    OneResponse u.responses u'.responses u'.busy := by
  cases h with
  | init v => exact (u.setUseStart v).endCommand_oneResponse _
  | byte b => exact encContinue_oneResponse u _
  | packet v p => exact encContinue_oneResponse u _
  | transfer => exact encContinue_oneResponse u _

theorem DecCommand.oneResponse {u u' : DecUnit} {i : Instr} (h : DecCommand u i u') :
    OneResponse u.responses u'.responses u'.busy := by
  cases h with
  | init v => exact (u.construct v).endCommand_oneResponse _
  | byte b => simpa using decContinue_oneResponse (decConsume u b false).1 (decConsume u b false).2
  | transfer => exact decContinue_oneResponse u _
  | packet w => exact decContinue_oneResponse (u.attachPacket w) _
  | getMalformed => exact u.endCommand_oneResponse _
  | clearMalformed => exact (u.setMalformed false).endCommand_oneResponse _

/-- Settles O50: a command changes its own unit only, and that unit responds where the command returns. -/
theorem oneResponsePerCommand : Obligations.OneResponsePerCommand := by
  intro i s t h
  obtain ⟨hi, -, u, hu, rfl⟩ | ⟨hi, -, u, hu, rfl⟩ := exec_cases h
  · exact ⟨fun _ => ⟨rfl, hu.oneResponse⟩, fun hd => by simp [hi] at hd⟩
  · exact ⟨fun he => by simp [hi] at he, fun _ => ⟨rfl, hu.oneResponse⟩⟩

end Sys2Proof.Machine

/-! SUPPORT. The command channel and the answers of `ENV`: an offer runs its command (O2), an answer to a device's port
is taken (O55), and it answers the transaction its unit waits at (O56). -/

namespace Sys2Proof.Machine

/-- Settles O2: a step with an offer in front is that offer, and `decode` says which of its two outcomes it has. -/
theorem stepRunsOfferedCommand : Obligations.StepRunsOfferedCommand := by
  intro s w operand rest hi
  rw [step_eq_deliver hi]
  exact ⟨fun _ hd => offer_of_decode_ok hd _, fun hd => offer_of_decode_error hd _,
    fun hd => offer_of_decode_error hd _, fun hd => offer_of_decode_error hd _⟩

/-- Settles O55: the step wakes the unit with the answer at its port, and an idle unit sleeps on. -/
theorem answersOfEnvAreTaken : Obligations.AnswersOfEnvAreTaken := by
  intro s rest
  refine ⟨fun as a hp hi => ⟨⟨_, step_sourceAnswer_encoder hi hp⟩, fun ht => ?_⟩,
    fun as st hp hi => ⟨⟨_, step_sinkAnswer_encoder hi hp⟩, fun ht => ?_⟩,
    fun as a hp hi => ⟨⟨_, step_sourceAnswer_decoder hi hp⟩, fun ht => ?_⟩,
    fun as st hp hi => ⟨⟨_, step_sinkAnswer_decoder hi hp⟩, fun ht => ?_⟩⟩
  · rw [step_sourceAnswer_encoder hi hp, wakeEnc_idle (by simpa using ht)]; rfl
  · rw [step_sinkAnswer_encoder hi hp, wakeEnc_idle (by simpa using ht)]; rfl
  · rw [step_sourceAnswer_decoder hi hp, wakeDec_idle (by simpa using ht)]; rfl
  · rw [step_sinkAnswer_decoder hi hp, wakeDec_idle (by simpa using ht)]; rfl

/-! ## The transaction a unit waits at, answered by a device -/

/-- A failed write (R47). -/
theorem putByte_of_ne_ok {st : SnkStatus} (h : st ≠ .ok) : putByte st = .ioFail := by
  cases st with
  | ok => exact absurd rfl h
  | eof => rfl
  | error => rfl

/-- The encoder's read is answered, the answer is used up, and the command goes on with what it fetched (R43, R105). -/
theorem wakeEnc_read_answered {u : EncUnit} (ht : u.task = some .read) (hp : u.src = .external []) (a : SrcAnswer) :
    wakeEnc (u.setSrc (.external [a])) = encContinue (u.afterRead u.src a) (encFetched (fetchByte a)) := by
  rw [wakeEnc_waiting (u := u.setSrc (.external [a])) ht, encContinue_read (p := .external []) (a := a) rfl, hp]
  rfl

/-- The encoder's write is answered, the answer is used up, and the command goes on (R43, R101). -/
theorem wakeEnc_write_answered {u : EncUnit} {b : Byte} {out : List Byte} {k : EncThen}
    (ht : u.task = some (.write b out k)) (hp : u.snk = .external []) (st : SnkStatus) :
    wakeEnc (u.setSnk (.external [st])) = encContinue (u.afterWrite u.snk b st) (encWritten out k (putByte st)) := by
  rw [wakeEnc_waiting (u := u.setSnk (.external [st])) ht, hp]
  exact encContinue_wait_some rfl

/-- The decoder's emit is answered, the answer is used up, and the command goes on (R43, R128). -/
theorem wakeDec_emit_answered {u : DecUnit} {x : Byte} {sig : Signal} {inLoop : Bool}
    (ht : u.task = some (.emit x sig inLoop)) (hp : u.snk = .external []) (st : SnkStatus) :
    wakeDec (u.setSnk (.external [st])) =
      decContinue (u.afterWrite u.snk x st) (decEmitted sig inLoop (putByte st)) := by
  rw [wakeDec_waiting (u := u.setSnk (.external [st])) ht, hp]
  exact decContinue_wait_some rfl

/-- A read that a device answered at `DEC.SRC` is recorded, and its answer is used up. -/
theorem DecUnit.readAnswered_eq_logRead {u : DecUnit} (hk : u.packetSrc = none) (hp : u.src = .external [])
    (a : SrcAnswer) : ((u.setSrc (.external [a])).setActiveSrc (.external [])).logRead a = u.logRead a := by
  ext : 1 <;> simp [DecUnit.setActiveSrc, hk, hp]

/-- The decoder's read, in the scan or in the loop, is answered: it is recorded, the answer is used up, and the command
goes on as `v` from `p`; a failed read ends it with IO_ERROR (R43, R129, R132). -/
theorem wakeDec_read_answered {u : DecUnit} {t : DecTask} (hr : t = .scan ∨ ∃ got, t = .fetch got)
    (ht : u.task = some t) (hk : u.packetSrc = none) (hp : u.src = .external []) (a : SrcAnswer) :
    ∃ v p, wakeDec (u.setSrc (.external [a])) = decContinue v p ∧ v.packetSrc = none ∧ v.src = u.src ∧
      v.srcLog = u.srcLog ++ [⟨Config.readChunk, a⟩] ∧
      (fetchByte a = .ioFail → v = u.logRead a ∧ p = .done (.transfer .ioError)) := by
  have hread : (u.setSrc (.external [a])).activeSrc.read Config.readChunk = some (a, .external []) := by
    simp [DecUnit.activeSrc, hk, Source.read]
  rw [wakeDec_waiting (u := u.setSrc (.external [a])) ht]
  obtain rfl | ⟨got, rfl⟩ := hr
  · rw [decContinue_scan hread, DecUnit.readAnswered_eq_logRead hk hp]
    exact ⟨_, _, rfl, by simpa using hk, by simp, by simp, fun hf => by simp [hf, decScanned]⟩
  · rw [decContinue_fetch hread, DecUnit.readAnswered_eq_logRead hk hp]
    exact ⟨_, _, rfl, by simpa using hk, by simp, by simp, fun hf => by simp [hf, decFetched]⟩

/-- A device with no answer ready leaves a read unanswered (R43). -/
theorem Source.read_of_no_answer {p : Source} (h : p = .external []) (n : Nat) : p.read n = none := by
  rw [h]; rfl

/-- A device with no answer ready leaves a write unanswered (R43). -/
theorem Sink.write_of_no_answer {p : Sink} (h : p = .external []) (bs : List Byte) : p.write bs = none := by
  rw [h]; rfl

/-- Settles O56: the step wakes the unit, which makes its transaction with the answer; the port is then without an
answer, so the command makes no further transaction there, and a failed transaction ends the command. -/
theorem answerCompletesTheWaitingTransaction : Obligations.AnswerCompletesTheWaitingTransaction := by
  intro s rest
  refine ⟨?encRead, ?encWrite, ?decRead, ?decEmit⟩
  case encRead =>
    intro a ht hp hi
    have hkeep := encContinue_keeps_src (u := s.enc.afterRead s.enc.src a)
      (Source.read_of_no_answer hp _) (encFetched (fetchByte a))
    refine ⟨_, step_sourceAnswer_encoder hi hp, ?_⟩
    rw [List.nil_append, wakeEnc_read_answered ht hp]
    refine ⟨hkeep.1.trans hp, hkeep.2, fun hf => ?_⟩
    rw [hf]
    rfl
  case encWrite =>
    intro b out k st ht hp hi
    have hkeep := encContinue_keeps_snk (u := s.enc.afterWrite s.enc.snk b st)
      (fun _ => Sink.write_of_no_answer hp _) (encWritten out k (putByte st))
    refine ⟨_, step_sinkAnswer_encoder hi hp, ?_⟩
    rw [List.nil_append, wakeEnc_write_answered ht hp]
    refine ⟨hkeep.1.trans hp, hkeep.2, fun hst => ?_⟩
    rw [putByte_of_ne_ok hst]
    rfl
  case decRead =>
    intro task a hr ht hk hp hi
    obtain ⟨v, p, hw, hvk, hvp, hlog, hfail⟩ := wakeDec_read_answered hr ht hk hp a
    have hkeep := decContinue_keeps_src hvk (Source.read_of_no_answer (hvp.trans hp) _) p
    refine ⟨_, step_sourceAnswer_decoder hi hp, ?_⟩
    rw [List.nil_append, hw]
    refine ⟨hkeep.1.trans (hvp.trans hp), hkeep.2.trans hlog, fun hf => ?_⟩
    obtain ⟨rfl, rfl⟩ := hfail hf
    exact State.ext rfl (DecUnit.ext rfl rfl rfl rfl rfl hk.symm rfl rfl rfl rfl rfl) rfl
  case decEmit =>
    intro x sig inLoop st ht hp hi
    have hkeep := decContinue_keeps_snk (u := s.dec.afterWrite s.dec.snk x st)
      (fun _ => Sink.write_of_no_answer hp _) (decEmitted sig inLoop (putByte st))
    refine ⟨_, step_sinkAnswer_decoder hi hp, ?_⟩
    rw [List.nil_append, wakeDec_emit_answered ht hp]
    refine ⟨hkeep.1.trans hp, hkeep.2, fun hst => ?_⟩
    rw [putByte_of_ne_ok hst]
    cases inLoop <;> rfl

end Sys2Proof.Machine

/-! SUPPORT. The start-byte policies (O53): no transaction writes one, so a command under way keeps it, whether it began
in this step or woke in it, and of the commands and inputs only INIT and power-on reset write one. -/

namespace Sys2Proof.Machine

/-! ## `ENC.USE_START` -/

@[simp] theorem wakeEnc_useStart (u : EncUnit) : (wakeEnc u).useStart = u.useStart := by
  cases ht : u.task with
  | none => rw [wakeEnc_idle ht]
  | some t => rw [wakeEnc_waiting ht, encContinue_useStart]

/-- A command of the encoder other than ENC_INIT keeps the policy (R23). -/
theorem EncCommand.useStart_eq_or_init {u u' : EncUnit} {i : Instr} (h : EncCommand u i u') :
    u'.useStart = u.useStart ∨ ∃ v, i = .encInit v := by
  cases h with
  | init v => exact .inr ⟨v, rfl⟩
  | byte b => exact .inl (encContinue_useStart u _)
  | packet v p => exact .inl (encContinue_useStart u _)
  | transfer => exact .inl (encContinue_useStart u _)

/-- An action that writes the encoder's policy is power-on reset or the offer of an ENC_INIT (R23, R180). -/
theorem EncMove.powerOn_or_init {u u' : EncUnit} {x : Input} (h : EncMove u x u') (hne : u'.useStart ≠ u.useStart) :
    x = .powerOn ∨ ∃ w operand v, x = .command w operand ∧ decode w operand = .ok (.encInit v) := by
  cases h with
  | stay => exact absurd rfl hne
  | command hd _ hu =>
    obtain hkeep | ⟨v, rfl⟩ := hu.useStart_eq_or_init
    · exact absurd hkeep hne
    · exact .inr ⟨_, _, v, rfl, hd⟩
  | sourceAnswer => exact absurd (by simp) hne
  | sinkAnswer => exact absurd (by simp) hne
  | attachSource => exact absurd rfl hne
  | attachSink => exact absurd rfl hne
  | powerOn => exact .inl rfl

/-! ## `DEC.REQ_START` -/

section
variable (u : DecUnit) (b : Byte) (inLoop got : Bool) (f : Fetch)

@[simp] theorem decConsume_reqStart : (decConsume u b inLoop).1.reqStart = u.reqStart := by
  obtain ⟨e, m, h, -⟩ := decConsume_frame u b inLoop
  simp [h]

@[simp] theorem decScanned_reqStart : (decScanned u f).1.reqStart = u.reqStart := by
  obtain ⟨b, e, h⟩ := decScanned_frame u f
  simp [h]

@[simp] theorem decFetched_reqStart : (decFetched u got f).1.reqStart = u.reqStart := by
  obtain ⟨b, e, m, h⟩ := decFetched_frame u got f
  simp [h]

end

/-- A transaction keeps the policy (R24). -/
theorem decTransact_reqStart {u u' : DecUnit} {t : DecTask} {p : DecProgress} (h : decTransact u t = some (u', p)) :
    u'.reqStart = u.reqStart := by
  obtain ⟨a, q, -, -, hc⟩ | ⟨got, a, q, -, -, hc⟩ | ⟨x, _, _, st, q, -, -, rfl, -⟩ := decTransact_cases h
  · rw [show u' = _ from congrArg Prod.fst hc]
    simp
  · rw [show u' = _ from congrArg Prod.fst hc]
    simp
  · rfl

@[simp] theorem decContinue_reqStart (u : DecUnit) (p : DecProgress) :
    (decContinue u p).reqStart = u.reqStart := by
  refine decContinue_rec (Q := fun v _ => v.reqStart = u.reqStart) (R := fun v => v.reqStart = u.reqStart)
    ?_ ?_ ?_ rfl
  · intro v t v' r hv ht
    exact (decTransact_reqStart ht).trans hv
  · intro v r hv
    exact hv
  · intro v t hv _
    exact hv

@[simp] theorem wakeDec_reqStart (u : DecUnit) : (wakeDec u).reqStart = u.reqStart := by
  cases ht : u.task with
  | none => rw [wakeDec_idle ht]
  | some t => rw [wakeDec_waiting ht, decContinue_reqStart]

/-- A command of the decoder other than DEC_INIT keeps the policy (R24). -/
theorem DecCommand.reqStart_eq_or_init {u u' : DecUnit} {i : Instr} (h : DecCommand u i u') :
    u'.reqStart = u.reqStart ∨ ∃ v, i = .decInit v := by
  cases h with
  | init v => exact .inr ⟨v, rfl⟩
  | byte b => exact .inl (by simp)
  | transfer => exact .inl (decContinue_reqStart u _)
  | packet w => exact .inl (decContinue_reqStart (u.attachPacket w) _)
  | getMalformed => exact .inl rfl
  | clearMalformed => exact .inl rfl

/-- An action that writes the decoder's policy is power-on reset or the offer of a DEC_INIT (R24, R180). -/
theorem DecMove.powerOn_or_init {u u' : DecUnit} {x : Input} (h : DecMove u x u') (hne : u'.reqStart ≠ u.reqStart) :
    x = .powerOn ∨ ∃ w operand v, x = .command w operand ∧ decode w operand = .ok (.decInit v) := by
  cases h with
  | stay => exact absurd rfl hne
  | command hd _ hu =>
    obtain hkeep | ⟨v, rfl⟩ := hu.reqStart_eq_or_init
    · exact absurd hkeep hne
    · exact .inr ⟨_, _, v, rfl, hd⟩
  | sourceAnswer => exact absurd (by simp) hne
  | sinkAnswer => exact absurd (by simp) hne
  | attachSource => exact absurd rfl hne
  | attachSink => exact absurd rfl hne
  | powerOn => exact .inl rfl

/-- Settles O53: a step changes nothing, or takes an action that moves each unit, and a move that writes a unit's policy
is power-on reset or the offer of its INIT. -/
theorem policiesAreWrittenByInitOnly : Obligations.PoliciesAreWrittenByInitOnly := by
  intro s t h
  obtain ⟨-, rfl⟩ | ⟨x, rest, hi, henc, hdec⟩ := step_cases h
  · exact ⟨fun hne => absurd rfl hne, fun hne => absurd rfl hne⟩
  · exact ⟨fun hne => ⟨x, rest, hi, henc.powerOn_or_init hne⟩, fun hne => ⟨x, rest, hi, hdec.powerOn_or_init hne⟩⟩

end Sys2Proof.Machine

/-! SUPPORT. The adapters and the ports as the host sees them: what an in-memory source and sink answer (O11, O12), what
the block makes of every source answer (O10), what an attachment changes (O16), and what an answer for the other port of
a waiting unit changes (O57). -/

namespace Sys2Proof.Machine

/-! ## The in-memory adapters -/

/-- The in-memory sink after bytes that fit (R51). -/
def MemSink.filled (m : MemSink) (bs : List Byte) : MemSink :=
  ⟨memWrite m.buffer m.cursor bs, m.cursor + bs.length⟩

theorem MemSink.write_eq_filled {m : MemSink} {bs : List Byte} (h : m.cursor + bs.length ≤ m.buffer.length) :
    m.write bs = (.ok, m.filled bs) := MemSink.write_fits h

@[simp] theorem MemSink.filled_cursor (m : MemSink) (bs : List Byte) : (m.filled bs).cursor = m.cursor + bs.length :=
  rfl

@[simp] theorem MemSink.filled_nil (m : MemSink) : m.filled [] = m := by
  simp [MemSink.filled, memWrite]

theorem MemSink.filled_length {m : MemSink} {bs : List Byte} (h : m.cursor + bs.length ≤ m.buffer.length) :
    (m.filled bs).buffer.length = m.buffer.length := memWrite_length h

theorem MemSink.filled_inside {m : MemSink} {bs : List Byte} (h : m.cursor + bs.length ≤ m.buffer.length) {j : Nat}
    (hj : j < bs.length) : (m.filled bs).buffer[m.cursor + j]? = bs[j]? := memWrite_getElem?_of_inside h hj

theorem MemSink.filled_outside {m : MemSink} {bs : List Byte} (h : m.cursor + bs.length ≤ m.buffer.length) {j : Nat}
    (hj : j < m.cursor ∨ (m.filled bs).cursor ≤ j) : (m.filled bs).buffer[j]? = m.buffer[j]? :=
  memWrite_getElem?_of_outside h hj

theorem MemSink.upTo_length {m : MemSink} (h : m.cursor ≤ m.buffer.length) (bs : List Byte) :
    (m.buffer.take m.cursor ++ bs).length = m.cursor + bs.length := by
  rw [List.length_append, List.length_take, Nat.min_eq_left h]

/-- What the sink holds up to its new cursor (R51). -/
theorem MemSink.filled_upTo {m : MemSink} {bs : List Byte} (h : m.cursor ≤ m.buffer.length) :
    (m.filled bs).buffer.take (m.filled bs).cursor = m.buffer.take m.cursor ++ bs := by
  have hl := MemSink.upTo_length h bs
  simp only [MemSink.filled, memWrite]
  rw [← hl, List.take_left]

/-- The contents grow by the bytes (R51). -/
theorem MemSink.filled_contents {m : MemSink} {bs : List Byte} (h : m.cursor ≤ m.buffer.length) :
    (m.filled bs).contents = m.contents ++ bs := by
  simpa [MemSink.contents, memRead] using MemSink.filled_upTo h

/-- Bytes written in two runs are the bytes written in one. -/
theorem MemSink.filled_filled {m : MemSink} {bs cs : List Byte} (h : m.cursor ≤ m.buffer.length) :
    (m.filled bs).filled cs = m.filled (bs ++ cs) := by
  have hp := MemSink.filled_upTo (bs := bs) h
  have hl := MemSink.upTo_length h bs
  have hd : (m.filled bs).buffer.drop ((m.filled bs).cursor + cs.length) =
      m.buffer.drop (m.cursor + (bs ++ cs).length) := by
    simp only [MemSink.filled, memWrite]
    rw [← hl, List.drop_length_add_append, List.drop_drop, List.length_append, Nat.add_assoc,
      List.length_take, Nat.min_eq_left h, List.length_append]
  rw [MemSink.filled, memWrite, hp, hd]
  simp [MemSink.filled, memWrite, Nat.add_assoc]

/-- An in-memory source with bytes left answers the next of them, as many as it can (R50). -/
theorem MemSource.read_left {m : MemSource} (n : Nat) (h : m.cursor < m.buffer.length) :
    m.read n = (⟨memRead m.buffer m.cursor (min n (m.buffer.length - m.cursor)), .more⟩,
      ⟨m.buffer, m.cursor + min n (m.buffer.length - m.cursor)⟩) := by
  simp [MemSource.read, Nat.not_le.mpr h]

/-- Settles O11: the two cases of the read, and the bytes read are those from the cursor on. -/
theorem inMemorySourceReads : Obligations.InMemorySourceReads := by
  refine ⟨fun _ => rfl, fun m n _ => ⟨fun hend => ?_, fun hleft => ?_⟩⟩
  · simp only [Source.read, MemSource.read_end (Nat.le_of_eq hend.symm), eofAnswer]
  · have hlen : (memRead m.buffer m.cursor (min n (m.buffer.length - m.cursor))).length =
        min n (m.buffer.length - m.cursor) := by
      simp [memRead]
    refine ⟨_, by rw [Source.read, MemSource.read_left n hleft], hlen, fun j hj => ?_, fun hn => ?_⟩
    · rw [memRead, List.getElem?_take_of_lt (hlen ▸ hj), List.getElem?_drop]
    · omega

/-- Settles O12: the two cases of the write; the one that fits leaves the sink `filled`. -/
theorem inMemorySinkWrites : Obligations.InMemorySinkWrites := by
  refine ⟨fun b => ⟨rfl, by simp [MemSink.contents, memRead]⟩, fun m bs hwf => ⟨fun hfull => ?_, fun hfits => ?_⟩⟩
  · simp only [Sink.write, MemSink.write_full hfull]
  · exact ⟨m.filled bs, by rw [Sink.write, MemSink.write_eq_filled hfits], rfl, MemSink.filled_length hfits,
      fun _ => MemSink.filled_inside hfits, fun _ => MemSink.filled_outside hfits, MemSink.filled_contents hwf⟩

/-- Settles O10: the rows of R49, by the number of bytes where it matters. -/
theorem sourceAnswersClassified : Obligations.SourceAnswersClassified := by
  refine ⟨fun _ => rfl, rfl, fun bs hlen => ?_, rfl, fun bs hlen => ?_, fun _ => rfl⟩
  · match bs, hlen with
    | _ :: _ :: _, _ => rfl
  · match bs, hlen with
    | _ :: _, _ => rfl

/-! ## Attachments, and answers for the other port -/

/-- An attachment to a busy unit is refused (log entry 6). -/
theorem attachSource_busy {unit : UnitId} {s : State} (h : s.busy unit = true) (d : SrcDevice) :
    attachSource unit d s = .refused (.attachWhileBusy unit) := by
  simp [attachSource, h]

/-- An attachment to a busy unit is refused (log entry 6). -/
theorem attachSink_busy {unit : UnitId} {s : State} (h : s.busy unit = true) (d : SnkDevice) :
    attachSink unit d s = .refused (.attachWhileBusy unit) := by
  simp [attachSink, h]

theorem State.busy_encoder {s : State} (h : s.enc.task = none) : s.busy .encoder = false :=
  EncUnit.busy_of_task_none h

theorem State.busy_decoder {s : State} (h : s.dec.task = none) : s.busy .decoder = false :=
  DecUnit.busy_of_task_none h

/-- The condition of a unit does not depend on what is to come. -/
@[simp] theorem State.takeInput_busy (s : State) (rest : List Input) (unit : UnitId) :
    (s.takeInput rest).busy unit = s.busy unit := by
  cases unit <;> rfl

/-- Settles O16: the step delivers the attachment or the answer, which asks the unit's condition or what stands behind
the port. -/
theorem attachmentChangesOnePort : Obligations.AttachmentChangesOnePort := by
  intro s rest
  refine ⟨fun d hi ht => ?_, fun d hi ht => ?_, fun d hi ht => ?_, fun d hi ht => ?_, fun unit d hi hb => ?_,
    fun unit d hi hb => ?_, fun a m hi hp => ?_, fun a m hi hp => ?_, fun st m hi hp => ?_, fun st m hi hp => ?_⟩ <;>
    rw [step_eq_deliver hi]
  · simp only [deliver, attachSource, State.takeInput_busy, State.busy_encoder ht]
    rfl
  · simp only [deliver, attachSink, State.takeInput_busy, State.busy_encoder ht]
    rfl
  · simp only [deliver, attachSource, State.takeInput_busy, State.busy_decoder ht]
    rfl
  · simp only [deliver, attachSink, State.takeInput_busy, State.busy_decoder ht]
    rfl
  · exact attachSource_busy (by simpa using hb) d
  · exact attachSink_busy (by simpa using hb) d
  · simp [deliver, answerSource, hp, Source.give]
  · simp [deliver, answerSource, hp, Source.give]
  · simp [deliver, answerSink, hp, Sink.give]
  · simp [deliver, answerSink, hp, Sink.give]

/-- A unit that waits at an unanswered transaction is not woken. -/
theorem wakeEnc_unanswered {u : EncUnit} {t : EncTask} (ht : u.task = some t) (h : encTransact u t = none) :
    wakeEnc u = u := by
  rw [wakeEnc_waiting ht, encContinue_wait_none h, EncUnit.waitAt_eq_self ht]

/-- A unit that waits at an unanswered transaction is not woken. -/
theorem wakeDec_unanswered {u : DecUnit} {t : DecTask} (ht : u.task = some t) (h : decTransact u t = none) :
    wakeDec u = u := by
  rw [wakeDec_waiting ht, decContinue_wait_none h, DecUnit.waitAt_eq_self ht]

/-- Settles O57: the step wakes the unit, whose own transaction is still unanswered. -/
theorem answerForTheOtherPortIsKept : Obligations.AnswerForTheOtherPortIsKept := by
  intro s rest
  refine ⟨fun b out k as a ht hw hp hi => ?_, fun as st ht hr hp hi => ?_, fun x sig inLoop as a ht hw hp hi => ?_,
    fun task as st hr ht hk hs hp hi => ?_⟩
  · rw [step_sourceAnswer_encoder hi hp, wakeEnc_unanswered (u := s.enc.setSrc (.external (as ++ [a]))) ht
      (encTransact_write_eq_none.mpr (Sink.write_of_no_answer hw _))]
    rfl
  · rw [step_sinkAnswer_encoder hi hp, wakeEnc_unanswered (u := s.enc.setSnk (.external (as ++ [st]))) ht
      (encTransact_read_eq_none.mpr (Source.read_of_no_answer hr _))]
    rfl
  · rw [step_sourceAnswer_decoder hi hp, wakeDec_unanswered (u := s.dec.setSrc (.external (as ++ [a]))) ht
      (decTransact_emit_eq_none.mpr (Sink.write_of_no_answer hw _))]
    rfl
  · have hread : (s.dec.setSnk (.external (as ++ [st]))).activeSrc.read Config.readChunk = none :=
      Source.read_of_no_answer (by simp [DecUnit.activeSrc, hk, hs]) _
    have hnone : decTransact (s.dec.setSnk (.external (as ++ [st]))) task = none := by
      obtain rfl | ⟨got, rfl⟩ := hr
      · exact decTransact_scan_eq_none.mpr hread
      · exact decTransact_fetch_eq_none.mpr hread
    rw [step_sinkAnswer_decoder hi hp, wakeDec_unanswered (u := s.dec.setSnk (.external (as ++ [st]))) ht hnone]
    rfl

end Sys2Proof.Machine

/-! SUPPORT. What a command makes of a state in which its unit is idle, as a function of that unit
(`exec_of_encCommand`, `exec_of_decCommand`): commands of the two units commute (O54). -/

namespace Sys2Proof.Machine

/-- An idle encoder runs its command, whatever the decoder does (R57). -/
theorem exec_of_encCommand {s : State} {i : Instr} {u : EncUnit} (hb : s.enc.busy = false) (h : EncCommand s.enc i u) :
    exec i s = .next (s.setEnc u) := by
  cases h with
  | init v => exact onEnc_idle hb
  | byte b => exact onEnc_idle hb
  | packet v p => exact onEnc_idle hb
  | transfer => exact onEnc_idle hb

/-- An idle decoder runs its command, whatever the encoder does (R57). -/
theorem exec_of_decCommand {s : State} {i : Instr} {u : DecUnit} (hb : s.dec.busy = false) (h : DecCommand s.dec i u) :
    exec i s = .next (s.setDec u) := by
  cases h with
  | init v => exact onDec_idle hb
  | byte b => exact onDec_idle hb
  | transfer => exact onDec_idle hb
  | packet w => exact onDec_idle hb
  | getMalformed => exact onDec_idle hb
  | clearMalformed => exact onDec_idle hb

/-- All a command of the encoder that answers a next state can do. -/
theorem exec_encoder_cases {i : Instr} {s t : State} (hi : unitOf i = .encoder) (h : exec i s = .next t) :
    s.enc.busy = false ∧ ∃ u, EncCommand s.enc i u ∧ t = s.setEnc u := by
  obtain ⟨-, hu⟩ | ⟨hd, -⟩ := exec_cases h
  · exact hu
  · simp [hi] at hd

/-- All a command of the decoder that answers a next state can do. -/
theorem exec_decoder_cases {i : Instr} {s t : State} (hi : unitOf i = .decoder) (h : exec i s = .next t) :
    s.dec.busy = false ∧ ∃ u, DecCommand s.dec i u ∧ t = s.setDec u := by
  obtain ⟨he, -⟩ | ⟨-, hu⟩ := exec_cases h
  · simp [hi] at he
  · exact hu

/-- Settles O54: each command finds its unit as it was before the other's, and the two units are replaced in either
order. -/
theorem unitsCommute : Obligations.UnitsCommute := by
  intro i j s t u hi hj ht hu
  obtain ⟨hbe, e, he, rfl⟩ := exec_encoder_cases hi ht
  obtain ⟨hbd, d, hd, rfl⟩ := exec_decoder_cases hj hu
  exact ⟨(s.setEnc e).setDec d, exec_of_decCommand hbd hd, exec_of_encCommand (s := s.setDec d) hbe he⟩

end Sys2Proof.Machine

/-! SUPPORT. What a transaction and a command leave unchanged at the ports (O29, O46). -/

namespace Sys2Proof.Machine

/-! ## The encoder -/

/-- The command makes no read from here on: it has returned, or waits at a write that no fetch follows. -/
def EncReadsNothing : EncProgress → Prop
  | .done _ => True
  | .wait .read => False
  | .wait (.write _ _ k) => k ≠ .fetch

theorem encGoOn_readsNothing (out : List Byte) {k : EncThen} (hk : k ≠ .fetch) : EncReadsNothing (encGoOn out k) := by
  obtain ⟨-, h⟩ | ⟨b, out', k', hk', -, h⟩ := encGoOn_rest out hk
  · rw [h]; trivial
  · rw [h]; exact hk'

theorem encWritten_readsNothing (out : List Byte) {k : EncThen} (hk : k ≠ .fetch) (r : Put) :
    EncReadsNothing (encWritten out k r) := by
  cases r with
  | done => exact encGoOn_readsNothing out hk
  | ioFail => trivial

/-- A command that makes no read leaves the source and the record of reads. -/
theorem encContinue_src_of_readsNothing {u : EncUnit} {p : EncProgress} (h : EncReadsNothing p) :
    (encContinue u p).src = u.src ∧ (encContinue u p).srcLog = u.srcLog := by
  refine encContinue_rec (Q := fun v r => (v.src = u.src ∧ v.srcLog = u.srcLog) ∧ EncReadsNothing r)
    (R := fun v => v.src = u.src ∧ v.srcLog = u.srcLog) ?_ (fun _ _ hv => hv.1) (fun _ _ hv _ => hv.1) ⟨⟨rfl, rfl⟩, h⟩
  rintro v t v' r ⟨hv, hr⟩ ht
  obtain ⟨b, out, k, st, q, rfl, -, rfl, rfl⟩ | ⟨a, q, rfl, -, -, -⟩ := encTransact_cases ht
  · exact ⟨hv, encWritten_readsNothing out hr _⟩
  · exact absurd hr id

/-- A command of the encoder other than ENC_TRANSFER leaves the source and the record of reads (R102 to R104). -/
theorem EncCommand.src_eq {u u' : EncUnit} {i : Instr} (h : EncCommand u i u') (hi : i ≠ .encTransfer) :
    u'.src = u.src ∧ u'.srcLog = u.srcLog := by
  cases h with
  | init v => exact ⟨rfl, rfl⟩
  | byte b => exact encContinue_src_of_readsNothing (encGoOn_readsNothing _ (by simp))
  | packet v p => exact encContinue_src_of_readsNothing (encGoOn_readsNothing _ (by simp))
  | transfer => exact absurd rfl hi

/-- Settles O29: a command replaces the encoder alone, no transaction writes the policy, and only ENC_TRANSFER reads. -/
theorem encoderCommandFrame : Obligations.EncoderCommandFrame := by
  intro i s t hi h
  obtain ⟨hb, u, hu, rfl⟩ := exec_encoder_cases hi h
  refine ⟨rfl, rfl, fun hne => ?_, hu.src_eq, ?_⟩
  · obtain hkeep | ⟨v, hv⟩ := hu.useStart_eq_or_init
    · exact hkeep
    · exact absurd hv (hne v)
  · rintro ⟨v, rfl⟩
    cases hu
    exact ⟨rfl, rfl, (EncUnit.task_none hb).symm⟩

/-! ## The decoder -/

section
variable (u : DecUnit) (b : Byte) (inLoop got : Bool) (f : Fetch)

@[simp] theorem decConsume_src : (decConsume u b inLoop).1.src = u.src := by
  obtain ⟨e, m, h, -⟩ := decConsume_frame u b inLoop
  simp [h]

@[simp] theorem decConsume_srcLog : (decConsume u b inLoop).1.srcLog = u.srcLog := by
  obtain ⟨e, m, h, -⟩ := decConsume_frame u b inLoop
  simp [h]

@[simp] theorem decConsume_snk : (decConsume u b inLoop).1.snk = u.snk := (decConsume_keeps_snk u b inLoop).1

@[simp] theorem decConsume_snkLog : (decConsume u b inLoop).1.snkLog = u.snkLog := (decConsume_keeps_snk u b inLoop).2

@[simp] theorem decScanned_snk : (decScanned u f).1.snk = u.snk := by
  obtain ⟨b, e, h⟩ := decScanned_frame u f
  simp [h]

@[simp] theorem decScanned_snkLog : (decScanned u f).1.snkLog = u.snkLog := by
  obtain ⟨b, e, h⟩ := decScanned_frame u f
  simp [h]

@[simp] theorem decFetched_snk : (decFetched u got f).1.snk = u.snk := by
  obtain ⟨b, e, m, h⟩ := decFetched_frame u got f
  simp [h]

@[simp] theorem decFetched_snkLog : (decFetched u got f).1.snkLog = u.snkLog := by
  obtain ⟨b, e, m, h⟩ := decFetched_frame u got f
  simp [h]

end

/-- What a read at `DEC.SRC` answered with `a` makes of the ports and their records, `q` being what it leaves there. -/
structure DecUnit.ReadPorts (u u' : DecUnit) (a : SrcAnswer) (q : Source) : Prop where
  src : u'.src = (u.setActiveSrc q).src
  packetSrc : u'.packetSrc = (u.setActiveSrc q).packetSrc
  srcLog : u'.srcLog = u.srcLog ++ [⟨Config.readChunk, a⟩]
  snk : u'.snk = u.snk
  snkLog : u'.snkLog = u.snkLog

/-- All an answered transaction of the decoder makes of the ports: it is a read at `DEC.SRC`, or a write. -/
theorem decTransact_ports {u u' : DecUnit} {t : DecTask} {p : DecProgress} (h : decTransact u t = some (u', p)) :
    (∃ a q, u.activeSrc.read Config.readChunk = some (a, q) ∧ u.ReadPorts u' a q) ∨
    (∃ x st q, u.snk.write [x] = some (st, q) ∧ u' = u.afterWrite q x st) := by
  obtain ⟨a, q, -, hq, hc⟩ | ⟨got, a, q, -, hq, hc⟩ | ⟨x, _, _, st, q, -, hq, rfl, -⟩ := decTransact_cases h
  · rw [show u' = _ from congrArg Prod.fst hc]
    exact .inl ⟨a, q, hq, by simp, by simp, by simp, by simp, by simp⟩
  · rw [show u' = _ from congrArg Prod.fst hc]
    exact .inl ⟨a, q, hq, by simp, by simp, by simp, by simp, by simp⟩
  · exact .inr ⟨x, st, q, hq, rfl⟩

/-- The host's source stays as it is while DEC_PACKET's own stands in its place (R62). -/
theorem DecUnit.setActiveSrc_of_packet {u : DecUnit} {m : MemSource} {n : Nat} {a : SrcAnswer} {q : Source}
    (h : u.packetSrc = some m) (hq : u.activeSrc.read n = some (a, q)) :
    (u.setActiveSrc q).src = u.src ∧ ∃ m', (u.setActiveSrc q).packetSrc = some m' := by
  simp only [DecUnit.activeSrc, h, Source.read, Option.some.injEq, Prod.mk.injEq] at hq
  obtain ⟨-, rfl⟩ := hq
  simp [DecUnit.setActiveSrc, h]

/-- A transfer over DEC_PACKET's own source leaves the host's (R62). -/
theorem decContinue_src_of_packet {u : DecUnit} {m : MemSource} (h : u.packetSrc = some m) (p : DecProgress) :
    (decContinue u p).src = u.src := by
  refine decContinue_rec (Q := fun v _ => (∃ m, v.packetSrc = some m) ∧ v.src = u.src) (R := fun v => v.src = u.src)
    ?_ (fun _ _ hv => hv.2) (fun _ _ hv _ => hv.2) ⟨⟨m, h⟩, rfl⟩
  rintro v t v' r ⟨⟨m, hm⟩, hv⟩ ht
  obtain ⟨a, q, hq, hp⟩ | ⟨x, st, q, -, rfl⟩ := decTransact_ports ht
  · obtain ⟨hsrc, m', hm'⟩ := DecUnit.setActiveSrc_of_packet hm hq
    exact ⟨⟨m', hp.packetSrc.trans hm'⟩, hp.src.trans (hsrc.trans hv)⟩
  · exact ⟨⟨m, hm⟩, hv⟩

/-- The command makes no read from here on: it has returned, or waits at the emit of DEC_BYTE. -/
def DecReadsNothing : DecProgress → Prop
  | .done _ => True
  | .wait (.emit _ _ inLoop) => inLoop = false
  | .wait .scan => False
  | .wait (.fetch _) => False

theorem decGoOn_readsNothing (sig : Signal) : DecReadsNothing (decGoOn sig false) := by
  cases sig <;> trivial

/-- DEC_BYTE makes no read (R131). -/
theorem decConsume_readsNothing (u : DecUnit) (b : Byte) : DecReadsNothing (decConsume u b false).2 := by
  obtain ⟨-, ⟨x, -, h⟩ | ⟨-, h⟩⟩ := decConsume_cases u b false
  · rw [h]; rfl
  · rw [h]; exact decGoOn_readsNothing _

theorem decEmitted_readsNothing (sig : Signal) (r : Put) : DecReadsNothing (decEmitted sig false r) := by
  cases r with
  | done => exact decGoOn_readsNothing sig
  | ioFail => trivial

/-- A command that makes no read leaves the source and the record of reads. -/
theorem decContinue_src_of_readsNothing {u : DecUnit} {p : DecProgress} (h : DecReadsNothing p) :
    (decContinue u p).src = u.src ∧ (decContinue u p).srcLog = u.srcLog := by
  refine decContinue_rec (Q := fun v r => (v.src = u.src ∧ v.srcLog = u.srcLog) ∧ DecReadsNothing r)
    (R := fun v => v.src = u.src ∧ v.srcLog = u.srcLog) ?_ (fun _ _ hv => hv.1) (fun _ _ hv _ => hv.1) ⟨⟨rfl, rfl⟩, h⟩
  rintro v t v' r ⟨hv, hr⟩ ht
  obtain ⟨a, q, rfl, -, -⟩ | ⟨got, a, q, rfl, -, -⟩ | ⟨x, sig, inLoop, st, q, rfl, -, rfl, rfl⟩ := decTransact_cases ht
  · exact absurd hr id
  · exact absurd hr id
  · obtain rfl : inLoop = false := hr
    exact ⟨hv, decEmitted_readsNothing sig _⟩

/-- DEC_BYTE leaves the source and the record of reads (R131). -/
theorem decByte_src (u : DecUnit) (b : Byte) :
    (decContinue (decConsume u b false).1 (decConsume u b false).2).src = u.src ∧
      (decContinue (decConsume u b false).1 (decConsume u b false).2).srcLog = u.srcLog := by
  simpa using decContinue_src_of_readsNothing (u := (decConsume u b false).1) (decConsume_readsNothing u b)

/-- A command of the decoder other than DEC_TRANSFER leaves the host's source (R62, R130 to R136). -/
theorem DecCommand.src_eq {u u' : DecUnit} {i : Instr} (h : DecCommand u i u') (hi : i ≠ .decTransfer) :
    u'.src = u.src := by
  cases h with
  | init v => rfl
  | byte b => exact (decByte_src u b).1
  | transfer => exact absurd rfl hi
  | packet w => exact decContinue_src_of_packet (u := u.attachPacket w) rfl _
  | getMalformed => rfl
  | clearMalformed => rfl

/-- A command of the decoder other than DEC_TRANSFER and DEC_PACKET leaves the record of reads (R130 to R136). -/
theorem DecCommand.srcLog_eq {u u' : DecUnit} {i : Instr} (h : DecCommand u i u') (hi : i ≠ .decTransfer)
    (hw : ∀ w, i ≠ .decPacket w) : u'.srcLog = u.srcLog := by
  cases h with
  | init v => rfl
  | byte b => exact (decByte_src u b).2
  | transfer => exact absurd rfl hi
  | packet w => exact absurd rfl (hw w)
  | getMalformed => rfl
  | clearMalformed => rfl

/-- Settles O46: a command replaces the decoder alone; no transaction writes the policy, DEC_BYTE makes no read, and
DEC_PACKET reads its own source; the other three commands make no transaction. -/
theorem decoderCommandFrame : Obligations.DecoderCommandFrame := by
  intro i s t hi h
  obtain ⟨hb, u, hu, rfl⟩ := exec_decoder_cases hi h
  refine ⟨rfl, rfl, fun hne => ?policy, hu.src_eq, hu.srcLog_eq, fun hno => ?ports, fun hflag => ?regs,
    fun hget => ?flag⟩
  case policy =>
    obtain hkeep | ⟨v, hv⟩ := hu.reqStart_eq_or_init
    · exact hkeep
    · exact absurd hv (hne v)
  case ports =>
    obtain ⟨v, rfl⟩ | rfl | rfl := hno
    · cases hu; exact ⟨rfl, rfl⟩
    · cases hu; exact ⟨rfl, rfl⟩
    · cases hu; exact ⟨rfl, rfl⟩
  case regs =>
    obtain rfl | rfl := hflag
    · cases hu; exact ⟨rfl, rfl⟩
    · cases hu; exact ⟨rfl, rfl⟩
  case flag =>
    subst hget
    cases hu
    rfl

end Sys2Proof.Machine

/-! SUPPORT. One byte a transaction (O13): every transaction adds such a record, and nothing else touches
the records. -/

namespace Sys2Proof.Machine

theorem readsOneByte_concat {log : List SrcXact} (h : readsOneByte log) (a : SrcAnswer) :
    readsOneByte (log ++ [⟨Config.readChunk, a⟩]) := by
  intro x hx
  obtain hx | hx := List.mem_append.mp hx
  · exact h x hx
  · rw [List.mem_singleton.mp hx]

theorem writesOneByte_concat {log : List SnkXact} (h : writesOneByte log) (b : Byte) (st : SnkStatus) :
    writesOneByte (log ++ [⟨[b], st⟩]) := by
  intro x hx
  obtain hx | hx := List.mem_append.mp hx
  · exact h x hx
  · rw [List.mem_singleton.mp hx]; rfl

/-- The encoder's part of R45. -/
def EncUnit.OneByte (u : EncUnit) : Prop := readsOneByte u.srcLog ∧ writesOneByte u.snkLog

/-- The decoder's part of R45. -/
def DecUnit.OneByte (u : DecUnit) : Prop := readsOneByte u.srcLog ∧ writesOneByte u.snkLog

theorem encContinue_oneByte {u : EncUnit} (h : u.OneByte) (p : EncProgress) : (encContinue u p).OneByte := by
  refine encContinue_rec (Q := fun v _ => v.OneByte) (R := EncUnit.OneByte) ?_ (fun _ _ hv => hv) (fun _ _ hv _ => hv) h
  rintro v t v' r ⟨hr, hw⟩ ht
  obtain ⟨b, _, _, st, _, -, -, rfl, -⟩ | ⟨a, _, -, -, rfl, -⟩ := encTransact_cases ht
  · exact ⟨hr, writesOneByte_concat hw b st⟩
  · exact ⟨readsOneByte_concat hr a, hw⟩

theorem wakeEnc_oneByte {u : EncUnit} (h : u.OneByte) : (wakeEnc u).OneByte := by
  cases ht : u.task with
  | none => rwa [wakeEnc_idle ht]
  | some t => rw [wakeEnc_waiting ht]; exact encContinue_oneByte h _

theorem EncCommand.oneByte {u u' : EncUnit} {i : Instr} (h : EncCommand u i u') (hu : u.OneByte) : u'.OneByte := by
  cases h with
  | init v => exact hu
  | byte b => exact encContinue_oneByte hu _
  | packet v p => exact encContinue_oneByte hu _
  | transfer => exact encContinue_oneByte hu _

theorem EncMove.oneByte {u u' : EncUnit} {x : Input} (h : EncMove u x u') (hu : u.OneByte) : u'.OneByte := by
  cases h with
  | stay => exact hu
  | command _ _ hc => exact hc.oneByte hu
  | sourceAnswer => exact wakeEnc_oneByte hu
  | sinkAnswer => exact wakeEnc_oneByte hu
  | attachSource => exact hu
  | attachSink => exact hu
  | powerOn => exact hu

theorem decContinue_oneByte {u : DecUnit} (h : u.OneByte) (p : DecProgress) : (decContinue u p).OneByte := by
  refine decContinue_rec (Q := fun v _ => v.OneByte) (R := DecUnit.OneByte) ?_ (fun _ _ hv => hv) (fun _ _ hv _ => hv) h
  rintro v t v' r ⟨hr, hw⟩ ht
  obtain ⟨a, q, -, hp⟩ | ⟨x, st, q, -, rfl⟩ := decTransact_ports ht
  · exact ⟨hp.srcLog ▸ readsOneByte_concat hr a, hp.snkLog ▸ hw⟩
  · exact ⟨hr, writesOneByte_concat hw x st⟩

theorem wakeDec_oneByte {u : DecUnit} (h : u.OneByte) : (wakeDec u).OneByte := by
  cases ht : u.task with
  | none => rwa [wakeDec_idle ht]
  | some t => rw [wakeDec_waiting ht]; exact decContinue_oneByte h _

theorem decConsume_oneByte {u : DecUnit} (h : u.OneByte) (b : Byte) (inLoop : Bool) :
    (decConsume u b inLoop).1.OneByte :=
  ⟨by simpa using h.1, by simpa using h.2⟩

theorem DecCommand.oneByte {u u' : DecUnit} {i : Instr} (h : DecCommand u i u') (hu : u.OneByte) : u'.OneByte := by
  cases h with
  | init v => exact hu
  | byte b => exact decContinue_oneByte (decConsume_oneByte hu b false) _
  | transfer => exact decContinue_oneByte hu _
  | packet w => exact decContinue_oneByte (u := u.attachPacket w) hu _
  | getMalformed => exact hu
  | clearMalformed => exact hu

theorem DecMove.oneByte {u u' : DecUnit} {x : Input} (h : DecMove u x u') (hu : u.OneByte) : u'.OneByte := by
  cases h with
  | stay => exact hu
  | command _ _ hc => exact hc.oneByte hu
  | sourceAnswer => exact wakeDec_oneByte hu
  | sinkAnswer => exact wakeDec_oneByte hu
  | attachSource => exact hu
  | attachSink => exact hu
  | powerOn => exact hu

/-- Settles O13: a step changes nothing or moves each unit, and every move keeps its unit's records so. -/
theorem stepKeepsOneByteTransactions : Obligations.StepKeepsOneByteTransactions := by
  rintro s t ⟨her, hew, hdr, hdw⟩ h
  obtain ⟨-, rfl⟩ | ⟨x, rest, -, henc, hdec⟩ := step_cases h
  · exact ⟨her, hew, hdr, hdw⟩
  · obtain ⟨her', hew'⟩ := henc.oneByte ⟨her, hew⟩
    obtain ⟨hdr', hdw'⟩ := hdec.oneByte ⟨hdr, hdw⟩
    exact ⟨her', hew', hdr', hdw'⟩

end Sys2Proof.Machine

/-! SUPPORT. What a command does to the adapters' buffers (O14): a source only advances (`Source.Advances`), and a sink
is filled by exactly what the record of writes delivered (`Sink.Fills`); each transaction keeps both. -/

namespace Sys2Proof.Machine

/-! ## One transaction -/

/-- If `p` is an in-memory source, then `p'` is one over the same buffer, its cursor not gone back (R50, R58). -/
def Source.Advances (p p' : Source) : Prop :=
  ∀ m, p = .inMemory m → ∃ c, p' = .inMemory ⟨m.buffer, c⟩ ∧ m.cursor ≤ c

theorem Source.Advances.refl (p : Source) : p.Advances p := fun m hm => ⟨m.cursor, hm, Nat.le_refl _⟩

theorem Source.Advances.trans {p q r : Source} (h : p.Advances q) (h' : q.Advances r) : p.Advances r := by
  intro m hm
  obtain ⟨c, hq, hc⟩ := h m hm
  obtain ⟨c', hr, hc'⟩ := h' _ hq
  exact ⟨c', hr, Nat.le_trans hc hc'⟩

theorem MemSource.read_cursor_le (m : MemSource) (n : Nat) : m.cursor ≤ (m.read n).2.cursor := by
  unfold MemSource.read
  split
  · exact Nat.le_refl _
  · exact Nat.le_add_right _ _

/-- A read advances an in-memory source (R50). -/
theorem Source.Advances.of_read {p p' : Source} {n : Nat} {a : SrcAnswer} (h : p.read n = some (a, p')) :
    p.Advances p' := by
  rintro m rfl
  simp only [Source.read, Option.some.injEq, Prod.mk.injEq] at h
  obtain ⟨-, rfl⟩ := h
  exact ⟨(m.read n).2.cursor, by rw [← MemSource.read_buffer m n], MemSource.read_cursor_le m n⟩

/-- A read at `DEC.SRC` advances the host's source, or leaves it while DEC_PACKET's own stands in its place (R62). -/
theorem DecUnit.setActiveSrc_advances {u : DecUnit} {n : Nat} {a : SrcAnswer} {q : Source}
    (hq : u.activeSrc.read n = some (a, q)) : u.src.Advances (u.setActiveSrc q).src := by
  cases hp : u.packetSrc with
  | some m =>
    rw [(DecUnit.setActiveSrc_of_packet hp hq).1]
    exact .refl _
  | none =>
    simp only [DecUnit.activeSrc, hp] at hq
    simpa [DecUnit.setActiveSrc, hp] using Source.Advances.of_read hq

@[simp] theorem delivered_nil : delivered [] = [] := rfl

@[simp] theorem delivered_concat (log : List SnkXact) (b : Byte) (st : SnkStatus) :
    delivered (log ++ [⟨[b], st⟩]) = delivered log ++ if st = .ok then [b] else [] := by
  simp [delivered]

/-- If `p` is an in-memory sink within its bounds, then `p'` is that sink filled by the bytes that the writes `log`
delivered, all of which fit (R51). -/
def Sink.Fills (p : Sink) (log : List SnkXact) (p' : Sink) : Prop :=
  ∀ m, p = .inMemory m → m.cursor ≤ m.buffer.length →
    m.cursor + (delivered log).length ≤ m.buffer.length ∧ p' = .inMemory (m.filled (delivered log))

theorem Sink.Fills.nil (p : Sink) : p.Fills [] p := fun m hm hwf => ⟨hwf, by rw [delivered_nil, m.filled_nil, hm]⟩

/-- A write fills an in-memory sink by its byte if it is answered `Ok`, and leaves it otherwise (R51). -/
theorem Sink.Fills.write {p q q' : Sink} {log : List SnkXact} {b : Byte} {st : SnkStatus} (h : p.Fills log q)
    (hw : q.write [b] = some (st, q')) : p.Fills (log ++ [⟨[b], st⟩]) q' := by
  intro m hm hwf
  obtain ⟨hfits, rfl⟩ := h m hm hwf
  have hlen := MemSink.filled_length hfits
  simp only [Sink.write, Option.some.injEq, Prod.mk.injEq] at hw
  obtain ⟨rfl, rfl⟩ := hw
  rw [delivered_concat]
  by_cases hroom : (m.filled (delivered log)).cursor + [b].length ≤ (m.filled (delivered log)).buffer.length
  · rw [MemSink.write_eq_filled hroom, if_pos rfl, MemSink.filled_filled hwf]
    refine ⟨?_, rfl⟩
    rw [hlen, MemSink.filled_cursor] at hroom
    rwa [List.length_append, ← Nat.add_assoc]
  · rw [MemSink.write_full (Nat.lt_of_not_le hroom), if_neg (by simp), List.append_nil]
    exact ⟨hfits, rfl⟩

/-- What the filled sink shows: the statement's words, of one sink. -/
theorem Sink.Fills.frame {p p' : Sink} {log : List SnkXact} (h : p.Fills log p') {m : MemSink} (hm : p = .inMemory m)
    (hwf : m.cursor ≤ m.buffer.length) :
    ∃ m', p' = .inMemory m' ∧ m'.buffer.length = m.buffer.length ∧ m'.cursor = m.cursor + (delivered log).length ∧
      (∀ j, j < m.cursor ∨ m'.cursor ≤ j → m'.buffer[j]? = m.buffer[j]?) ∧
      m'.contents = m.contents ++ delivered log := by
  obtain ⟨hfits, hp'⟩ := h m hm hwf
  exact ⟨_, hp', MemSink.filled_length hfits, rfl, fun _ => MemSink.filled_outside hfits, MemSink.filled_contents hwf⟩

/-! ## A command -/

/-- What a command of the encoder makes of its ports: the source advances, and the recorded writes fill the sink. -/
def EncUnit.PortsMove (u u' : EncUnit) : Prop :=
  u.src.Advances u'.src ∧ ∃ log, u'.snkLog = u.snkLog ++ log ∧ u.snk.Fills log u'.snk

/-- What a command of the decoder makes of its ports: the source advances, and the recorded writes fill the sink. -/
def DecUnit.PortsMove (u u' : DecUnit) : Prop :=
  u.src.Advances u'.src ∧ ∃ log, u'.snkLog = u.snkLog ++ log ∧ u.snk.Fills log u'.snk

theorem EncUnit.PortsMove.refl (u : EncUnit) : u.PortsMove u := ⟨.refl _, [], by simp, .nil _⟩

theorem DecUnit.PortsMove.refl (u : DecUnit) : u.PortsMove u := ⟨.refl _, [], by simp, .nil _⟩

theorem encContinue_portsMove (u : EncUnit) (p : EncProgress) : u.PortsMove (encContinue u p) := by
  refine encContinue_rec (Q := fun v _ => u.PortsMove v) (R := u.PortsMove) ?_ (fun _ _ hv => hv) (fun _ _ hv _ => hv)
    (.refl u)
  rintro v t v' r ⟨hsrc, log, hlog, hsnk⟩ ht
  obtain ⟨b, _, _, st, q, -, hw, rfl, -⟩ | ⟨a, q, -, hr, rfl, -⟩ := encTransact_cases ht
  · exact ⟨hsrc, log ++ [⟨[b], st⟩], by simp [hlog], hsnk.write hw⟩
  · exact ⟨hsrc.trans (.of_read hr), log, hlog, hsnk⟩

theorem EncCommand.portsMove {u u' : EncUnit} {i : Instr} (h : EncCommand u i u') : u.PortsMove u' := by
  cases h with
  | init v => exact .refl u
  | byte b => exact encContinue_portsMove u _
  | packet v p => exact encContinue_portsMove u _
  | transfer => exact encContinue_portsMove u _

theorem decContinue_portsMove (u : DecUnit) (p : DecProgress) : u.PortsMove (decContinue u p) := by
  refine decContinue_rec (Q := fun v _ => u.PortsMove v) (R := u.PortsMove) ?_ (fun _ _ hv => hv) (fun _ _ hv _ => hv)
    (.refl u)
  rintro v t v' r ⟨hsrc, log, hlog, hsnk⟩ ht
  obtain ⟨a, q, hq, hp⟩ | ⟨x, st, q, hw, rfl⟩ := decTransact_ports ht
  · exact ⟨hp.src ▸ hsrc.trans (DecUnit.setActiveSrc_advances hq), log, hp.snkLog ▸ hlog, hp.snk ▸ hsnk⟩
  · exact ⟨hsrc, log ++ [⟨[x], st⟩], by simp [hlog], hsnk.write hw⟩

theorem DecCommand.portsMove {u u' : DecUnit} {i : Instr} (h : DecCommand u i u') : u.PortsMove u' := by
  cases h with
  | init v => exact .refl u
  | byte b =>
    simpa [DecUnit.PortsMove] using decContinue_portsMove (decConsume u b false).1 (decConsume u b false).2
  | transfer => exact decContinue_portsMove u _
  | packet w => exact decContinue_portsMove (u.attachPacket w) _
  | getMalformed => exact .refl u
  | clearMalformed => exact .refl u

/-- Settles O14: the ports of the unit that ran the command moved, those of the other are as they were. -/
theorem adapterBuffersFrame : Obligations.AdapterBuffersFrame := by
  intro i s t h
  have hmove : s.enc.PortsMove t.enc ∧ s.dec.PortsMove t.dec := by
    obtain ⟨-, -, u, hu, rfl⟩ | ⟨-, -, u, hu, rfl⟩ := exec_cases h
    · exact ⟨hu.portsMove, .refl _⟩
    · exact ⟨.refl _, hu.portsMove⟩
  obtain ⟨⟨hes, elog, helog, hek⟩, hds, dlog, hdlog, hdk⟩ := hmove
  refine ⟨hes, hds, fun m hm hwf => ?_, fun m hm hwf => ?_⟩
  · obtain ⟨m', hm', hframe⟩ := hek.frame hm hwf
    exact ⟨m', elog, hm', helog, hframe⟩
  · obtain ⟨m', hm', hframe⟩ := hdk.frame hm hwf
    exact ⟨m', dlog, hm', hdlog, hframe⟩

end Sys2Proof.Machine

/-! SUPPORT. No transaction of a port follows one that failed (O52). A command under way (`EncUnit.UnderWay`,
`DecUnit.UnderWay`) has met no failure, and a transaction that fails ends it with IO_ERROR (`EndsAtFailure`). -/

namespace Sys2Proof.Machine

/-! ## Records -/

/-- A read that does not end the command's reading: it yields a byte or is short (R49). -/
def SrcXact.GoesOn (x : SrcXact) : Prop := fetchByte x.answer = .again ∨ ∃ b, fetchByte x.answer = .byte b

/-- On each port no record but the last is of a transaction that ended something, and if a last one failed then
`failed`. -/
structure EndsAtFailure (reads : List SrcXact) (writes : List SnkXact) (failed : Prop) : Prop where
  writesButLast : ∀ x ∈ writes.dropLast, x.status = .ok
  readsButLast : ∀ x ∈ reads.dropLast, x.GoesOn
  ends : (∃ x, writes.getLast? = some x ∧ x.status ≠ .ok) ∨
    (∃ x, reads.getLast? = some x ∧ fetchByte x.answer = .ioFail) → failed

section
variable {reads : List SrcXact} {writes : List SnkXact} {failed failed' : Prop}

theorem EndsAtFailure.nil : EndsAtFailure [] [] failed := ⟨by simp, by simp, by simp⟩

theorem EndsAtFailure.mono (h : EndsAtFailure reads writes failed) (hf : failed → failed') :
    EndsAtFailure reads writes failed' := ⟨h.writesButLast, h.readsButLast, fun hl => hf (h.ends hl)⟩

/-- While the last write has not failed, every write was answered `Ok`. -/
theorem EndsAtFailure.writes_ok (h : EndsAtFailure reads writes False) : ∀ x ∈ writes, x.status = .ok := by
  intro x hx
  obtain ⟨l, y, rfl⟩ := (List.eq_nil_or_concat' writes).resolve_left (List.ne_nil_of_mem hx)
  obtain hx | hx := List.mem_append.mp hx
  · exact h.writesButLast x (by simpa using hx)
  · rw [List.mem_singleton.mp hx]
    by_contra hne
    exact h.ends (.inl ⟨y, by simp, hne⟩)

/-- One more write, after which the command has failed if it did. -/
theorem EndsAtFailure.write (h : EndsAtFailure reads writes False) {x : SnkXact} (hf : x.status ≠ .ok → failed) :
    EndsAtFailure reads (writes ++ [x]) failed where
  writesButLast := by simpa using h.writes_ok
  readsButLast := h.readsButLast
  ends := by
    rintro (⟨y, hy, hne⟩ | hl)
    · obtain rfl : x = y := by simpa using hy
      exact hf hne
    · exact (h.ends (.inr hl)).elim

/-- One more read, after reads that all go on; the command has failed if it did. -/
theorem EndsAtFailure.read (h : EndsAtFailure reads writes False) (hr : ∀ x ∈ reads, x.GoesOn) {x : SrcXact}
    (hf : fetchByte x.answer = .ioFail → failed) : EndsAtFailure (reads ++ [x]) writes failed where
  writesButLast := h.writesButLast
  readsButLast := by simpa using hr
  ends := by
    rintro (hl | ⟨y, hy, hfail⟩)
    · exact (h.ends (.inl hl)).elim
    · obtain rfl : x = y := by simpa using hy
      exact hf hfail

theorem goesOn_concat (hr : ∀ x ∈ reads, x.GoesOn) {x : SrcXact} (hx : x.GoesOn) : ∀ y ∈ reads ++ [x], y.GoesOn := by
  intro y hy
  obtain hy | hy := List.mem_append.mp hy
  · exact hr y hy
  · rwa [List.mem_singleton.mp hy]

end

/-! ## The encoder -/

/-- What the encoder `u` recorded up to `u'`, and whether it ended with IO_ERROR: the statement's words, of one unit. -/
def EncUnit.FailureEnds (u u' : EncUnit) : Prop :=
  ∃ reads writes, u'.srcLog = u.srcLog ++ reads ∧ u'.snkLog = u.snkLog ++ writes ∧
    EndsAtFailure reads writes (u'.responses = u.responses ++ [.plain .ioError] ∧ u'.busy = false)

/-- A command of the encoder under way since `u`: `v` now, to go on from `p`. A failure returns IO_ERROR, and a command
that still reads has met no read that ends its reading. -/
def EncUnit.UnderWay (u v : EncUnit) (p : EncProgress) : Prop :=
  ∃ reads writes, v.srcLog = u.srcLog ++ reads ∧ v.snkLog = u.snkLog ++ writes ∧ v.responses = u.responses ∧
    EndsAtFailure reads writes (p = .done .ioError) ∧ (¬ EncReadsNothing p → ∀ x ∈ reads, x.GoesOn)

theorem EncUnit.UnderWay.start (u : EncUnit) (p : EncProgress) : u.UnderWay u p :=
  ⟨[], [], by simp, by simp, rfl, .nil, by simp⟩

/-- A read that the encoder goes on reading after is one that goes on (R105). -/
theorem goesOn_of_encFetched {a : SrcAnswer} (h : ¬ EncReadsNothing (encFetched (fetchByte a))) :
    SrcXact.GoesOn ⟨Config.readChunk, a⟩ := by
  cases hf : fetchByte a with
  | byte b => exact .inr ⟨b, hf⟩
  | again => exact .inl hf
  | eos => rw [hf] at h; exact absurd (encGoOn_readsNothing [END] (by simp)) h
  | ioFail => rw [hf] at h; exact absurd trivial h

theorem EncUnit.UnderWay.transact {u v v' : EncUnit} {t : EncTask} {p : EncProgress} (h : u.UnderWay v (.wait t))
    (ht : encTransact v t = some (v', p)) : u.UnderWay v' p := by
  obtain ⟨reads, writes, hsrc, hsnk, hrsp, hend, hgo⟩ := h
  replace hend := hend.mono (failed' := False) (by simp)
  obtain ⟨b, out, k, st, q, rfl, -, rfl, rfl⟩ | ⟨a, q, rfl, -, rfl, rfl⟩ := encTransact_cases ht
  · refine ⟨reads, writes ++ [⟨[b], st⟩], hsrc, by simp [hsnk], hrsp, hend.write fun hst => ?_, fun hr => hgo ?_⟩
    · rw [putByte_of_ne_ok hst]; rfl
    · exact fun hk => hr (encWritten_readsNothing out hk _)
  · have hall := hgo id
    refine ⟨reads ++ [⟨Config.readChunk, a⟩], writes, by simp [hsrc], hsnk, hrsp, hend.read hall fun hf => ?_,
      fun hr => goesOn_concat hall (goesOn_of_encFetched hr)⟩
    rw [show fetchByte a = .ioFail from hf]; rfl

theorem encContinue_failureEnds (u : EncUnit) (p : EncProgress) : u.FailureEnds (encContinue u p) := by
  refine encContinue_rec (Q := u.UnderWay) (R := u.FailureEnds) (fun _ _ _ _ hv ht => hv.transact ht) ?_ ?_ (.start u p)
  · rintro v r ⟨reads, writes, hsrc, hsnk, hrsp, hend, -⟩
    refine ⟨reads, writes, hsrc, hsnk, hend.mono fun hr => ?_⟩
    cases hr
    exact ⟨by simp [hrsp, EncOutcome.response], rfl⟩
  · rintro v t ⟨reads, writes, hsrc, hsnk, -, hend, -⟩ -
    exact ⟨reads, writes, hsrc, hsnk, hend.mono (by simp)⟩

/-- A unit that records nothing. -/
theorem EncUnit.FailureEnds.of_no_record {u u' : EncUnit} (hsrc : u'.srcLog = u.srcLog) (hsnk : u'.snkLog = u.snkLog) :
    u.FailureEnds u' := ⟨[], [], by simp [hsrc], by simp [hsnk], .nil⟩

theorem wakeEnc_failureEnds (u : EncUnit) : u.FailureEnds (wakeEnc u) := by
  cases ht : u.task with
  | none => rw [wakeEnc_idle ht]; exact .of_no_record rfl rfl
  | some t => rw [wakeEnc_waiting ht]; exact encContinue_failureEnds u _

theorem EncCommand.failureEnds {u u' : EncUnit} {i : Instr} (h : EncCommand u i u') : u.FailureEnds u' := by
  cases h with
  | init v => exact .of_no_record rfl rfl
  | byte b => exact encContinue_failureEnds u _
  | packet v p => exact encContinue_failureEnds u _
  | transfer => exact encContinue_failureEnds u _

theorem EncMove.failureEnds {u u' : EncUnit} {x : Input} (h : EncMove u x u') : u.FailureEnds u' := by
  cases h with
  | stay => exact .of_no_record rfl rfl
  | command _ _ hc => exact hc.failureEnds
  | sourceAnswer => exact wakeEnc_failureEnds (u.setSrc _)
  | sinkAnswer => exact wakeEnc_failureEnds (u.setSnk _)
  | attachSource => exact .of_no_record rfl rfl
  | attachSink => exact .of_no_record rfl rfl
  | powerOn => exact .of_no_record rfl rfl

/-! ## The decoder -/

/-- What the decoder `u` recorded up to `u'`, and whether it ended with IO_ERROR: the statement's words, of one unit. -/
def DecUnit.FailureEnds (u u' : DecUnit) : Prop :=
  ∃ reads writes, u'.srcLog = u.srcLog ++ reads ∧ u'.snkLog = u.snkLog ++ writes ∧
    EndsAtFailure reads writes (u'.responses = u.responses ++ [.plain .ioError] ∧ u'.busy = false)

/-- The command returns IO_ERROR. -/
def DecFailed (p : DecProgress) : Prop := ∃ r, p = .done r ∧ r.response = .plain .ioError

/-- A command of the decoder under way since `u`: `v` now, to go on from `p`. A failure returns IO_ERROR, and a command
that still reads has met no read that ends its reading. -/
def DecUnit.UnderWay (u v : DecUnit) (p : DecProgress) : Prop :=
  ∃ reads writes, v.srcLog = u.srcLog ++ reads ∧ v.snkLog = u.snkLog ++ writes ∧ v.responses = u.responses ∧
    EndsAtFailure reads writes (DecFailed p) ∧ (¬ DecReadsNothing p → ∀ x ∈ reads, x.GoesOn)

theorem DecUnit.UnderWay.start (u : DecUnit) (p : DecProgress) : u.UnderWay u p :=
  ⟨[], [], by simp, by simp, rfl, .nil, by simp⟩

/-- What the scan makes of an answer: a failed read ends the command, and it reads on after one that goes on (R129). -/
theorem decScanned_goesOn (u : DecUnit) (a : SrcAnswer) :
    (fetchByte a = .ioFail → DecFailed (decScanned u (fetchByte a)).2) ∧
      (¬ DecReadsNothing (decScanned u (fetchByte a)).2 → SrcXact.GoesOn ⟨Config.readChunk, a⟩) := by
  cases hf : fetchByte a with
  | byte b => exact ⟨nofun, fun _ => .inr ⟨b, hf⟩⟩
  | again => exact ⟨nofun, fun _ => .inl hf⟩
  | eos => exact ⟨nofun, fun hr => absurd trivial hr⟩
  | ioFail => exact ⟨fun _ => ⟨_, rfl, rfl⟩, fun hr => absurd trivial hr⟩

/-- What the decode loop makes of an answer: a failed read ends the command, and it reads on after one that goes on
(R132). -/
theorem decFetched_goesOn (u : DecUnit) (got : Bool) (a : SrcAnswer) :
    (fetchByte a = .ioFail → DecFailed (decFetched u got (fetchByte a)).2) ∧
      (¬ DecReadsNothing (decFetched u got (fetchByte a)).2 → SrcXact.GoesOn ⟨Config.readChunk, a⟩) := by
  cases hf : fetchByte a with
  | byte b => exact ⟨nofun, fun _ => .inr ⟨b, hf⟩⟩
  | again => exact ⟨nofun, fun _ => .inl hf⟩
  | eos => exact ⟨nofun, fun hr => absurd trivial hr⟩
  | ioFail => exact ⟨fun _ => ⟨_, rfl, rfl⟩, fun hr => absurd trivial hr⟩

/-- A failed emit ends the command (R128). -/
theorem decEmitted_failed (sig : Signal) (inLoop : Bool) {st : SnkStatus} (h : st ≠ .ok) :
    DecFailed (decEmitted sig inLoop (putByte st)) := by
  rw [putByte_of_ne_ok h]
  cases inLoop <;> exact ⟨_, rfl, rfl⟩

/-- One more read of a command under way. -/
theorem DecUnit.UnderWay.read {u v v' : DecUnit} {t : DecTask} {p : DecProgress} {a : SrcAnswer}
    (h : u.UnderWay v (.wait t)) (hreads : ¬ DecReadsNothing (.wait t))
    (hsrc' : v'.srcLog = v.srcLog ++ [⟨Config.readChunk, a⟩]) (hsnk' : v'.snkLog = v.snkLog)
    (hrsp' : v'.responses = v.responses)
    (hp : (fetchByte a = .ioFail → DecFailed p) ∧ (¬ DecReadsNothing p → SrcXact.GoesOn ⟨Config.readChunk, a⟩)) :
    u.UnderWay v' p := by
  obtain ⟨reads, writes, hsrc, hsnk, hrsp, hend, hgo⟩ := h
  have hall := hgo hreads
  exact ⟨reads ++ [⟨Config.readChunk, a⟩], writes, by simp [hsrc', hsrc], hsnk'.trans hsnk, hrsp'.trans hrsp,
    (hend.mono (by simp [DecFailed])).read hall hp.1, fun hr => goesOn_concat hall (hp.2 hr)⟩

theorem DecUnit.UnderWay.transact {u v v' : DecUnit} {t : DecTask} {p : DecProgress} (h : u.UnderWay v (.wait t))
    (ht : decTransact v t = some (v', p)) : u.UnderWay v' p := by
  obtain ⟨a, q, rfl, -, hc⟩ | ⟨got, a, q, rfl, -, hc⟩ | ⟨x, sig, inLoop, st, q, rfl, -, rfl, rfl⟩ :=
    decTransact_cases ht
  · rw [show v' = _ from congrArg Prod.fst hc, show p = _ from congrArg Prod.snd hc]
    exact h.read (a := a) id (by simp) (by simp) (by simp) (decScanned_goesOn _ a)
  · rw [show v' = _ from congrArg Prod.fst hc, show p = _ from congrArg Prod.snd hc]
    exact h.read (a := a) id (by simp) (by simp) (by simp) (decFetched_goesOn _ got a)
  · obtain ⟨reads, writes, hsrc, hsnk, hrsp, hend, hgo⟩ := h
    refine ⟨reads, writes ++ [⟨[x], st⟩], hsrc, by simp [hsnk], hrsp,
      (hend.mono (by simp [DecFailed])).write fun hst => decEmitted_failed sig inLoop hst, fun hr => hgo ?_⟩
    intro hl
    obtain rfl : inLoop = false := hl
    exact hr (decEmitted_readsNothing sig _)

theorem decContinue_failureEnds (u : DecUnit) (p : DecProgress) : u.FailureEnds (decContinue u p) := by
  refine decContinue_rec (Q := u.UnderWay) (R := u.FailureEnds) (fun _ _ _ _ hv ht => hv.transact ht) ?_ ?_ (.start u p)
  · rintro v r ⟨reads, writes, hsrc, hsnk, hrsp, hend, -⟩
    refine ⟨reads, writes, hsrc, hsnk, hend.mono fun hr => ?_⟩
    obtain ⟨r', hr', hio⟩ := hr
    cases hr'
    exact ⟨by simp [hrsp, hio], rfl⟩
  · rintro v t ⟨reads, writes, hsrc, hsnk, -, hend, -⟩ -
    exact ⟨reads, writes, hsrc, hsnk, hend.mono (by simp [DecFailed])⟩

/-- A unit that records nothing. -/
theorem DecUnit.FailureEnds.of_no_record {u u' : DecUnit} (hsrc : u'.srcLog = u.srcLog) (hsnk : u'.snkLog = u.snkLog) :
    u.FailureEnds u' := ⟨[], [], by simp [hsrc], by simp [hsnk], .nil⟩

theorem wakeDec_failureEnds (u : DecUnit) : u.FailureEnds (wakeDec u) := by
  cases ht : u.task with
  | none => rw [wakeDec_idle ht]; exact .of_no_record rfl rfl
  | some t => rw [wakeDec_waiting ht]; exact decContinue_failureEnds u _

theorem DecCommand.failureEnds {u u' : DecUnit} {i : Instr} (h : DecCommand u i u') : u.FailureEnds u' := by
  cases h with
  | init v => exact .of_no_record rfl rfl
  | byte b =>
    simpa [DecUnit.FailureEnds] using decContinue_failureEnds (decConsume u b false).1 (decConsume u b false).2
  | transfer => exact decContinue_failureEnds u _
  | packet w => exact decContinue_failureEnds (u.attachPacket w) _
  | getMalformed => exact .of_no_record rfl rfl
  | clearMalformed => exact .of_no_record rfl rfl

theorem DecMove.failureEnds {u u' : DecUnit} {x : Input} (h : DecMove u x u') : u.FailureEnds u' := by
  cases h with
  | stay => exact .of_no_record rfl rfl
  | command _ _ hc => exact hc.failureEnds
  | sourceAnswer => exact wakeDec_failureEnds (u.setSrc _)
  | sinkAnswer => exact wakeDec_failureEnds (u.setSnk _)
  | attachSource => exact .of_no_record rfl rfl
  | attachSink => exact .of_no_record rfl rfl
  | powerOn => exact .of_no_record rfl rfl

/-! ## The machine -/

/-- Settles O52: a step changes nothing or moves each unit, and a move records a failure only as its last transaction of
that port, with which the command ends. -/
theorem failedTransactionEndsTheCommand : Obligations.FailedTransactionEndsTheCommand := by
  intro s t h
  have hends : s.enc.FailureEnds t.enc ∧ s.dec.FailureEnds t.dec := by
    obtain ⟨-, rfl⟩ | ⟨x, rest, -, henc, hdec⟩ := step_cases h
    · exact ⟨.of_no_record rfl rfl, .of_no_record rfl rfl⟩
    · exact ⟨henc.failureEnds, hdec.failureEnds⟩
  obtain ⟨⟨er, ew, hes, hek, he⟩, dr, dw, hds, hdk, hd⟩ := hends
  exact ⟨⟨er, ew, hes, hek, he.writesButLast, he.readsButLast, he.ends⟩,
    dr, dw, hds, hdk, hd.writesButLast, hd.readsButLast, hd.ends⟩

end Sys2Proof.Machine

/-! SUPPORT. A unit waits at an unanswered transaction (O15): the waits of Laws/Waits.lean, each read as what the
command makes of its idle unit. -/

namespace Sys2Proof.Machine

/-! ## The encoder -/

/-- An idle encoder's ENC_TRANSFER waits at a write, a read having yielded the byte or the end whose bytes `out` are to
be written (R105). -/
theorem encContinue_transfer_stuck {u : EncUnit} {v : Bool} {p out pre rest : List Byte} {x : Byte} {k : EncThen}
    {log : List SrcXact} {src src' : Source} {a : SrcAnswer} {q : Sink} (hr : Reads u.src p log src)
    (hread : src.read Config.readChunk = some (a, src')) (hf : encFetched (fetchByte a) = encGoOn out k)
    (hout : out = pre ++ x :: rest) (hq : u.snk.accepts (leadingEnd v ++ p.flatMap stuff ++ pre) = some q)
    (hx : q.write [x] = none) :
    encContinue u (encGoOn (leadingEnd v) .fetch) =
      (u.hasRead src' (log ++ [⟨Config.readChunk, a⟩])).waiting q (wrote (leadingEnd v ++ p.flatMap stuff ++ pre))
        (.write x rest k) := by
  obtain ⟨r, hbefore, hpre⟩ := Sink.accepts_append.mp hq
  rw [encContinue_transfer_reads hr hbefore, encContinue_read (a := a) (p := src') (by simpa using hread), hf,
    encContinue_stuck_out hout (by simpa using hpre) hx]
  simp [EncUnit.waiting, EncUnit.hasWritten, EncUnit.hasRead, EncUnit.afterRead]

/-- An idle encoder's ENC_TRANSFER waits at a read (R105). -/
theorem encContinue_transfer_read_none {u : EncUnit} {v : Bool} {p : List Byte} {log : List SrcXact} {src : Source}
    {q : Sink} (hr : Reads u.src p log src) (hq : u.snk.accepts (leadingEnd v ++ p.flatMap stuff) = some q)
    (hread : src.read Config.readChunk = none) :
    encContinue u (encGoOn (leadingEnd v) .fetch) =
      (u.hasRead src log).waiting q (wrote (leadingEnd v ++ p.flatMap stuff)) .read := by
  rw [encContinue_transfer_reads hr hq, encContinue_read_none (by simpa using hread), EncUnit.hasWritten_waitAt]

/-- The bytes ENC_PACKET has to write are the frame (R104). -/
theorem encRest_packet (v : Bool) (p : List Byte) : encRest (leadingEnd v) (.payload p 0) = frame p v := rfl

/-! ## The decoder -/

/-- A byte that emits, consumed by DEC_BYTE: its register writes are made and its emit comes next (R120, R131). -/
theorem decConsume_emit {u : DecUnit} {b x : Byte} (h : (decodeWire u.esc [b]).data = [x]) :
    decConsume u b false = (u.decoded (decodeWire u.esc [b]), .wait (.emit x .more false)) := by
  rw [decodeWire_cons] at h ⊢
  cases hends : stepEnds u.esc b with
  | true => simp [hends] at h
  | false =>
    have hdata : stepData u.esc b = some x := by
      cases hs : stepData u.esc b <;> simp_all
    simp only [decConsume, decodeStep_eq, hends, hdata, Bool.false_eq_true, if_false]
    congr 1
    ext : 1 <;> simp [DecUnit.decoded]

/-- An in-memory source over W yields what W begins with (R50, R62). -/
theorem reads_packet (w rest : List Byte) :
    Reads (.inMemory ⟨w ++ rest, 0⟩) w (readEach w) (.inMemory ⟨w ++ rest, w.length⟩) := by
  simpa using reads_inMemory (m := ⟨w ++ rest, 0⟩) (bs := w) (rest := rest) rfl

/-- The next byte of W (R50, R62). -/
theorem read_packet_byte (w : List Byte) (b : Byte) (rest : List Byte) :
    Source.read (.inMemory ⟨w ++ b :: rest, w.length⟩) Config.readChunk =
      some (⟨[b], .more⟩, .inMemory ⟨w ++ b :: rest, w.length + 1⟩) := by
  simp [Source.read, MemSource.read_byte (m := ⟨w ++ b :: rest, w.length⟩) (b := b) (by simp)]

/-- The end of W (R50, R62). -/
theorem read_packet_end (w : List Byte) :
    Source.read (.inMemory ⟨w, w.length⟩) Config.readChunk = some (eofAnswer, .inMemory ⟨w, w.length⟩) := by
  simp [Source.read, MemSource.read_end]

/-- The decoder waits at an emit of a transfer (R128, R132). -/
theorem decContinue_transfer_emit_none {u : DecUnit} {w : List Byte} {b x : Byte} {log : List SrcXact}
    {p p' : Source} {q : Sink} {a : SrcAnswer} (hr : Reads u.activeSrc w log p)
    (he : (transferWire u.reqStart u.esc w).ended = false)
    (hq : u.snk.accepts (transferWire u.reqStart u.esc w).data = some q)
    (hread : p.read Config.readChunk = some (a, p')) (hf : fetchByte a = .byte b)
    (hd : (transferWire u.reqStart u.esc (w ++ [b])).data = (transferWire u.reqStart u.esc w).data ++ [x])
    (hx : q.write [x] = none) :
    decContinue u (decTransferStart u) =
      ((u.readTo p' (log ++ [⟨Config.readChunk, a⟩])).decoded (transferWire u.reqStart u.esc (w ++ [b]))).waiting q
        (wrote (transferWire u.reqStart u.esc w).data) (.emit x .more true) := by
  rw [decContinue_transfer_emit hr he hq hread hf hd, decContinue_emit_none (by simpa using hx),
    DecUnit.hasWritten_waitAt]

/-- With the host's source in place, that is what a transfer reads (R62). -/
theorem DecUnit.activeSrc_eq_src {u : DecUnit} (h : u.packetSrc = none) : u.activeSrc = u.src := by
  simp [DecUnit.activeSrc, h]

/-- What the wire bytes mean and what was read to get them do not touch each other. -/
theorem DecUnit.hasRead_decoded (u : DecUnit) (p : Source) (log : List SrcXact) (d : Decoded) :
    (u.hasRead p log).decoded d = (u.decoded d).hasRead p log := rfl

/-- With no action of the outside world left, a step changes nothing (log entry 8). -/
theorem step_of_no_input {s : State} (h : s.inputs = []) : step s = .next s := by
  simp [step, takeNext, h]

/-- Settles O15: the unit is idle and runs its command, which stops at the first unanswered transaction. -/
theorem unansweredTransactionWaits : Obligations.UnansweredTransactionWaits := by
  refine ⟨fun s => step_of_no_input, ?encByte, ?encPacket, ?leadingEnd, ?encRead, ?stuffed, ?terminatingEnd, ?decByte,
    ?decRead, ?decEmit, ?packetEmit⟩
  case encByte =>
    intro b s pre x out q ht hout hpre hx
    rw [exec_of_encCommand (EncUnit.busy_of_task_none ht) (.byte b), encContinue_stuck_out hout hpre hx]
  case encPacket =>
    intro v p s pre x rest q ht hframe hpre hx
    obtain ⟨out, k, h⟩ := encContinue_stuck (by simp) ((encRest_packet v p).trans hframe) hpre hx
    exact ⟨out, k, by rw [exec_of_encCommand (EncUnit.busy_of_task_none ht) (.packet v p), h]; rfl⟩
  case leadingEnd =>
    intro s ht hv hx
    rw [exec_of_encCommand (EncUnit.busy_of_task_none ht) .transfer, hv,
      encContinue_stuck_out (out := leadingEnd true) (pre := []) rfl rfl hx]
    rfl
  case encRead =>
    intro s p log src q ht hr hq hread
    rw [exec_of_encCommand (EncUnit.busy_of_task_none ht) .transfer, encContinue_transfer_read_none hr hq hread]
  case stuffed =>
    intro s p log src a src' b pre x out q ht hr hread hf hout hq hx
    rw [exec_of_encCommand (EncUnit.busy_of_task_none ht) .transfer,
      encContinue_transfer_stuck hr hread (by rw [hf]; rfl) hout hq hx]
  case terminatingEnd =>
    intro s p log src src' q ht hr hread hq hx
    rw [exec_of_encCommand (EncUnit.busy_of_task_none ht) .transfer,
      encContinue_transfer_stuck (k := .finish) hr hread rfl (pre := []) rfl (by simpa using hq) hx]
    simp [readEof]
  case decByte =>
    intro s b x ht _ hd hx
    rw [exec_of_decCommand (DecUnit.busy_of_task_none ht) (.byte b), decConsume_emit hd,
      decContinue_emit_none (by simpa using hx), ← DecUnit.waitAt_eq_waiting]
    rfl
  case decRead =>
    intro s w log src q ht hk hr he hq hread
    rw [exec_of_decCommand (DecUnit.busy_of_task_none ht) .transfer,
      decContinue_transfer_read_none (by rwa [DecUnit.activeSrc_eq_src hk]) he hq hread,
      DecUnit.readTo_eq_hasRead hk, DecUnit.hasRead_decoded]
  case decEmit =>
    intro s w log src a src' b x q ht hk hr hread hf he hd hq hx
    rw [exec_of_decCommand (DecUnit.busy_of_task_none ht) .transfer,
      decContinue_transfer_emit_none (by rwa [DecUnit.activeSrc_eq_src hk]) he hq hread hf hd hx,
      DecUnit.readTo_eq_hasRead hk, DecUnit.hasRead_decoded]
  case packetEmit =>
    intro s w rest b x q ht _ he hd hq hx
    have hwait := decContinue_transfer_emit_none (u := s.dec.attachPacket (w ++ b :: rest)) (reads_packet w (b :: rest))
      he hq (read_packet_byte w b rest) rfl hd hx
    rw [exec_of_decCommand (DecUnit.busy_of_task_none ht) (.packet _)]
    refine congrArg (fun u => Host.Outcome.next (s.setDec u)) (hwait.trans ?_)
    rw [readEach_append]
    rfl

end Sys2Proof.Machine

/-! SUPPORT. DEC_PACKET over the whole of W (O35): either no `END` ends the packet, W is consumed, and the transfer
meets the end of its own source; or the packet ends at a byte of W, and the transfer reads no further. -/

namespace Sys2Proof.Machine

/-- The scan ends at the first `END` (R129). -/
theorem scanWire_of_noise {noise : List Byte} (h : END ∉ noise) (rest : List Byte) :
    scanWire (noise ++ END :: rest) = some (noise ++ [END], rest) := by
  induction noise with
  | nil => simp [scanWire]
  | cons b bs ih =>
    have hb : b ≠ END := fun hb => h (by simp [hb])
    have hbs : END ∉ bs := fun hbs => h (by simp [hbs])
    simp [scanWire, hb, ih hbs]

/-- A decode loop that ended no packet consumed every byte (R132). -/
theorem decodeWire_consumed {e : EscState} {w : List Byte} (h : (decodeWire e w).ended = false) :
    (decodeWire e w).consumed = w := by
  induction w generalizing e with
  | nil => simp
  | cons b bs ih =>
    rw [decodeWire_cons] at h ⊢
    cases hends : stepEnds e b with
    | true => simp [hends] at h
    | false =>
      simp only [hends, Bool.false_eq_true, if_false] at h ⊢
      rw [ih h]

/-- A transfer that ended no packet consumed every byte (R129, R132). -/
theorem transferWire_consumed {r : Bool} {e : EscState} {w : List Byte} (h : (transferWire r e w).ended = false) :
    (transferWire r e w).consumed = w := by
  unfold transferWire at h ⊢
  cases r with
  | false => exact decodeWire_consumed h
  | true =>
    obtain ⟨hs, -⟩ | ⟨noise, rest, hs, rfl, -⟩ := scanWire_spec w
    · simp [hs]
    · simp only [hs, if_true] at h ⊢
      simp [decodeWire_consumed h]

/-- The packet ends at the last byte consumed, and not before it (R121). -/
def EndsAt (f : List Byte → Decoded) (w init : List Byte) (b : Byte) : Prop :=
  (∃ rest, w = init ++ b :: rest) ∧ (f init).ended = false ∧ f (init ++ [b]) = f w ∧ (f w).consumed = init ++ [b]

theorem decodeWire_endsAt {e : EscState} {w : List Byte} (h : (decodeWire e w).ended = true) :
    ∃ init b, EndsAt (decodeWire e) w init b := by
  induction w generalizing e with
  | nil => simp at h
  | cons c cs ih =>
    cases hends : stepEnds e c with
    | true => exact ⟨[], c, ⟨cs, rfl⟩, by simp, by simp [decodeWire_cons, hends], by simp [decodeWire_cons, hends]⟩
    | false =>
      have hcons : ∀ bs, decodeWire e (c :: bs) = _ := decodeWire_cons e c
      simp only [hends, Bool.false_eq_true, if_false] at hcons
      rw [hcons] at h
      obtain ⟨init, b, ⟨rest, rfl⟩, hinit, hsame, hcon⟩ := ih h
      exact ⟨c :: init, b, ⟨rest, rfl⟩, by rw [hcons]; exact hinit,
        by rw [List.cons_append, hcons, hcons, hsame], by rw [hcons]; simp [hcon]⟩

theorem transferWire_endsAt {r : Bool} {e : EscState} {w : List Byte} (h : (transferWire r e w).ended = true) :
    ∃ init b, EndsAt (transferWire r e) w init b := by
  cases r with
  | false => exact decodeWire_endsAt h
  | true =>
    obtain ⟨hs, -⟩ | ⟨noise, rest, -, rfl, hnoise⟩ := scanWire_spec w
    · simp [transferWire, hs] at h
    · have hscan : ∀ bs, transferWire true e (noise ++ END :: bs) =
          { decodeWire .normal bs with consumed := noise ++ [END] ++ (decodeWire .normal bs).consumed } := fun bs => by
        simp [transferWire, scanWire_of_noise hnoise]
      rw [hscan] at h
      obtain ⟨init, b, ⟨rest', rfl⟩, hinit, hsame, hcon⟩ := decodeWire_endsAt h
      exact ⟨noise ++ END :: init, b, ⟨rest', by simp⟩, by rw [hscan]; exact hinit,
        by rw [List.append_assoc, List.cons_append, hscan, hscan, hsame], by rw [hscan]; simp [hcon]⟩

/-- DEC_PACKET that read W with the record `log`, wrote and returned: the host's source is back in place (R62). -/
theorem DecUnit.packet_returned {u : DecUnit} (ht : u.task = none) (hk : u.packetSrc = none) (w : List Byte)
    (m : MemSource) (log : List SrcXact) (d : Decoded) (q : Sink) (l : List SnkXact) (c : Code) :
    ((((u.attachPacket w).readTo (.inMemory m) log).decoded d).hasWritten q l).endCommand (.plain c) =
      ((u.decoded d).hasRead u.src log).returned q l c :=
  DecUnit.ext rfl rfl rfl rfl ht.symm hk.symm rfl rfl rfl rfl rfl

/-- Settles O35: by whether the packet ends within W. -/
theorem decPacketDecodesBuffer : Obligations.DecPacketDecodesBuffer := by
  rintro s w d q ht hk rfl hq
  rw [exec_of_decCommand (DecUnit.busy_of_task_none ht) (.packet w)]
  refine congrArg (fun u => Host.Outcome.next (s.setDec u)) ?_
  cases hend : (transferWire s.dec.reqStart s.dec.esc w).ended with
  | false =>
    have hreads : Reads (.inMemory ⟨w, 0⟩) w (readEach w) (.inMemory ⟨w, w.length⟩) := by
      simpa using reads_packet w []
    have hrun := decContinue_transfer_eof (u := s.dec.attachPacket w) hreads hend hq (read_packet_end w)
    rw [transferWire_consumed hend]
    exact hrun.trans (DecUnit.packet_returned ht hk _ _ _ _ _ _ _)
  | true =>
    obtain ⟨init, b, ⟨rest, rfl⟩, hinit, hsame, hcon⟩ := transferWire_endsAt hend
    have hrun := decContinue_transfer_end (u := s.dec.attachPacket (init ++ b :: rest)) (reads_packet init (b :: rest))
      hinit (hsame ▸ hq) (read_packet_byte init b rest) rfl (hsame ▸ hend)
    have hcode : transferCode s.dec.reqStart s.dec.esc (init ++ b :: rest) = .endOfPacket := by
      simp [transferCode, hend]
    rw [hcon, hcode, if_pos rfl, List.append_nil, readEach_append, ← hsame]
    exact hrun.trans (DecUnit.packet_returned ht hk _ _ _ _ _ _ _)

end Sys2Proof.Machine

/-! SUPPORT. It does not matter when `ENV` gives an answer (O17). A unit whose port has one answer more (`EncAnswered`,
`DecAnswered`) makes the same transactions, each leaving the same one answer more, up to its return or to the
transaction that the other waits at; there the answer wakes the other, which goes on as the first does. -/

namespace Sys2Proof.Machine

/-! ## One answer more at a port -/

/-- A read that is answered is answered so with one more answer ready, which is then still ready (R43). -/
theorem Source.read_give {p p' q : Source} {n : Nat} {a b : SrcAnswer} (hg : p.give b = some p')
    (hr : p.read n = some (a, q)) : ∃ q', p'.read n = some (a, q') ∧ q.give b = some q' := by
  cases p with
  | inMemory m => cases hg
  | external as =>
    cases as with
    | nil => cases hr
    | cons x xs => cases hg; cases hr; exact ⟨_, rfl, rfl⟩

/-- A write that is answered is answered so with one more answer ready, which is then still ready (R43). -/
theorem Sink.write_give {p p' q : Sink} {bs : List Byte} {st st' : SnkStatus} (hg : p.give st' = some p')
    (hw : p.write bs = some (st, q)) : ∃ q', p'.write bs = some (st, q') ∧ q.give st' = some q' := by
  cases p with
  | inMemory m => cases hg
  | external as =>
    cases as with
    | nil => cases hw
    | cons x xs => cases hg; cases hw; exact ⟨_, rfl, rfl⟩

/-- The encoder with the answer `x` of `ENV` ready at its port, before it wakes (R43). -/
inductive EncAnswered (u : EncUnit) : Input → EncUnit → Prop where
  | source {a : SrcAnswer} {p : Source} (hp : u.src.give a = some p) :
      EncAnswered u (.sourceAnswer .encoder a) (u.setSrc p)
  | sink {st : SnkStatus} {p : Sink} (hp : u.snk.give st = some p) :
      EncAnswered u (.sinkAnswer .encoder st) (u.setSnk p)

/-- The decoder with the answer `x` of `ENV` ready at its port, before it wakes (R43). -/
inductive DecAnswered (u : DecUnit) : Input → DecUnit → Prop where
  | source {a : SrcAnswer} {p : Source} (hp : u.src.give a = some p) :
      DecAnswered u (.sourceAnswer .decoder a) (u.setSrc p)
  | sink {st : SnkStatus} {p : Sink} (hp : u.snk.give st = some p) :
      DecAnswered u (.sinkAnswer .decoder st) (u.setSnk p)

theorem deliver_of_encAnswered {s : State} {x : Input} {v : EncUnit} (h : EncAnswered s.enc x v) :
    deliver x s = .next (s.setEnc (wakeEnc v)) := by
  cases h with
  | source hp => simp [deliver, answerSource, hp]
  | sink hp => simp [deliver, answerSink, hp]

theorem deliver_of_decAnswered {s : State} {x : Input} {v : DecUnit} (h : DecAnswered s.dec x v) :
    deliver x s = .next (s.setDec (wakeDec v)) := by
  cases h with
  | source hp => simp [deliver, answerSource, hp]
  | sink hp => simp [deliver, answerSink, hp]

/-- An answer to a source port that is taken makes one unit's port ready and wakes that unit. -/
theorem answerSource_answered {unit : UnitId} {a : SrcAnswer} {s t : State} (h : answerSource unit a s = .next t) :
    (∃ v, EncAnswered s.enc (.sourceAnswer unit a) v ∧ t = s.setEnc (wakeEnc v)) ∨
    (∃ v, DecAnswered s.dec (.sourceAnswer unit a) v ∧ t = s.setDec (wakeDec v)) := by
  cases unit with
  | encoder =>
    simp only [answerSource] at h
    split at h <;> cases h
    exact .inl ⟨_, .source ‹_›, rfl⟩
  | decoder =>
    simp only [answerSource] at h
    split at h <;> cases h
    exact .inr ⟨_, .source ‹_›, rfl⟩

/-- An answer to a sink port that is taken makes one unit's port ready and wakes that unit. -/
theorem answerSink_answered {unit : UnitId} {st : SnkStatus} {s t : State} (h : answerSink unit st s = .next t) :
    (∃ v, EncAnswered s.enc (.sinkAnswer unit st) v ∧ t = s.setEnc (wakeEnc v)) ∨
    (∃ v, DecAnswered s.dec (.sinkAnswer unit st) v ∧ t = s.setDec (wakeDec v)) := by
  cases unit with
  | encoder =>
    simp only [answerSink] at h
    split at h <;> cases h
    exact .inl ⟨_, .sink ‹_›, rfl⟩
  | decoder =>
    simp only [answerSink] at h
    split at h <;> cases h
    exact .inr ⟨_, .sink ‹_›, rfl⟩

/-! ## The encoder -/

theorem encTransact_of_write {u : EncUnit} {b : Byte} {st : SnkStatus} {q : Sink} (h : u.snk.write [b] = some (st, q))
    (out : List Byte) (k : EncThen) :
    encTransact u (.write b out k) = some (u.afterWrite q b st, encWritten out k (putByte st)) := by
  simp [encTransact, EncUnit.write_eq h]

theorem encTransact_of_read {u : EncUnit} {a : SrcAnswer} {q : Source}
    (h : u.src.read Config.readChunk = some (a, q)) :
    encTransact u .read = some (u.afterRead q a, encFetched (fetchByte a)) := by
  simp [encTransact, EncUnit.read_eq h]

/-- Two encoders in a relation that every transaction keeps, the second making the transactions of the first: where the
first stops, the second stands in the relation `Q` to it, if it does so at a return and from a wait on. -/
theorem encContinue_simulates {R Q : EncUnit → EncUnit → Prop}
    (hstep : ∀ u v t u' p, R u v → encTransact u t = some (u', p) → ∃ v', encTransact v t = some (v', p) ∧ R u' v')
    (hdone : ∀ u v r, R u v → Q (u.endCommand r) (v.endCommand r))
    (hwait : ∀ u v t, R u v → encTransact u t = none → Q (u.waitAt t) (encContinue v (.wait t)))
    {u v : EncUnit} (h : R u v) (p : EncProgress) : Q (encContinue u p) (encContinue v p) := by
  refine encContinue_rec (Q := fun u' r => ∃ v', R u' v' ∧ encContinue v' r = encContinue v p)
    (R := fun u' => Q u' (encContinue v p)) ?_ ?_ ?_ ⟨v, h, rfl⟩
  · rintro u₁ t u₂ r ⟨v₁, hR, hv⟩ ht
    obtain ⟨v₂, ht', hR'⟩ := hstep _ _ _ _ _ hR ht
    exact ⟨v₂, hR', by rw [← hv, encContinue_wait_some ht']⟩
  · rintro u₁ r ⟨v₁, hR, hv⟩
    exact hv ▸ hdone _ _ _ hR
  · rintro u₁ t ⟨v₁, hR, hv⟩ ht
    exact hv ▸ hwait _ _ _ hR ht

/-- A command goes on the same whatever the encoder waited at before: every stop writes the task. -/
theorem encContinue_waitAt (u : EncUnit) (t : EncTask) (p : EncProgress) :
    encContinue (u.waitAt t) p = encContinue u p := by
  refine (encContinue_simulates (R := fun v v' => v.waitAt t = v') (Q := Eq) ?_ ?_ ?_ rfl p).symm
  · rintro v _ t' v' r rfl ht
    obtain ⟨b, out, k, st, q, rfl, hw, rfl, rfl⟩ | ⟨a, q, rfl, hr, rfl, rfl⟩ := encTransact_cases ht
    · exact ⟨_, encTransact_of_write (u := v.waitAt t) hw out k, rfl⟩
    · exact ⟨_, encTransact_of_read (u := v.waitAt t) hr, rfl⟩
  · rintro v _ r rfl
    rfl
  · rintro v _ t' rfl ht
    rw [encContinue_wait_none (encTransact_waitAt_none ht t)]
    rfl

/-- A unit left waiting at `t` wakes as the command goes on. -/
theorem wakeEnc_waitAt (u : EncUnit) (t : EncTask) : wakeEnc (u.waitAt t) = encContinue u (.wait t) := by
  rw [wakeEnc_waiting (u := u.waitAt t) rfl, encContinue_waitAt]

section
variable {u u' v : EncUnit} {x : Input}

/-- An answer that is ready stays so through a change that neither looks at the ports nor makes any. -/
theorem EncAnswered.map {f : EncUnit → EncUnit} (h : EncAnswered u x v) (hsrc : (f u).src = u.src)
    (hsnk : (f u).snk = u.snk) (hsetSrc : ∀ p, f (u.setSrc p) = (f u).setSrc p)
    (hsetSnk : ∀ p, f (u.setSnk p) = (f u).setSnk p) : EncAnswered (f u) x (f v) := by
  cases h with
  | source hp => rw [hsetSrc]; exact .source (hsrc ▸ hp)
  | sink hp => rw [hsetSnk]; exact .sink (hsnk ▸ hp)

theorem EncAnswered.endCommand (h : EncAnswered u x v) (r : Response) :
    EncAnswered (u.endCommand r) x (v.endCommand r) :=
  h.map (f := (EncUnit.endCommand · r)) rfl rfl (fun _ => rfl) (fun _ => rfl)

theorem EncAnswered.waitAt (h : EncAnswered u x v) (t : EncTask) : EncAnswered (u.waitAt t) x (v.waitAt t) :=
  h.map (f := (EncUnit.waitAt · t)) rfl rfl (fun _ => rfl) (fun _ => rfl)

theorem EncAnswered.setUseStart (h : EncAnswered u x v) (b : Bool) :
    EncAnswered (u.setUseStart b) x (v.setUseStart b) :=
  h.map (f := (EncUnit.setUseStart · b)) rfl rfl (fun _ => rfl) (fun _ => rfl)

theorem EncAnswered.useStart (h : EncAnswered u x v) : v.useStart = u.useStart := by cases h <;> rfl

theorem EncAnswered.task (h : EncAnswered u x v) : v.task = u.task := by cases h <;> rfl

/-- The transaction is made with the answer that was ready before it; the one more is ready after it (R43). -/
theorem EncAnswered.transact {t : EncTask} {p : EncProgress} (h : EncAnswered u x v)
    (ht : encTransact u t = some (u', p)) : ∃ v', encTransact v t = some (v', p) ∧ EncAnswered u' x v' := by
  obtain ⟨b, out, k, st, q, rfl, hw, rfl, rfl⟩ | ⟨a, q, rfl, hr, rfl, rfl⟩ := encTransact_cases ht
  · cases h with
    | @source _ p hp =>
      exact ⟨_, encTransact_of_write (u := u.setSrc p) hw out k, .source (u := u.afterWrite q b st) hp⟩
    | sink hp =>
      obtain ⟨q', hw', hg⟩ := Sink.write_give hp hw
      exact ⟨_, encTransact_of_write (u := u.setSnk _) hw' out k, .sink (u := u.afterWrite q b st) hg⟩
  · cases h with
    | source hp =>
      obtain ⟨q', hr', hg⟩ := Source.read_give hp hr
      exact ⟨_, encTransact_of_read (u := u.setSrc _) hr', .source (u := u.afterRead q a) hg⟩
    | sink hp => exact ⟨_, encTransact_of_read (u := u.setSnk _) hr, .sink (u := u.afterRead q a) hp⟩

/-- A command that goes on and is then answered ends where it ends when the answer is ready beforehand (R43). -/
theorem EncAnswered.continued (h : EncAnswered u x v) (p : EncProgress) :
    ∃ w, EncAnswered (encContinue u p) x w ∧ wakeEnc w = encContinue v p := by
  refine encContinue_simulates (R := fun u v => EncAnswered u x v)
    (Q := fun u v => ∃ w, EncAnswered u x w ∧ wakeEnc w = v) (fun _ _ _ _ _ hR ht => hR.transact ht) ?_ ?_ h p
  · exact fun u v r hR => ⟨_, hR.endCommand r, wakeEnc_idle rfl⟩
  · exact fun u v t hR _ => ⟨_, hR.waitAt t, wakeEnc_waitAt v t⟩

/-- The same of every command of the encoder. -/
theorem EncCommand.answered {i : Instr} (hc : EncCommand u i u') (h : EncAnswered u x v) :
    ∃ w, EncAnswered u' x w ∧ EncCommand v i (wakeEnc w) := by
  cases hc with
  | init b => exact ⟨_, (h.setUseStart b).endCommand _, .init b⟩
  | byte b => obtain ⟨w, hw, heq⟩ := h.continued _; exact ⟨w, hw, heq ▸ .byte b⟩
  | packet b p => obtain ⟨w, hw, heq⟩ := h.continued _; exact ⟨w, hw, heq ▸ .packet b p⟩
  | transfer => obtain ⟨w, hw, heq⟩ := h.continued _; exact ⟨w, hw, heq ▸ h.useStart ▸ .transfer⟩

end

/-! ## The decoder -/

theorem decTransact_of_scan {u : DecUnit} {a : SrcAnswer} {q : Source}
    (h : u.activeSrc.read Config.readChunk = some (a, q)) :
    decTransact u .scan = some (decScanned ((u.setActiveSrc q).logRead a) (fetchByte a)) := by
  simp [decTransact, DecUnit.read_eq h]

theorem decTransact_of_fetch {u : DecUnit} {a : SrcAnswer} {q : Source}
    (h : u.activeSrc.read Config.readChunk = some (a, q)) (got : Bool) :
    decTransact u (.fetch got) = some (decFetched ((u.setActiveSrc q).logRead a) got (fetchByte a)) := by
  simp [decTransact, DecUnit.read_eq h]

theorem decTransact_of_emit {u : DecUnit} {x : Byte} {st : SnkStatus} {q : Sink} (h : u.snk.write [x] = some (st, q))
    (sig : Signal) (inLoop : Bool) :
    decTransact u (.emit x sig inLoop) = some (u.afterWrite q x st, decEmitted sig inLoop (putByte st)) := by
  simp [decTransact, DecUnit.write_eq h]

/-- Two decoders in a relation that every transaction keeps, the second making the transactions of the first: where the
first stops, the second stands in the relation `Q` to it, if it does so at a return and from a wait on. -/
theorem decContinue_simulates {R Q : DecUnit → DecUnit → Prop}
    (hstep : ∀ u v t u' p, R u v → decTransact u t = some (u', p) → ∃ v', decTransact v t = some (v', p) ∧ R u' v')
    (hdone : ∀ u v r, R u v → Q (u.endCommand r) (v.endCommand r))
    (hwait : ∀ u v t, R u v → decTransact u t = none → Q (u.waitAt t) (decContinue v (.wait t)))
    {u v : DecUnit} (h : R u v) (p : DecProgress) : Q (decContinue u p) (decContinue v p) := by
  refine decContinue_rec (Q := fun u' r => ∃ v', R u' v' ∧ decContinue v' r = decContinue v p)
    (R := fun u' => Q u' (decContinue v p)) ?_ ?_ ?_ ⟨v, h, rfl⟩
  · rintro u₁ t u₂ r ⟨v₁, hR, hv⟩ ht
    obtain ⟨v₂, ht', hR'⟩ := hstep _ _ _ _ _ hR ht
    exact ⟨v₂, hR', by rw [← hv, decContinue_wait_some ht']⟩
  · rintro u₁ r ⟨v₁, hR, hv⟩
    exact hv ▸ hdone _ _ _ hR
  · rintro u₁ t ⟨v₁, hR, hv⟩ ht
    exact hv ▸ hwait _ _ _ hR ht

/-- `g` changes no register that a decode step looks at, and it and the register writes do not touch each other: a
change of a port or of the task. -/
structure DecUnit.LeavesRegisters (g : DecUnit → DecUnit) : Prop where
  esc : ∀ u, (g u).esc = u.esc
  malformed : ∀ u, (g u).malformed = u.malformed
  setPrev : ∀ u b, (g u).setPrev b = g (u.setPrev b)
  setEsc : ∀ u e, (g u).setEsc e = g (u.setEsc e)
  setMalformed : ∀ u m, (g u).setMalformed m = g (u.setMalformed m)

namespace DecUnit.LeavesRegisters

theorem setSrc (p : Source) : LeavesRegisters (DecUnit.setSrc · p) :=
  ⟨fun _ => rfl, fun _ => rfl, fun _ _ => rfl, fun _ _ => rfl, fun _ _ => rfl⟩

theorem setSnk (p : Sink) : LeavesRegisters (DecUnit.setSnk · p) :=
  ⟨fun _ => rfl, fun _ => rfl, fun _ _ => rfl, fun _ _ => rfl, fun _ _ => rfl⟩

theorem waitAt (t : DecTask) : LeavesRegisters (DecUnit.waitAt · t) :=
  ⟨fun _ => rfl, fun _ => rfl, fun _ _ => rfl, fun _ _ => rfl, fun _ _ => rfl⟩

variable {g : DecUnit → DecUnit}

theorem consume (hg : LeavesRegisters g) (u : DecUnit) (b : Byte) (inLoop : Bool) :
    decConsume (g u) b inLoop = (g (decConsume u b inLoop).1, (decConsume u b inLoop).2) := by
  unfold decConsume
  rw [decodeStep_eq, decodeStep_eq, hg.esc, hg.malformed, hg.setPrev, hg.setEsc, hg.setMalformed]
  cases stepData u.esc b <;> rfl

theorem scanned (hg : LeavesRegisters g) (u : DecUnit) (f : Fetch) :
    decScanned (g u) f = (g (decScanned u f).1, (decScanned u f).2) := by
  cases f with
  | byte b =>
    simp only [decScanned, hg.setPrev, hg.setEsc]
    split <;> rfl
  | eos => rfl
  | ioFail => rfl
  | again => rfl

theorem fetched (hg : LeavesRegisters g) (u : DecUnit) (got : Bool) (f : Fetch) :
    decFetched (g u) got f = (g (decFetched u got f).1, (decFetched u got f).2) := by
  cases f with
  | byte b => exact hg.consume u b true
  | eos => rfl
  | ioFail => rfl
  | again => rfl

end DecUnit.LeavesRegisters

/-- The task and what stands at `DEC.SRC` do not touch each other. -/
theorem DecUnit.setActiveSrc_waitAt (u : DecUnit) (t : DecTask) (q : Source) :
    (u.waitAt t).setActiveSrc q = (u.setActiveSrc q).waitAt t := by
  unfold DecUnit.setActiveSrc
  rw [DecUnit.waitAt_packetSrc]
  split <;> rfl

/-- The sink and what stands at `DEC.SRC` do not touch each other. -/
theorem DecUnit.setActiveSrc_setSnk (u : DecUnit) (p : Sink) (q : Source) :
    (u.setSnk p).setActiveSrc q = (u.setActiveSrc q).setSnk p := by
  unfold DecUnit.setActiveSrc
  rw [DecUnit.setSnk_packetSrc]
  split <;> rfl

/-- A command goes on the same whatever the decoder waited at before: every stop writes the task. -/
theorem decContinue_waitAt (u : DecUnit) (t : DecTask) (p : DecProgress) :
    decContinue (u.waitAt t) p = decContinue u p := by
  refine (decContinue_simulates (R := fun v v' => v.waitAt t = v') (Q := Eq) ?_ ?_ ?_ rfl p).symm
  · rintro v _ t' v' r rfl ht
    have hg := DecUnit.LeavesRegisters.waitAt t
    have hlog (a q) : ((v.waitAt t).setActiveSrc q).logRead a = ((v.setActiveSrc q).logRead a).waitAt t := by
      rw [DecUnit.setActiveSrc_waitAt]; rfl
    obtain ⟨a, q, rfl, hq, hc⟩ | ⟨got, a, q, rfl, hq, hc⟩ | ⟨x, sig, inLoop, st, q, rfl, hw, rfl, rfl⟩ :=
      decTransact_cases ht
    · exact ⟨_, by rw [decTransact_of_scan (u := v.waitAt t) hq, hlog, hg.scanned, ← hc], rfl⟩
    · exact ⟨_, by rw [decTransact_of_fetch (u := v.waitAt t) hq, hlog, hg.fetched, ← hc], rfl⟩
    · exact ⟨_, decTransact_of_emit (u := v.waitAt t) hw sig inLoop, rfl⟩
  · rintro v _ r rfl
    rfl
  · rintro v _ t' rfl ht
    rw [decContinue_wait_none (decTransact_waitAt_none ht t)]
    rfl

/-- A unit left waiting at `t` wakes as the command goes on. -/
theorem wakeDec_waitAt (u : DecUnit) (t : DecTask) : wakeDec (u.waitAt t) = decContinue u (.wait t) := by
  rw [wakeDec_waiting (u := u.waitAt t) rfl, decContinue_waitAt]

section
variable {u u' v : DecUnit} {x : Input}

/-- An answer that is ready stays so through a change that neither looks at the ports nor makes any. -/
theorem DecAnswered.map {f : DecUnit → DecUnit} (h : DecAnswered u x v) (hsrc : (f u).src = u.src)
    (hsnk : (f u).snk = u.snk) (hsetSrc : ∀ p, f (u.setSrc p) = (f u).setSrc p)
    (hsetSnk : ∀ p, f (u.setSnk p) = (f u).setSnk p) : DecAnswered (f u) x (f v) := by
  cases h with
  | source hp => rw [hsetSrc]; exact .source (hsrc ▸ hp)
  | sink hp => rw [hsetSnk]; exact .sink (hsnk ▸ hp)

theorem DecAnswered.endCommand (h : DecAnswered u x v) (r : Response) :
    DecAnswered (u.endCommand r) x (v.endCommand r) :=
  h.map (f := (DecUnit.endCommand · r)) rfl rfl (fun _ => rfl) (fun _ => rfl)

theorem DecAnswered.waitAt (h : DecAnswered u x v) (t : DecTask) : DecAnswered (u.waitAt t) x (v.waitAt t) :=
  h.map (f := (DecUnit.waitAt · t)) rfl rfl (fun _ => rfl) (fun _ => rfl)

theorem DecAnswered.construct (h : DecAnswered u x v) (b : Bool) : DecAnswered (u.construct b) x (v.construct b) :=
  h.map (f := (DecUnit.construct · b)) rfl rfl (fun _ => rfl) (fun _ => rfl)

theorem DecAnswered.setMalformed (h : DecAnswered u x v) (b : Bool) :
    DecAnswered (u.setMalformed b) x (v.setMalformed b) :=
  h.map (f := (DecUnit.setMalformed · b)) rfl rfl (fun _ => rfl) (fun _ => rfl)

theorem DecAnswered.attachPacket (h : DecAnswered u x v) (w : List Byte) :
    DecAnswered (u.attachPacket w) x (v.attachPacket w) :=
  h.map (f := (DecUnit.attachPacket · w)) rfl rfl (fun _ => rfl) (fun _ => rfl)

theorem DecAnswered.reqStart (h : DecAnswered u x v) : v.reqStart = u.reqStart := by cases h <;> rfl

theorem DecAnswered.malformed (h : DecAnswered u x v) : v.malformed = u.malformed := by cases h <;> rfl

theorem DecAnswered.task (h : DecAnswered u x v) : v.task = u.task := by cases h <;> rfl

/-- A byte consumed, with one answer more ready. -/
theorem DecAnswered.consumed (h : DecAnswered u x v) (b : Byte) (inLoop : Bool) :
    (decConsume v b inLoop).2 = (decConsume u b inLoop).2 ∧
      DecAnswered (decConsume u b inLoop).1 x (decConsume v b inLoop).1 := by
  cases h with
  | source hp => rw [(DecUnit.LeavesRegisters.setSrc _).consume]; exact ⟨rfl, .source (by simpa using hp)⟩
  | sink hp => rw [(DecUnit.LeavesRegisters.setSnk _).consume]; exact ⟨rfl, .sink (by simpa using hp)⟩

/-- A fetch of the scan, with one answer more ready. -/
theorem DecAnswered.scanned (h : DecAnswered u x v) (f : Fetch) :
    (decScanned v f).2 = (decScanned u f).2 ∧ DecAnswered (decScanned u f).1 x (decScanned v f).1 := by
  cases h with
  | source hp => rw [(DecUnit.LeavesRegisters.setSrc _).scanned]; exact ⟨rfl, .source (by simpa using hp)⟩
  | sink hp => rw [(DecUnit.LeavesRegisters.setSnk _).scanned]; exact ⟨rfl, .sink (by simpa using hp)⟩

/-- A fetch of the decode loop, with one answer more ready. -/
theorem DecAnswered.fetched (h : DecAnswered u x v) (got : Bool) (f : Fetch) :
    (decFetched v got f).2 = (decFetched u got f).2 ∧ DecAnswered (decFetched u got f).1 x (decFetched v got f).1 := by
  cases h with
  | source hp => rw [(DecUnit.LeavesRegisters.setSrc _).fetched]; exact ⟨rfl, .source (by simpa using hp)⟩
  | sink hp => rw [(DecUnit.LeavesRegisters.setSnk _).fetched]; exact ⟨rfl, .sink (by simpa using hp)⟩

/-- A read at `DEC.SRC` with one answer more ready at a port: the answer more is ready after it, whether the read was of
the host's source or of DEC_PACKET's own (R43, R62). -/
theorem DecAnswered.read {n : Nat} {a : SrcAnswer} {q : Source} (h : DecAnswered u x v)
    (hq : u.activeSrc.read n = some (a, q)) :
    ∃ q', v.activeSrc.read n = some (a, q') ∧
      DecAnswered ((u.setActiveSrc q).logRead a) x ((v.setActiveSrc q').logRead a) := by
  cases h with
  | sink hp =>
    refine ⟨q, hq, ?_⟩
    rw [DecUnit.setActiveSrc_setSnk]
    exact .sink (u := (u.setActiveSrc q).logRead a) (by simpa using hp)
  | @source b p hp =>
    cases hk : u.packetSrc with
    | none =>
      rw [DecUnit.activeSrc_eq_src hk] at hq
      obtain ⟨q', hq', hg⟩ := Source.read_give hp hq
      refine ⟨q', by rwa [DecUnit.activeSrc_eq_src (u := u.setSrc p) hk], ?_⟩
      have hset : ∀ (w : DecUnit) r, w.packetSrc = none → w.setActiveSrc r = w.setSrc r := fun w r hw => by
        simp [DecUnit.setActiveSrc, hw, DecUnit.setSrc]
      rw [hset _ _ hk, hset (u.setSrc p) _ hk]
      exact .source (u := (u.setSrc q).logRead a) hg
    | some m =>
      have hact : (u.setSrc p).activeSrc = u.activeSrc := by simp [DecUnit.activeSrc, hk]
      have hkeep := (DecUnit.setActiveSrc_of_packet hk hq).1
      have hset : (u.setSrc p).setActiveSrc q = (u.setActiveSrc q).setSrc p := by
        simp only [DecUnit.setActiveSrc, DecUnit.setSrc_packetSrc, hk]
        cases q <;> rfl
      refine ⟨q, hact ▸ hq, ?_⟩
      rw [hset]
      exact .source (u := (u.setActiveSrc q).logRead a) (by simpa [hkeep] using hp)

/-- The transaction is made with the answer that was ready before it; the one more is ready after it (R43). -/
theorem DecAnswered.transact {t : DecTask} {p : DecProgress} (h : DecAnswered u x v)
    (ht : decTransact u t = some (u', p)) : ∃ v', decTransact v t = some (v', p) ∧ DecAnswered u' x v' := by
  obtain ⟨a, q, rfl, hq, hc⟩ | ⟨got, a, q, rfl, hq, hc⟩ | ⟨y, sig, inLoop, st, q, rfl, hw, rfl, rfl⟩ :=
    decTransact_cases ht
  · obtain ⟨q', hq', hread⟩ := h.read hq
    obtain ⟨hp, hans⟩ := hread.scanned (fetchByte a)
    rw [← hc] at hp hans
    obtain rfl : _ = p := hp
    exact ⟨_, decTransact_of_scan hq', hans⟩
  · obtain ⟨q', hq', hread⟩ := h.read hq
    obtain ⟨hp, hans⟩ := hread.fetched got (fetchByte a)
    rw [← hc] at hp hans
    obtain rfl : _ = p := hp
    exact ⟨_, decTransact_of_fetch hq' got, hans⟩
  · cases h with
    | @source _ p hp =>
      exact ⟨_, decTransact_of_emit (u := u.setSrc p) hw sig inLoop, .source (u := u.afterWrite q y st) hp⟩
    | sink hp =>
      obtain ⟨q', hw', hg⟩ := Sink.write_give hp hw
      exact ⟨_, decTransact_of_emit (u := u.setSnk _) hw' sig inLoop, .sink (u := u.afterWrite q y st) hg⟩

/-- A command that goes on and is then answered ends where it ends when the answer is ready beforehand (R43). -/
theorem DecAnswered.continued (h : DecAnswered u x v) (p : DecProgress) :
    ∃ w, DecAnswered (decContinue u p) x w ∧ wakeDec w = decContinue v p := by
  refine decContinue_simulates (R := fun u v => DecAnswered u x v)
    (Q := fun u v => ∃ w, DecAnswered u x w ∧ wakeDec w = v) (fun _ _ _ _ _ hR ht => hR.transact ht) ?_ ?_ h p
  · exact fun u v r hR => ⟨_, hR.endCommand r, wakeDec_idle rfl⟩
  · exact fun u v t hR _ => ⟨_, hR.waitAt t, wakeDec_waitAt v t⟩

theorem DecAnswered.transferStart (h : DecAnswered u x v) : decTransferStart v = decTransferStart u := by
  simp [decTransferStart, h.reqStart]

theorem DecAnswered.malformedValue (h : DecAnswered u x v) : v.malformedValue = u.malformedValue := by
  simp [DecUnit.malformedValue, h.malformed]

/-- The same of every command of the decoder. -/
theorem DecCommand.answered {i : Instr} (hc : DecCommand u i u') (h : DecAnswered u x v) :
    ∃ w, DecAnswered u' x w ∧ DecCommand v i (wakeDec w) := by
  cases hc with
  | init b => exact ⟨_, (h.construct b).endCommand _, .init b⟩
  | byte b =>
    obtain ⟨hp, hans⟩ := h.consumed b false
    obtain ⟨w, hw, heq⟩ := hans.continued (decConsume u b false).2
    exact ⟨w, hw, heq ▸ hp ▸ .byte b⟩
  | transfer =>
    obtain ⟨w, hw, heq⟩ := h.continued (decTransferStart u)
    exact ⟨w, hw, heq ▸ h.transferStart ▸ .transfer⟩
  | packet bs =>
    obtain ⟨w, hw, heq⟩ := (h.attachPacket bs).continued (decTransferStart u)
    exact ⟨w, hw, heq ▸ h.transferStart ▸ .packet bs⟩
  | getMalformed => exact ⟨_, h.endCommand _, h.malformedValue ▸ .getMalformed⟩
  | clearMalformed => exact ⟨_, (h.setMalformed false).endCommand _, .clearMalformed⟩

end

/-! ## The machine -/

/-- Settles O17: an answer to the other unit and the command do not touch each other, and the command's own unit ends
where it ends with the answer ready beforehand. -/
theorem answerTimeIsIrrelevant : Obligations.AnswerTimeIsIrrelevant := by
  intro i s s₁ t x hx hdel hexec
  have hans : (∃ v, EncAnswered s.enc x v ∧ s₁ = s.setEnc (wakeEnc v)) ∨
      (∃ v, DecAnswered s.dec x v ∧ s₁ = s.setDec (wakeDec v)) := by
    obtain ⟨unit, a, rfl⟩ | ⟨unit, st, rfl⟩ := hx
    · exact answerSource_answered hdel
    · exact answerSink_answered hdel
  obtain ⟨-, hb, u, hu, rfl⟩ | ⟨-, hb, u, hu, rfl⟩ := exec_cases hexec <;>
    obtain ⟨v, hv, rfl⟩ | ⟨v, hv, rfl⟩ := hans
  case inl.inl =>
    obtain ⟨w, hw, hc⟩ := hu.answered hv
    have hidle : v.task = none := hv.task.trans (EncUnit.task_none hb)
    rw [wakeEnc_idle hidle]
    exact ⟨_, deliver_of_encAnswered hw, exec_of_encCommand (EncUnit.busy_of_task_none hidle) hc⟩
  case inl.inr =>
    exact ⟨_, deliver_of_decAnswered hv, exec_of_encCommand (s := s.setDec (wakeDec v)) hb hu⟩
  case inr.inl =>
    exact ⟨_, deliver_of_encAnswered hv, exec_of_decCommand (s := s.setEnc (wakeEnc v)) hb hu⟩
  case inr.inr =>
    obtain ⟨w, hw, hc⟩ := hu.answered hv
    have hidle : v.task = none := hv.task.trans (DecUnit.task_none hb)
    rw [wakeDec_idle hidle]
    exact ⟨_, deliver_of_decAnswered hw, exec_of_decCommand (DecUnit.busy_of_task_none hidle) hc⟩

end Sys2Proof.Machine

/-! SUPPORT. The command table (O3 to O7, R70 to R78). A command's word selects the command (`decodeWord_encodeWord`),
and a word that selects a command is the command's word (`encodeWord_of_decodeWord`), so decoding and encoding are
inverse to each other (`decode_eq_ok_iff`). The words that the rows of the table select are the words of commands
(`selected_iff`). -/

namespace Sys2Proof

/-! ## The word of a command -/

/-- The command with its packet operand P or W replaced, where it has one (R76). -/
def Instr.withOperand (operand : List Byte) : Instr → Instr
  | .encPacket s _ => .encPacket s operand
  | .decPacket _ => .decPacket operand
  | i => i

@[simp] theorem Instr.withOperand_operand (i : Instr) : i.withOperand i.operand = i := by cases i <;> rfl

/-- A command's word selects the command, whatever operand comes with the word (R75, R76). -/
@[simp] theorem decodeWord_encodeWord (i : Instr) (operand : List Byte) :
    decodeWord (encodeWord i) operand = some (i.withOperand operand) := by
  cases i <;> simp [decodeWord, encodeWord, Instr.withOperand]

/-- The reserved bits of a word that selects a command are 0 (R70). -/
theorem rsvField_of_decodeWord {w : Word} {operand : List Byte} {i : Instr} (h : decodeWord w operand = some i) :
    rsvField w = 0 := by
  by_contra hne
  rw [decodeWord, if_pos hne] at h
  cases h

/-- A word that selects a command is the command's word: `OP` is the row's, and `S` and `D` are 0 where the command
takes none (R75). -/
theorem encodeWord_of_decodeWord {w : Word} {operand : List Byte} {i : Instr} (h : decodeWord w operand = some i) :
    encodeWord i = w := by
  have hw := assemble_fields (rsvField_of_decodeWord h)
  generalize opField w = op, sField w = s, dField w = d at hw
  subst hw
  simp only [decodeWord, rsvField_assemble, opField_assemble, sField_assemble, dField_assemble, ne_eq,
    not_true_eq_false, if_false] at h
  split at h
  case h_11 => cases h
  all_goals
    rename_i hop
    obtain ⟨-, rfl⟩ := BitVec.toNat_eq_nat.mp hop
    obtain ⟨hfields, hi⟩ := Option.ite_none_right_eq_some.mp h
    obtain rfl := Option.some.inj hi
    simp_all [encodeWord]

/-- A word is reserved exactly when it is no command's word (R77). -/
theorem decodeWord_eq_none_iff {w : Word} {operand : List Byte} :
    decodeWord w operand = none ↔ ∀ i, encodeWord i ≠ w := by
  constructor
  · rintro h i rfl
    simp at h
  · intro h
    cases hd : decodeWord w operand with
    | none => rfl
    | some i => exact absurd (encodeWord_of_decodeWord hd) (h i)

/-! ## Offers -/

/-- The offer of a command decodes to it if its operand is within `PKT_MAX` (R76). -/
theorem decode_encodeWord (i : Instr) :
    decode (encodeWord i) i.operand = if i.wellFormed then .ok i else .error .operandTooLong := by
  simp [decode]

/-- The offers that decode to a command are the command's own, if it is well formed (R75, R76, R78). -/
theorem decode_eq_ok_iff {w : Word} {operand : List Byte} {i : Instr} :
    decode w operand = .ok i ↔ encode i = (w, operand) ∧ i.wellFormed = true := by
  constructor
  · intro h
    unfold decode at h
    split at h
    · cases h
    · rename_i j hj
      split at h
      · cases h
      · rename_i hop
        split at h
        · cases h
          exact ⟨Prod.ext (encodeWord_of_decodeWord hj) (not_not.mp hop), ‹_›⟩
        · cases h
  · rintro ⟨he, hwf⟩
    obtain ⟨rfl, rfl⟩ := Prod.mk.inj he
    rw [decode_encodeWord, if_pos hwf]

/-- An offer is reserved by its word alone (R77). -/
theorem decode_eq_reserved_iff {w : Word} {operand : List Byte} :
    decode w operand = .error .reserved ↔ decodeWord w operand = none := by
  cases h : decodeWord w operand with
  | none => simp [decode, h]
  | some i =>
    simp only [decode, h, reduceCtorEq, iff_false]
    split
    · simp
    · split <;> simp

/-- Settles O6: a command's offer is one of the offers that decode to it. -/
theorem decodeOfEncode : Obligations.DecodeOfEncode :=
  fun _ hwf => decode_eq_ok_iff.mpr ⟨rfl, hwf⟩

/-- Settles O7: the offers that decode to a command are no others. -/
theorem encodeOfDecode : Obligations.EncodeOfDecode :=
  fun _ _ _ h => decode_eq_ok_iff.mp h

/-- Settles O3: the listed words, each decoded. -/
theorem decodeOfListedWords : Obligations.DecodeOfListedWords := by
  unfold Obligations.DecodeOfListedWords
  decide

end Sys2Proof

namespace Sys2Proof.Machine

/-! ## The rows of the table -/

/-- The mask of a row that takes `S` clears `S` only (R72, R75). -/
theorem assemble_and_sMask (op : BitVec 4) (s : Bool) (d : Byte) :
    assemble op s d &&& 0xFEFF = assemble op false d := by
  change op ++ 0#3 ++ BitVec.ofBool s ++ d &&& BitVec.allOnes 4 ++ BitVec.allOnes 3 ++ 0#1 ++ BitVec.allOnes 8 = _
  simp only [BitVec.and_append, BitVec.and_allOnes, BitVec.and_zero]
  rfl

/-- The mask of a row that takes `D` clears `D` only (R73, R75). -/
theorem assemble_and_dMask (op : BitVec 4) (s : Bool) (d : Byte) :
    assemble op s d &&& 0xFF00 = assemble op s 0 := by
  change op ++ 0#3 ++ BitVec.ofBool s ++ d &&& BitVec.allOnes 4 ++ BitVec.allOnes 3 ++ BitVec.allOnes 1 ++ 0#8 = _
  simp only [BitVec.and_append, BitVec.and_allOnes, BitVec.and_zero]
  rfl

/-- The words of a row that takes `S` (R72, R75). -/
theorem and_sMask_iff {w : Word} {op : BitVec 4} :
    w &&& 0xFEFF = assemble op false 0 ↔ w = assemble op (sField w) 0 := by
  constructor
  · intro h
    obtain ⟨hop, hrsv, hd⟩ := fields_of_sRow h
    simp only [opField_assemble, rsvField_assemble, dField_assemble] at hop hrsv hd
    rw [← hop, ← hd, assemble_fields hrsv]
  · intro h
    rw [h, assemble_and_sMask]

/-- The words of a row that takes `D` (R73, R75). -/
theorem and_dMask_iff {w : Word} {op : BitVec 4} :
    w &&& 0xFF00 = assemble op false 0 ↔ w = assemble op false (dField w) := by
  constructor
  · intro h
    obtain ⟨hop, hrsv, hs⟩ := fields_of_dRow h
    simp only [opField_assemble, rsvField_assemble, sField_assemble] at hop hrsv hs
    rw [← hop, ← hs, assemble_fields hrsv]
  · intro h
    rw [h, assemble_and_dMask]

/-- The one word of a row that takes neither (R75). -/
theorem and_fullMask_iff {w v : Word} : w &&& 0xFFFF = v ↔ w = v := by
  rw [show w &&& 0xFFFF = w from BitVec.and_allOnes]

/-- The row of the table that stands for a command (R75). -/
def rowOf : Instr → Row
  | .encInit _ => ⟨0x1000, 0xFEFF⟩
  | .encByte _ => ⟨0x2000, 0xFF00⟩
  | .encPacket _ _ => ⟨0x3000, 0xFEFF⟩
  | .encTransfer => ⟨0x4000, 0xFFFF⟩
  | .decInit _ => ⟨0x8000, 0xFEFF⟩
  | .decByte _ => ⟨0x9000, 0xFF00⟩
  | .decTransfer => ⟨0xA000, 0xFFFF⟩
  | .decPacket _ => ⟨0xB000, 0xFFFF⟩
  | .decGetMalformed => ⟨0xC000, 0xFFFF⟩
  | .decClearMalformed => ⟨0xD000, 0xFFFF⟩

theorem rowOf_mem (i : Instr) : rowOf i ∈ rows := by cases i <;> simp [rowOf, rows]

theorem Row.selects_iff {r : Row} {w : Word} : r.selects w = true ↔ w &&& r.mask = r.value := by
  simp [Row.selects]

/-- A command's row selects its word (R75). -/
theorem rowOf_selects (i : Instr) : (rowOf i).selects (encodeWord i) = true := by
  rw [Row.selects_iff]
  cases i with
  | encInit s => exact assemble_and_sMask 0x1 s 0
  | encByte b => exact assemble_and_dMask 0x2 false b
  | encPacket s p => exact assemble_and_sMask 0x3 s 0
  | encTransfer => exact and_fullMask_iff.mpr rfl
  | decInit s => exact assemble_and_sMask 0x8 s 0
  | decByte b => exact assemble_and_dMask 0x9 false b
  | decTransfer => exact and_fullMask_iff.mpr rfl
  | decPacket w => exact and_fullMask_iff.mpr rfl
  | decGetMalformed => exact and_fullMask_iff.mpr rfl
  | decClearMalformed => exact and_fullMask_iff.mpr rfl

/-- The words that the rows of the table select are the words of commands (R75). -/
theorem selected_iff {w : Word} : (∃ r ∈ rows, r.selects w = true) ↔ ∃ i, encodeWord i = w := by
  constructor
  · rintro ⟨r, hr, hw⟩
    rw [Row.selects_iff] at hw
    simp only [rows, List.mem_cons, List.not_mem_nil, or_false] at hr
    obtain rfl | rfl | rfl | rfl | rfl | rfl | rfl | rfl | rfl | rfl := hr
    · exact ⟨.encInit _, (and_sMask_iff.mp hw).symm⟩
    · exact ⟨.encByte _, (and_dMask_iff.mp hw).symm⟩
    · exact ⟨.encPacket _ [], (and_sMask_iff.mp hw).symm⟩
    · exact ⟨.encTransfer, (and_fullMask_iff.mp hw).symm⟩
    · exact ⟨.decInit _, (and_sMask_iff.mp hw).symm⟩
    · exact ⟨.decByte _, (and_dMask_iff.mp hw).symm⟩
    · exact ⟨.decTransfer, (and_fullMask_iff.mp hw).symm⟩
    · exact ⟨.decPacket [], (and_fullMask_iff.mp hw).symm⟩
    · exact ⟨.decGetMalformed, (and_fullMask_iff.mp hw).symm⟩
    · exact ⟨.decClearMalformed, (and_fullMask_iff.mp hw).symm⟩
  · rintro ⟨i, rfl⟩
    exact ⟨rowOf i, rowOf_mem i, rowOf_selects i⟩

/-- A word is reserved exactly when no row selects it (R77). -/
theorem decode_eq_reserved_iff_unselected {w : Word} {operand : List Byte} :
    decode w operand = .error .reserved ↔ ∀ r ∈ rows, r.selects w = false := by
  rw [decode_eq_reserved_iff, decodeWord_eq_none_iff]
  simpa using (not_congr selected_iff).symm

/-- A row selects words with its own `OP` only: every mask covers that field (R71, R75). -/
theorem opField_of_selects {r : Row} (hr : r ∈ rows) {w : Word} (h : r.selects w = true) :
    opField w = opField r.value := by
  have hmask : ∀ r ∈ rows, opField r.mask = 0xF := by decide
  rw [← Row.selects_iff.mp h, opField_and (hmask r hr)]

/-- Settles O4: the unselected words are those that are no command's, and two rows that select one word have its `OP`
in common, which tells the rows apart. -/
theorem reservedWordsAreTheUnselected : Obligations.ReservedWordsAreTheUnselected := by
  refine ⟨fun w operand => decode_eq_reserved_iff_unselected, fun w r hr r' hr' h h' => ?_,
    fun s w operand rest hi hun => ?_⟩
  · have hop : ∀ r ∈ rows, ∀ r' ∈ rows, opField r.value = opField r'.value → r = r' := by decide
    exact hop r hr r' hr' ((opField_of_selects hr h).symm.trans (opField_of_selects hr' h'))
  · rw [step_eq_deliver hi]
    exact offer_of_decode_error (decode_eq_reserved_iff_unselected.mpr hun) _

/-- The offer of a well-formed command, known by its word. -/
theorem decode_of_word {w : Word} {i : Instr} (hw : w = encodeWord i) (hwf : i.wellFormed = true) :
    decode w i.operand = .ok i :=
  decode_eq_ok_iff.mpr ⟨Prod.ext hw.symm rfl, hwf⟩

/-- The offer of a packet command, known by its word: its operand P or W has a length within `PKT_MAX` or a longer
one (R76). -/
theorem decode_of_packet_word {w : Word} {i : Instr} {p : List Byte} (hw : w = encodeWord i) (hp : i.operand = p)
    (hwf : i.wellFormed = fits p Config.pktMax) :
    (p.length ≤ Config.pktMax → decode w p = .ok i) ∧
      (Config.pktMax < p.length → decode w p = .error .operandTooLong) := by
  subst hw hp
  rw [decode_encodeWord, hwf, ← not_le, ← fits_iff]
  exact ⟨fun h => if_pos h, fun h => if_neg h⟩

/-- Settles O5: the row, its mask and its match say which command's word a selected word is. -/
theorem tableRowsDecode : Obligations.TableRowsDecode := fun _ =>
  ⟨fun h => decode_of_word (i := .encInit _) (and_sMask_iff.mp h) rfl,
    fun h => decode_of_word (i := .encByte _) (and_dMask_iff.mp h) rfl,
    fun h p => decode_of_packet_word (i := .encPacket _ p) (and_sMask_iff.mp h) rfl rfl,
    fun h => decode_of_word (i := .encTransfer) (and_fullMask_iff.mp h) rfl,
    fun h => decode_of_word (i := .decInit _) (and_sMask_iff.mp h) rfl,
    fun h => decode_of_word (i := .decByte _) (and_dMask_iff.mp h) rfl,
    fun h => decode_of_word (i := .decTransfer) (and_fullMask_iff.mp h) rfl,
    fun h p => decode_of_packet_word (i := .decPacket p) (and_fullMask_iff.mp h) rfl rfl,
    fun h => decode_of_word (i := .decGetMalformed) (and_fullMask_iff.mp h) rfl,
    fun h => decode_of_word (i := .decClearMalformed) (and_fullMask_iff.mp h) rfl⟩

/-- Bit 15 of a command's word is the unit's (R71). -/
theorem encodeWord_bit15 (i : Instr) : (encodeWord i).getLsbD 15 = (unitOf i == .decoder) := by
  cases i with
  | encInit s => exact Laws.UnitBit.encInit s
  | encByte b => exact Laws.UnitBit.encByte b
  | encPacket s p => exact Laws.UnitBit.encPacket s p
  | encTransfer => exact Laws.UnitBit.encTransfer
  | decInit s => exact Laws.UnitBit.decInit s
  | decByte b => exact Laws.UnitBit.decByte b
  | decTransfer => exact Laws.UnitBit.decTransfer
  | decPacket w => exact Laws.UnitBit.decPacket w
  | decGetMalformed => exact Laws.UnitBit.decGetMalformed
  | decClearMalformed => exact Laws.UnitBit.decClearMalformed

/-- Settles O8: bit 15 of the word is the unit of its command, and a command replaces its own unit alone. -/
theorem unitSelectedByBit15 : Obligations.UnitSelectedByBit15 := by
  intro w operand i s t hd h
  obtain ⟨he, -⟩ := decode_eq_ok_iff.mp hd
  obtain ⟨rfl, -⟩ := Prod.mk.inj he
  rw [encodeWord_bit15]
  obtain ⟨hi, -, u, -, rfl⟩ | ⟨hi, -, u, -, rfl⟩ := exec_cases h
  · exact ⟨fun _ => rfl, fun hb => by simp [hi] at hb⟩
  · exact ⟨fun hb => by simp [hi] at hb, fun _ => rfl⟩

end Sys2Proof.Machine

/-! SUPPORT. The response word (O51) and the responses each command can return (O49, R79, R80): a command of the
encoder returns an encoder's outcome, and one of the decoder an outcome of its family (`DecInLoop`). -/

namespace Sys2Proof.Machine

/-- Settles O51: the word is `CODE` and `VALUE` one after the other. -/
theorem responseWordLayout : Obligations.ResponseWordLayout :=
  ⟨fun _ => ⟨BitVec.extractLsb'_append_eq_left, BitVec.extractLsb'_append_eq_right⟩, rfl, rfl, rfl, rfl, rfl, rfl⟩

/-- Whatever an encoder command returns is an encoder's outcome (R80). -/
theorem encContinue_response {u : EncUnit} {p : EncProgress} {r : Response}
    (h : (encContinue u p).responses = u.responses ++ [r]) : ∃ o : EncOutcome, r = o.response := by
  refine encContinue_rec (Q := fun v _ => v.responses = u.responses)
    (R := fun v => v.responses = u.responses ++ [r] → ∃ o : EncOutcome, r = o.response)
    (fun v t v' q hv ht => (encTransact_responses ht).trans hv) ?_ ?_ rfl h
  · intro v o hv hr
    exact ⟨o, by simpa [hv] using hr.symm⟩
  · intro v t hv _ hr
    simp [hv] at hr

/-- The command under way is DEC_BYTE, or, `inLoop`, one with DEC_TRANSFER's body: only the former returns a result of
DEC_BYTE, and only the latter reads (R131, R132). -/
def DecInLoop (inLoop : Bool) : DecProgress → Prop
  | .done (.byte _) => inLoop = false
  | .done (.transfer _) => inLoop = true
  | .wait (.emit _ _ l) => l = inLoop
  | .wait .scan => inLoop = true
  | .wait (.fetch _) => inLoop = true

theorem decGoOn_inLoop (sig : Signal) (inLoop : Bool) : DecInLoop inLoop (decGoOn sig inLoop) := by
  cases inLoop <;> cases sig <;> rfl

theorem decConsume_inLoop (u : DecUnit) (b : Byte) (inLoop : Bool) : DecInLoop inLoop (decConsume u b inLoop).2 := by
  obtain ⟨-, ⟨x, -, h⟩ | ⟨-, h⟩⟩ := decConsume_cases u b inLoop
  · rw [h]; rfl
  · rw [h]; exact decGoOn_inLoop _ inLoop

theorem decEmitted_inLoop (sig : Signal) (inLoop : Bool) (r : Put) : DecInLoop inLoop (decEmitted sig inLoop r) := by
  cases r with
  | done => exact decGoOn_inLoop sig inLoop
  | ioFail => cases inLoop <;> rfl

theorem decScanned_inLoop (u : DecUnit) (f : Fetch) : DecInLoop true (decScanned u f).2 := by
  cases f with
  | byte b => simp only [decScanned]; split <;> rfl
  | eos => rfl
  | ioFail => rfl
  | again => rfl

theorem decFetched_inLoop (u : DecUnit) (got : Bool) (f : Fetch) : DecInLoop true (decFetched u got f).2 := by
  cases f with
  | byte b => exact decConsume_inLoop u b true
  | eos => rfl
  | ioFail => rfl
  | again => rfl

/-- A transaction goes on within its command's family. -/
theorem decTransact_inLoop {u u' : DecUnit} {t : DecTask} {p : DecProgress} {inLoop : Bool}
    (h : DecInLoop inLoop (.wait t)) (ht : decTransact u t = some (u', p)) : DecInLoop inLoop p := by
  obtain ⟨a, q, rfl, -, hc⟩ | ⟨got, a, q, rfl, -, hc⟩ | ⟨x, sig, l, st, q, rfl, -, -, rfl⟩ := decTransact_cases ht
  · obtain rfl : inLoop = true := h
    rw [show p = _ from congrArg Prod.snd hc]
    exact decScanned_inLoop _ _
  · obtain rfl : inLoop = true := h
    rw [show p = _ from congrArg Prod.snd hc]
    exact decFetched_inLoop _ _ _
  · obtain rfl : l = inLoop := h
    exact decEmitted_inLoop sig l _

/-- Whatever a decoder command returns is an outcome of its family (R80). -/
theorem decContinue_response {u : DecUnit} {p : DecProgress} {r : Response} {inLoop : Bool} (hp : DecInLoop inLoop p)
    (h : (decContinue u p).responses = u.responses ++ [r]) :
    ∃ o : DecOutcome, r = o.response ∧ DecInLoop inLoop (.done o) := by
  refine decContinue_rec (Q := fun v q => v.responses = u.responses ∧ DecInLoop inLoop q)
    (R := fun v => v.responses = u.responses ++ [r] → ∃ o : DecOutcome, r = o.response ∧ DecInLoop inLoop (.done o))
    (fun v t v' q hv ht => ⟨(decTransact_responses ht).trans hv.1, decTransact_inLoop hv.2 ht⟩) ?_ ?_ ⟨rfl, hp⟩ h
  · rintro v o ⟨hv, ho⟩ hr
    exact ⟨o, by simpa [hv] using hr.symm, ho⟩
  · rintro v t ⟨hv, -⟩ - hr
    simp [hv] at hr

/-- The responses that R80 lists for a command. -/
def permitted : Instr → List Response
  | .encInit _ => [⟨.ok, 0⟩]
  | .encByte _ => [⟨.ok, 0⟩, ⟨.ioError, 0⟩]
  | .encPacket _ _ => [⟨.ok, 0⟩, ⟨.ioError, 0⟩]
  | .encTransfer => [⟨.ok, 0⟩, ⟨.ioError, 0⟩]
  | .decInit _ => [⟨.ok, 0⟩]
  | .decByte _ => [⟨.more, 0⟩, ⟨.endOfPacket, 0⟩, ⟨.ioError, 0⟩]
  | .decTransfer => [⟨.endOfPacket, 0⟩, ⟨.incompletePacket, 0⟩, ⟨.startByteNotFound, 0⟩, ⟨.ioError, 0⟩]
  | .decPacket _ => [⟨.endOfPacket, 0⟩, ⟨.incompletePacket, 0⟩, ⟨.startByteNotFound, 0⟩, ⟨.ioError, 0⟩]
  | .decGetMalformed => [⟨.ok, 0⟩, ⟨.ok, 1⟩]
  | .decClearMalformed => [⟨.ok, 0⟩]

theorem EncOutcome.response_mem (o : EncOutcome) : o.response ∈ [(⟨.ok, 0⟩ : Response), ⟨.ioError, 0⟩] := by
  cases o <;> decide

theorem DecOutcome.response_mem_byte {o : DecOutcome} (h : DecInLoop false (.done o)) :
    o.response ∈ [(⟨.more, 0⟩ : Response), ⟨.endOfPacket, 0⟩, ⟨.ioError, 0⟩] := by
  cases o with
  | byte r => cases r <;> decide
  | transfer r => cases h

theorem DecOutcome.response_mem_transfer {o : DecOutcome} (h : DecInLoop true (.done o)) :
    o.response ∈ [(⟨.endOfPacket, 0⟩ : Response), ⟨.incompletePacket, 0⟩, ⟨.startByteNotFound, 0⟩, ⟨.ioError, 0⟩] := by
  cases o with
  | byte r => cases h
  | transfer r => cases r <;> decide

theorem DecUnit.malformedValue_cases (u : DecUnit) : u.malformedValue = 0 ∨ u.malformedValue = 1 := by
  unfold DecUnit.malformedValue
  cases u.malformed
  · exact .inl rfl
  · exact .inr rfl

theorem decTransferStart_inLoop (u : DecUnit) : DecInLoop true (decTransferStart u) := by
  unfold decTransferStart
  split <;> rfl

/-- An encoder command that returns at once gives a response that R80 lists for it. -/
theorem EncCommand.response_mem {u u' : EncUnit} {i : Instr} {r : Response} (h : EncCommand u i u')
    (hr : u'.responses = u.responses ++ [r]) : r ∈ permitted i := by
  cases h with
  | init v => simpa [permitted, Response.plain] using hr.symm
  | byte b => obtain ⟨o, rfl⟩ := encContinue_response hr; exact o.response_mem
  | packet v p => obtain ⟨o, rfl⟩ := encContinue_response hr; exact o.response_mem
  | transfer => obtain ⟨o, rfl⟩ := encContinue_response hr; exact o.response_mem

/-- A decoder command that returns at once gives a response that R80 lists for it. -/
theorem DecCommand.response_mem {u u' : DecUnit} {i : Instr} {r : Response} (h : DecCommand u i u')
    (hr : u'.responses = u.responses ++ [r]) : r ∈ permitted i := by
  cases h with
  | init v => simpa [permitted, Response.plain] using hr.symm
  | byte b =>
    rw [← decConsume_responses u b false] at hr
    obtain ⟨o, rfl, ho⟩ := decContinue_response (decConsume_inLoop u b false) hr
    exact DecOutcome.response_mem_byte ho
  | transfer =>
    obtain ⟨o, rfl, ho⟩ := decContinue_response (decTransferStart_inLoop u) hr
    exact DecOutcome.response_mem_transfer ho
  | packet w =>
    obtain ⟨o, rfl, ho⟩ := decContinue_response (u := u.attachPacket w) (decTransferStart_inLoop u) hr
    exact DecOutcome.response_mem_transfer ho
  | getMalformed =>
    obtain rfl : _ = r := by simpa using hr
    obtain hv | hv := u.malformedValue_cases <;> simp [permitted, hv]
  | clearMalformed => simpa [permitted, Response.plain] using hr.symm

/-- The encoder's commands return OK or IO_ERROR (R80). -/
theorem permitted_encoder {i : Instr} (h : unitOf i = .encoder) {r : Response} (hr : r ∈ permitted i) :
    r = ⟨.ok, 0⟩ ∨ r = ⟨.ioError, 0⟩ := by
  cases i <;> simp_all [permitted, unitOf]

/-- Settles O49: the unit that responds is the command's own, with a response of R80's list. -/
theorem permittedResponses : Obligations.PermittedResponses := by
  intro i s t h
  obtain ⟨hi, -, u, hu, rfl⟩ | ⟨hi, -, u, hu, rfl⟩ := exec_cases h
  · refine ⟨fun r hr => ?_, fun r hr => by simp at hr⟩
    have hmem := hu.response_mem hr
    refine ⟨?_, fun _ => permitted_encoder hi hmem⟩
    rintro ⟨v, rfl⟩
    simpa [permitted] using hmem
  · refine ⟨fun r hr => by simp at hr, fun r hr => ?_⟩
    have hmem := hu.response_mem hr
    refine ⟨?_, ?_, ?_, ?_⟩
    · rintro (⟨v, rfl⟩ | rfl) <;> simpa [permitted] using hmem
    · rintro rfl
      simpa [permitted] using hmem
    · rintro ⟨b, rfl⟩
      simpa [permitted] using hmem
    · rintro (rfl | ⟨w, rfl⟩) <;> simpa [permitted] using hmem

end Sys2Proof.Machine

/-! SUPPORT. The wire format: the stuffing of every byte (O19), where `END` and `ESC` stand in a frame (O24), and the
length of a frame. -/

namespace Sys2Proof.Machine

/-- A byte that is neither marker is carried by itself (R100). -/
theorem stuff_of_ne {b : Byte} (hend : b ≠ END) (hesc : b ≠ ESC) : stuff b = [b] := by
  rw [stuff, if_neg hend, if_neg hesc]

/-- Settles O19: the two markers are stuffed as pairs, every other byte as itself. -/
theorem stuffingOfEveryByte : Obligations.StuffingOfEveryByte :=
  ⟨rfl, rfl, fun _ hend hesc => stuff_of_ne hend hesc⟩

/-! ## `END` and `ESC` in a frame -/

/-- `STUFF` never yields `END` (R108). -/
theorem END_notMem_stuff (b : Byte) : END ∉ stuff b := by
  obtain ⟨-, hs⟩ | ⟨-, hs⟩ | ⟨hend, -, hs⟩ := stuff_cases b
  · rw [hs]; decide
  · rw [hs]; decide
  · rw [hs, List.mem_singleton]; exact hend.symm

theorem END_notMem_flatMap_stuff (p : List Byte) : END ∉ p.flatMap stuff := by
  simp [END_notMem_stuff]

/-- An `END` in a frame is the leading one, under the start-byte policy, or the terminating one (R108). -/
theorem frame_END_index {p : List Byte} {v : Bool} {j : Nat} (h : (frame p v)[j]? = some END) :
    (j = 0 ∧ v = true) ∨ j + 1 = (frame p v).length := by
  by_cases hlast : j < (leadingEnd v ++ p.flatMap stuff).length
  · left
    rw [frame, List.getElem?_append_left hlast] at h
    cases v with
    | false => exact absurd (List.mem_of_getElem? h) (END_notMem_flatMap_stuff p)
    | true =>
      cases j with
      | zero => exact ⟨rfl, rfl⟩
      | succ j => exact absurd (List.mem_of_getElem? (i := j) h) (END_notMem_flatMap_stuff p)
  · right
    obtain ⟨hj, -⟩ := List.getElem?_eq_some_iff.mp h
    simp only [frame, List.length_append, List.length_singleton] at hj hlast ⊢
    omega

/-- Every `ESC` in `bs` is followed by the second byte of a pair (R108). -/
def EscapesComplete (bs : List Byte) : Prop :=
  ∀ j : Nat, bs[j]? = some ESC → bs[j + 1]? = some ESC_END ∨ bs[j + 1]? = some ESC_ESC

theorem EscapesComplete.of_notMem {bs : List Byte} (h : ESC ∉ bs) : EscapesComplete bs :=
  fun _ hj => absurd (List.mem_of_getElem? hj) h

/-- The second byte of a pair stands in the same part of the bytes as its `ESC`. -/
theorem EscapesComplete.append {bs cs : List Byte} (hb : EscapesComplete bs) (hc : EscapesComplete cs) :
    EscapesComplete (bs ++ cs) := by
  intro j hj
  by_cases hlt : j < bs.length
  · rw [List.getElem?_append_left hlt] at hj
    have hnext : bs[j + 1]? ≠ none := by obtain h | h := hb j hj <;> simp [h]
    rw [List.getElem?_append_left (by simpa using hnext)]
    exact hb j hj
  · rw [List.getElem?_append_right (by omega)] at hj
    rw [List.getElem?_append_right (by omega), show j + 1 - bs.length = j - bs.length + 1 by omega]
    exact hc _ hj

/-- `STUFF` yields `ESC` only as the first byte of a pair (R108). -/
theorem escapesComplete_stuff (b : Byte) : EscapesComplete (stuff b) := by
  obtain ⟨-, hs⟩ | ⟨-, hs⟩ | ⟨-, hesc, hs⟩ := stuff_cases b
  · rw [hs]
    rintro (_ | j) hj
    · exact .inl rfl
    · exact absurd (List.mem_of_getElem? (l := [ESC_END]) hj) (by decide)
  · rw [hs]
    rintro (_ | j) hj
    · exact .inr rfl
    · exact absurd (List.mem_of_getElem? (l := [ESC_ESC]) hj) (by decide)
  · rw [hs]
    exact .of_notMem (by simpa using hesc.symm)

theorem escapesComplete_flatMap_stuff (p : List Byte) : EscapesComplete (p.flatMap stuff) := by
  induction p with
  | nil => exact .of_notMem (by simp)
  | cons b p ih => exact (escapesComplete_stuff b).append ih

theorem escapesComplete_frame (p : List Byte) (v : Bool) : EscapesComplete (frame p v) := by
  have hlead : EscapesComplete (leadingEnd v) := .of_notMem (by cases v <;> decide)
  exact (hlead.append (escapesComplete_flatMap_stuff p)).append (.of_notMem (by decide))

/-- Settles O24: `STUFF` yields no `END`, and `ESC` only as the first byte of a pair. -/
theorem frameDelimitersAndEscapes : Obligations.FrameDelimitersAndEscapes :=
  fun p v j => ⟨frame_END_index, escapesComplete_frame p v j⟩

/-! ## The length of a frame -/

/-- A marker takes two wire bytes, every other byte takes one (R100). -/
theorem stuff_length_eq (b : Byte) : (stuff b).length = 1 + if b == END || b == ESC then 1 else 0 := by
  obtain ⟨rfl, -⟩ | ⟨rfl, -⟩ | ⟨hend, hesc, hs⟩ := stuff_cases b
  · rfl
  · rfl
  · simp [hs, hend, hesc]

theorem flatMap_stuff_length (p : List Byte) :
    (p.flatMap stuff).length = p.length + p.countP (fun b => b == END || b == ESC) := by
  induction p with
  | nil => rfl
  | cons b p ih =>
    rw [List.flatMap_cons, List.length_append, ih, stuff_length_eq, List.length_cons, List.countP_cons]
    omega

/-- The length of a frame (R110). -/
theorem frame_length (p : List Byte) (v : Bool) :
    (frame p v).length = (if v then 1 else 0) + p.length + p.countP (fun b => b == END || b == ESC) + 1 := by
  have hlead : (leadingEnd v).length = if v then 1 else 0 := by cases v <;> rfl
  simp only [frame, List.length_append, List.length_singleton, flatMap_stuff_length, hlead]
  omega

end Sys2Proof.Machine

/-! SUPPORT. ENC_INIT (O18), and the commands that write a fixed sequence of bytes, ENC_BYTE and ENC_PACKET (O20,
O21): on an idle encoder such a command writes it all, fails at one of its bytes or waits at one
(`WritesOnly.exec_cases`), which is what O25 and O27 turn on. -/

namespace Sys2Proof.Machine

/-- The end of a command on a unit that was idle is its response alone. -/
theorem EncUnit.endCommand_of_idle {u : EncUnit} (h : u.task = none) (r : Response) : u.endCommand r = u.respond r := by
  cases u; cases h; rfl

/-- Settles O18: the row selects ENC_INIT's words, and the command writes the policy and responds. -/
theorem encInitSetsUseStart : Obligations.EncInitSetsUseStart := by
  refine ⟨fun w => (tableRowsDecode w).1, fun v s ht => ?_⟩
  rw [exec_of_encCommand (EncUnit.busy_of_task_none ht) (.init v), EncUnit.endCommand_of_idle (by simpa using ht)]
  rfl

/-- `i` is an encoder command that reads no source, and `full` is what it writes to a sink that accepts every byte
(R103, R104). -/
def WritesOnly (i : Instr) (full : List Byte) : Prop :=
  (∃ b, i = .encByte b ∧ full = stuff b) ∨ (∃ v p, i = .encPacket v p ∧ full = frame p v)

section
variable {i : Instr} {full : List Byte} {s t : State}

/-- Such a command starts with its bytes to write and no fetch to come. -/
theorem WritesOnly.exec_eq (h : WritesOnly i full) (ht : s.enc.task = none) :
    ∃ out k, k ≠ .fetch ∧ encRest out k = full ∧ exec i s = .next (s.setEnc (encContinue s.enc (encGoOn out k))) := by
  have hb := EncUnit.busy_of_task_none ht
  obtain ⟨b, rfl, rfl⟩ | ⟨v, p, rfl, rfl⟩ := h
  · exact ⟨stuff b, .finish, by simp, rfl, exec_of_encCommand hb (.byte b)⟩
  · exact ⟨leadingEnd v, .payload p 0, by simp, encRest_packet v p, exec_of_encCommand hb (.packet v p)⟩

/-- On a sink that accepts every byte the command writes them all and answers OK (R103, R104). -/
theorem WritesOnly.exec_accepts (h : WritesOnly i full) (ht : s.enc.task = none) {q : Sink}
    (hq : s.enc.snk.accepts full = some q) : exec i s = .next (s.setEnc (s.enc.returned q (wrote full) .ok)) := by
  obtain ⟨out, k, hk, rfl, he⟩ := h.exec_eq ht
  rw [he, encContinue_accepts hk hq, EncUnit.hasWritten_endCommand ht]

/-- On a sink that fails at a byte the command answers IO_ERROR with the bytes before it written (R103, R104). -/
theorem WritesOnly.exec_fails (h : WritesOnly i full) (ht : s.enc.task = none) {pre rest : List Byte} {x : Byte}
    {st : SnkStatus} {q : Sink} (hf : full = pre ++ x :: rest) (hq : s.enc.snk.FailsAt pre x st q) :
    exec i s = .next (s.setEnc (s.enc.returned q (wroteThenFailed pre x st) .ioError)) := by
  obtain ⟨out, k, hk, rfl, he⟩ := h.exec_eq ht
  rw [he, encContinue_fails hk hf hq, EncUnit.hasWritten_endCommand ht]

/-- Where a write is unanswered the command waits at it, with no response (R43). -/
theorem WritesOnly.exec_stuck (h : WritesOnly i full) (ht : s.enc.task = none) {pre rest : List Byte} {x : Byte}
    {q : Sink} (hf : full = pre ++ x :: rest) (hq : s.enc.snk.accepts pre = some q) (hx : q.write [x] = none) :
    ∃ task, exec i s = .next (s.setEnc (s.enc.waiting q (wrote pre) task)) := by
  obtain ⟨out, k, hk, rfl, he⟩ := h.exec_eq ht
  obtain ⟨out', k', hw⟩ := encContinue_stuck hk hf hq hx
  exact ⟨.write x out' k', by rw [he, hw, EncUnit.hasWritten_waitAt]⟩

/-- All a command that writes `full` can do: it writes all of it and answers OK, fails at one of its bytes and answers
IO_ERROR, or waits at one of them and has not answered. -/
theorem WritesOnly.exec_cases (h : WritesOnly i full) (he : exec i s = .next t) :
    (∃ q, t.enc = s.enc.returned q (wrote full) .ok) ∨
    (∃ pre x rest st q, full = pre ++ x :: rest ∧ st ≠ .ok ∧
      t.enc = s.enc.returned q (wroteThenFailed pre x st) .ioError) ∨
    t.enc.responses = s.enc.responses := by
  have hi : unitOf i = .encoder := by obtain ⟨b, rfl, -⟩ | ⟨v, p, rfl, -⟩ := h <;> rfl
  have ht := EncUnit.task_none (exec_encoder_cases hi he).1
  obtain ⟨q, hq⟩ | ⟨pre, x, rest, st, q, hf, hq⟩ | ⟨pre, x, rest, q, hf, hq, hx⟩ :=
    Sink.accepts_trichotomy s.enc.snk full
  · obtain rfl := Host.Outcome.next.inj (he.symm.trans (h.exec_accepts ht hq))
    exact .inl ⟨q, rfl⟩
  · obtain rfl := Host.Outcome.next.inj (he.symm.trans (h.exec_fails ht hf hq))
    obtain ⟨-, -, -, hst⟩ := hq
    exact .inr (.inl ⟨pre, x, rest, st, q, hf, hst, rfl⟩)
  · obtain ⟨task, hw⟩ := h.exec_stuck ht hf hq hx
    obtain rfl := Host.Outcome.next.inj (he.symm.trans hw)
    exact .inr (.inr rfl)

end

/-- Settles O20: the command writes the stuffing of its byte. -/
theorem encByteWritesStuffing : Obligations.EncByteWritesStuffing := by
  refine ⟨fun w => (tableRowsDecode w).2.1, fun b s ht => ?_⟩
  have hw : WritesOnly (.encByte b) (stuff b) := .inl ⟨b, rfl, rfl⟩
  exact ⟨fun _ => hw.exec_accepts ht, fun _ _ _ _ _ => hw.exec_fails ht⟩

/-- Settles O21: the command writes the frame of its payload under its own policy. -/
theorem encPacketWritesFrame : Obligations.EncPacketWritesFrame := by
  refine ⟨fun w p hw => ((tableRowsDecode w).2.2.1 hw p).1, fun v p s ht => ?_⟩
  have hw : WritesOnly (.encPacket v p) (frame p v) := .inr ⟨v, p, rfl, rfl⟩
  exact ⟨fun _ => hw.exec_accepts ht, fun _ _ _ _ _ => hw.exec_fails ht⟩

/-- Settles O25: the only way to OK is a write of every byte of the frame. -/
theorem frameLength : Obligations.FrameLength := by
  refine fun p v => ⟨frame_length p v, fun s t he hok => ?_⟩
  have hw : WritesOnly (.encPacket v p) (frame p v) := .inr ⟨v, p, rfl, rfl⟩
  obtain ⟨q, h⟩ | ⟨pre, x, rest, st, q, -, -, h⟩ | h := hw.exec_cases he
  · exact ⟨wrote (frame p v), by rw [h]; rfl, by simp [wrote]⟩
  · simp [h, EncUnit.returned, Response.plain] at hok
  · simp [h] at hok

/-- Settles O27: the only way to IO_ERROR is a failure at one byte, those before it written. -/
theorem ioErrorLeavesProperPrefix : Obligations.IoErrorLeavesProperPrefix := by
  intro i full s t hw he hio
  obtain ⟨q, h⟩ | ⟨pre, x, rest, st, q, hf, hst, h⟩ | h := WritesOnly.exec_cases hw he
  · simp [h, EncUnit.returned, Response.plain] at hio
  · exact ⟨pre, x, rest, st, hf, hst, by simp [h, EncUnit.returned, wroteThenFailed]⟩
  · simp [h] at hio

end Sys2Proof.Machine

/-! SUPPORT. ENC_TRANSFER over a source that yields a payload and then its end or a failure (O22, O23): after the read
that ends the run of accepted bytes, what was fetched says how the command goes on
(`encContinue_transfer_answered`). -/

namespace Sys2Proof.Machine

/-- A failure after accepted bytes is one at the sink as those bytes leave it. -/
theorem Sink.FailsAt.of_append {p : Sink} {pre pre' : List Byte} {x : Byte} {st : SnkStatus} {q : Sink}
    (h : p.FailsAt (pre ++ pre') x st q) : ∃ r, p.accepts pre = some r ∧ r.FailsAt pre' x st q := by
  obtain ⟨q', hacc, hx, hst⟩ := h
  obtain ⟨r, hpre, hpre'⟩ := Sink.accepts_append.mp hacc
  exact ⟨r, hpre, q', hpre', hx, hst⟩

theorem wrote_append_wroteThenFailed (pre pre' : List Byte) (x : Byte) (st : SnkStatus) :
    wrote pre ++ wroteThenFailed pre' x st = wroteThenFailed (pre ++ pre') x st := by
  simp [wroteThenFailed]

/-- Where the sink fails at one of the bytes in hand, the command returns IO_ERROR, whatever was to come after them
(R48). -/
theorem encContinue_fails_out {u : EncUnit} {out pre rest : List Byte} {x : Byte} {k : EncThen} {st : SnkStatus}
    {q : Sink} (hout : out = pre ++ x :: rest) (h : u.snk.FailsAt pre x st q) :
    encContinue u (encGoOn out k) = (u.hasWritten q (wroteThenFailed pre x st)).endCommand (.plain .ioError) := by
  cases k with
  | fetch => exact encContinue_fails_fetch hout h
  | finish => exact encContinue_fails (by simp) hout h
  | payload p i => exact encContinue_fails (by simp) (by simp [encRest, hout]; rfl) h

section
variable {u : EncUnit} {v : Bool} {p : List Byte} {log : List SrcXact} {src src' : Source} {a : SrcAnswer} {q : Sink}

/-- ENC_TRANSFER after its leading `END`, the payload bytes so far and one answered read more, on a sink that accepted
what was to be written (R105). -/
theorem encContinue_transfer_answered (hr : Reads u.src p log src) (hread : src.read Config.readChunk = some (a, src'))
    (hq : u.snk.accepts (leadingEnd v ++ p.flatMap stuff) = some q) :
    encContinue u (encGoOn (leadingEnd v) .fetch) =
      encContinue ((u.hasRead src' (log ++ [⟨Config.readChunk, a⟩])).hasWritten q
        (wrote (leadingEnd v ++ p.flatMap stuff))) (encFetched (fetchByte a)) := by
  rw [encContinue_transfer_reads hr hq, encContinue_read (a := a) (p := src') (by simpa using hread),
    EncUnit.afterRead_eq_hasRead, EncUnit.hasWritten_hasRead, EncUnit.hasRead_hasRead]

/-- The source is at its end, and the sink accepts the terminating `END` too (R105, R107). -/
theorem encContinue_transfer_frame (ht : u.task = none) (hr : Reads u.src p log src)
    (hread : src.read Config.readChunk = some (eofAnswer, src')) (hq : u.snk.accepts (frame p v) = some q) :
    encContinue u (encGoOn (leadingEnd v) .fetch) =
      (u.hasRead src' (log ++ readEof)).returned q (wrote (frame p v)) .ok := by
  obtain ⟨r, hbody, hend⟩ := Sink.accepts_append.mp hq
  rw [encContinue_transfer_answered hr hread hbody, fetchByte_eofAnswer, encFetched,
    encContinue_accepts (by simp) hend, EncUnit.hasWritten_hasWritten, ← wrote_append]
  exact EncUnit.hasWritten_endCommand (u := u.hasRead _ _) ht _ _ _

/-- The source answers with an error or breaks the contract: nothing more is written (R105, R161). -/
theorem encContinue_transfer_source_fails (ht : u.task = none) (hr : Reads u.src p log src)
    (hread : src.read Config.readChunk = some (a, src')) (hf : fetchByte a = .ioFail)
    (hq : u.snk.accepts (leadingEnd v ++ p.flatMap stuff) = some q) :
    encContinue u (encGoOn (leadingEnd v) .fetch) =
      (u.hasRead src' (log ++ [⟨Config.readChunk, a⟩])).returned q (wrote (leadingEnd v ++ p.flatMap stuff))
        .ioError := by
  rw [encContinue_transfer_answered hr hread hq, hf]
  exact EncUnit.hasWritten_endCommand (u := u.hasRead _ _) ht _ _ _

/-- The sink fails at one of the bytes `out` that the last answer makes the command write, whatever was to come after
them (R105). -/
theorem encContinue_transfer_sink_fails {out pre rest : List Byte} {x : Byte} {k : EncThen} {st : SnkStatus}
    (ht : u.task = none) (hr : Reads u.src p log src) (hread : src.read Config.readChunk = some (a, src'))
    (hf : encFetched (fetchByte a) = encGoOn out k) (hout : out = pre ++ x :: rest)
    (hq : u.snk.FailsAt (leadingEnd v ++ p.flatMap stuff ++ pre) x st q) :
    encContinue u (encGoOn (leadingEnd v) .fetch) =
      (u.hasRead src' (log ++ [⟨Config.readChunk, a⟩])).returned q
        (wroteThenFailed (leadingEnd v ++ p.flatMap stuff ++ pre) x st) .ioError := by
  obtain ⟨r, hbefore, hfail⟩ := hq.of_append
  rw [encContinue_transfer_answered hr hread hbefore, hf, encContinue_fails_out hout hfail,
    EncUnit.hasWritten_hasWritten, wrote_append_wroteThenFailed]
  exact EncUnit.hasWritten_endCommand (u := u.hasRead _ _) ht _ _ _

end

/-- Settles O22: the payload's stuffing follows the leading `END`, and the end of the source brings the last one. -/
theorem encTransferWritesFrame : Obligations.EncTransferWritesFrame := by
  intro p s log src src' q ht hr hread hq
  rw [exec_of_encCommand (EncUnit.busy_of_task_none ht) .transfer, encContinue_transfer_frame ht hr hread hq]

/-- Settles O23: the sink fails at the leading `END`, at a byte's stuffing or at the last `END`, or the source fails. -/
theorem encTransferIoErrors : Obligations.EncTransferIoErrors := by
  intro s ht
  rw [exec_of_encCommand (EncUnit.busy_of_task_none ht) .transfer]
  refine ⟨?leadingEnd, ?source, ?stuffed, ?terminatingEnd⟩
  case leadingEnd =>
    intro st q hv hq
    rw [hv, encContinue_fails_out (out := leadingEnd true) (rest := []) rfl hq, EncUnit.hasWritten_endCommand ht]
  case source =>
    intro p log src a src' q hr hread hf hq
    rw [encContinue_transfer_source_fails ht hr hread hf hq]
  case stuffed =>
    intro p log src a src' b pre x rest st q hr hread hf hout hq
    rw [encContinue_transfer_sink_fails ht hr hread (by rw [hf]; rfl) hout hq]
  case terminatingEnd =>
    intro p log src src' st q hr hread hq
    rw [encContinue_transfer_sink_fails (k := .finish) ht hr hread rfl (pre := []) rfl (by simpa using hq)]
    simp [readEof]

end Sys2Proof.Machine

/-! SUPPORT. Two encoders side by side: ENC_PACKET and ENC_TRANSFER over an in-memory source agree at the sink (O26),
and one command does the same on two encoders whose ports answer alike (O28). -/

namespace Sys2Proof.Machine

/-! ## ENC_PACKET and ENC_TRANSFER -/

/-- What the sink and the host can tell of two encoders is the same; their sources and records of reads may differ. -/
structure EncUnit.AgreeAtSink (u v : EncUnit) : Prop where
  snkLog : v.snkLog = u.snkLog
  responses : v.responses = u.responses
  snk : v.snk = u.snk
  busy : v.busy = u.busy

section
variable {u v : EncUnit}

theorem EncUnit.AgreeAtSink.afterWrite (h : u.AgreeAtSink v) (q : Sink) (b : Byte) (st : SnkStatus) :
    (u.afterWrite q b st).AgreeAtSink (v.afterWrite q b st) :=
  ⟨by simp [h.snkLog], h.responses, rfl, h.busy⟩

theorem EncUnit.AgreeAtSink.afterRead (h : u.AgreeAtSink v) (q : Source) (a : SrcAnswer) :
    u.AgreeAtSink (v.afterRead q a) :=
  ⟨h.snkLog, h.responses, h.snk, h.busy⟩

theorem EncUnit.AgreeAtSink.endCommand (h : u.AgreeAtSink v) (r : Response) :
    (u.endCommand r).AgreeAtSink (v.endCommand r) :=
  ⟨h.snkLog, by simp [h.responses], h.snk, rfl⟩

theorem EncUnit.AgreeAtSink.waitAt (h : u.AgreeAtSink v) (t t' : EncTask) : (u.waitAt t).AgreeAtSink (v.waitAt t') :=
  ⟨h.snkLog, h.responses, h.snk, rfl⟩

/-- Two encoders that agree at the sink still do after writing the same bytes, if they do from there on, whatever each
is to do then: the sink accepts the bytes of both, fails both at one byte or leaves both waiting at it. -/
theorem EncUnit.AgreeAtSink.goOn {k k' : EncThen} {src : Source}
    (hthen : ∀ u v : EncUnit, u.AgreeAtSink v → v.src = src →
      (encContinue u (encGoOn [] k)).AgreeAtSink (encContinue v (encGoOn [] k')))
    (h : u.AgreeAtSink v) (hsrc : v.src = src) (out : List Byte) :
    (encContinue u (encGoOn out k)).AgreeAtSink (encContinue v (encGoOn out k')) := by
  induction out generalizing u v with
  | nil => exact hthen u v h hsrc
  | cons b out ih =>
    rw [encGoOn_cons, encGoOn_cons]
    cases hw : u.snk.write [b] with
    | none =>
      rw [encContinue_wait_none (by simpa using hw), encContinue_wait_none (by simpa [h.snk] using hw)]
      exact h.waitAt _ _
    | some x =>
      obtain ⟨st, q⟩ := x
      have hw' : v.snk.write [b] = some (st, q) := h.snk ▸ hw
      by_cases hst : st = .ok
      · subst hst
        rw [encContinue_write_ok hw, encContinue_write_ok hw']
        exact ih (h.afterWrite q b .ok) hsrc
      · rw [encContinue_write_fail hw hst, encContinue_write_fail hw' hst]
        exact (h.afterWrite q b st).endCommand _

end

/-- ENC_PACKET from its payload byte `i` on, and ENC_TRANSFER from a fetch of that byte of the same payload (R109): both
write the byte's stuffing, or at the end of the payload the terminating `END`. -/
theorem EncUnit.AgreeAtSink.packet_transfer {u v : EncUnit} {p : List Byte} {i : Nat} (h : u.AgreeAtSink v)
    (hsrc : v.src = .inMemory ⟨p, i⟩) :
    (encContinue u (encGoOn [] (.payload p i))).AgreeAtSink (encContinue v (encGoOn [] .fetch)) := by
  rw [encGoOn_fetch]
  cases hb : p[i]? with
  | none =>
    have hread : v.src.read Config.readChunk = some (eofAnswer, v.src) := by
      rw [hsrc, Source.read, MemSource.read_end (by simpa using hb)]
    rw [encGoOn_payload_none hb, encContinue_read hread, fetchByte_eofAnswer]
    exact (h.afterRead v.src eofAnswer).goOn (k := .finish) (k' := .finish) (fun _ _ h _ => h.endCommand _) rfl [END]
  | some b =>
    have hread : v.src.read Config.readChunk = some (⟨[b], .more⟩, .inMemory ⟨p, i + 1⟩) := by
      rw [hsrc, Source.read, MemSource.read_byte (by simpa using hb)]
    rw [encGoOn_payload_some hb, encContinue_read hread, fetchByte_one]
    exact (h.afterRead _ _).goOn (fun u v h hsrc => h.packet_transfer hsrc) rfl (stuff b)
termination_by p.length - i
decreasing_by
  have := (List.getElem?_eq_some_iff.mp hb).1
  omega

/-- Settles O26: after the leading `END` the two go through the payload side by side. -/
theorem packetIsTransferFromMemory : Obligations.PacketIsTransferFromMemory := by
  intro v p s ht
  have hb := EncUnit.busy_of_task_none ht
  have hstart : s.enc.AgreeAtSink { s.enc with useStart := v, src := .inMemory ⟨p, 0⟩ } := ⟨rfl, rfl, rfl, rfl⟩
  have h := hstart.goOn (fun _ _ h hsrc => h.packet_transfer hsrc) rfl (leadingEnd v)
  exact ⟨_, _, exec_of_encCommand hb (.packet v p), exec_of_encCommand (s := s.setEnc _) hb .transfer,
    h.snkLog, h.responses, h.snk, h.busy⟩

/-! ## One command on two encoders -/

/-- From `u` and from `v` the encoders `u'` and `v'` have come by the same transactions and responses, and stand at the
same ports and in the same condition. -/
structure EncUnit.SameSince (u v u' v' : EncUnit) : Prop where
  recorded : ∃ reads writes rsp,
    u'.srcLog = u.srcLog ++ reads ∧ v'.srcLog = v.srcLog ++ reads ∧
    u'.snkLog = u.snkLog ++ writes ∧ v'.snkLog = v.snkLog ++ writes ∧
    u'.responses = u.responses ++ rsp ∧ v'.responses = v.responses ++ rsp
  task : u'.task = v'.task
  src : u'.src = v'.src
  snk : u'.snk = v'.snk

section
variable {u v u' v' : EncUnit}

theorem EncUnit.SameSince.start (ht : u.task = v.task) (hsrc : u.src = v.src) (hsnk : u.snk = v.snk) :
    u.SameSince v u v :=
  ⟨⟨[], [], [], by simp⟩, ht, hsrc, hsnk⟩

theorem EncUnit.SameSince.afterRead (h : u.SameSince v u' v') (q : Source) (a : SrcAnswer) :
    u.SameSince v (u'.afterRead q a) (v'.afterRead q a) := by
  obtain ⟨⟨reads, writes, rsp, hrec⟩, ht, -, hsnk⟩ := h
  exact ⟨⟨reads ++ [⟨Config.readChunk, a⟩], writes, rsp, by simp [hrec]⟩, ht, rfl, hsnk⟩

theorem EncUnit.SameSince.afterWrite (h : u.SameSince v u' v') (q : Sink) (b : Byte) (st : SnkStatus) :
    u.SameSince v (u'.afterWrite q b st) (v'.afterWrite q b st) := by
  obtain ⟨⟨reads, writes, rsp, hrec⟩, ht, hsrc, -⟩ := h
  exact ⟨⟨reads, writes ++ [⟨[b], st⟩], rsp, by simp [hrec]⟩, ht, hsrc, rfl⟩

theorem EncUnit.SameSince.endCommand (h : u.SameSince v u' v') (r : Response) :
    u.SameSince v (u'.endCommand r) (v'.endCommand r) := by
  obtain ⟨⟨reads, writes, rsp, hrec⟩, -, hsrc, hsnk⟩ := h
  exact ⟨⟨reads, writes, rsp ++ [r], by simp [hrec]⟩, rfl, hsrc, hsnk⟩

theorem EncUnit.SameSince.waitAt (h : u.SameSince v u' v') (t : EncTask) :
    u.SameSince v (u'.waitAt t) (v'.waitAt t) :=
  ⟨h.recorded, rfl, h.src, h.snk⟩

/-- Whether a transaction is answered depends on the ports alone. -/
theorem EncUnit.SameSince.transact_none (h : u.SameSince v u' v') {t : EncTask} (ht : encTransact u' t = none) :
    encTransact v' t = none := by
  cases t with
  | write b out k => simpa [h.snk] using ht
  | read => simpa [h.src] using ht

/-- The answer and how the command goes on depend on the ports alone. -/
theorem EncUnit.SameSince.transact (h : u.SameSince v u' v') {t : EncTask} {w : EncUnit} {p : EncProgress}
    (ht : encTransact u' t = some (w, p)) : ∃ w', encTransact v' t = some (w', p) ∧ u.SameSince v w w' := by
  obtain ⟨b, out, k, st, q, rfl, hw, rfl, rfl⟩ | ⟨a, q, rfl, hr, rfl, rfl⟩ := encTransact_cases ht
  · exact ⟨_, encTransact_of_write (h.snk ▸ hw) out k, h.afterWrite q b st⟩
  · exact ⟨_, encTransact_of_read (h.src ▸ hr), h.afterRead q a⟩

/-- A command goes on the same on two encoders with the same ports. -/
theorem EncUnit.SameSince.continued (h : u.SameSince v u' v') (p : EncProgress) :
    u.SameSince v (encContinue u' p) (encContinue v' p) := by
  refine encContinue_simulates (fun _ _ _ _ _ hR ht => hR.transact ht) (fun _ _ r hR => hR.endCommand r) ?_ h p
  intro w w' t hR ht
  rw [encContinue_wait_none (hR.transact_none ht)]
  exact hR.waitAt t

/-- What a command other than ENC_INIT makes of one idle encoder, it makes of another with the same ports, and for
ENC_TRANSFER the same policy (R106). -/
theorem EncCommand.sameSince {i : Instr} (hc : EncCommand u i u') (h : u.SameSince v u v) (hne : ∀ b, i ≠ .encInit b)
    (hv : i = .encTransfer → u.useStart = v.useStart) : ∃ v', EncCommand v i v' ∧ u.SameSince v u' v' := by
  cases hc with
  | init b => exact absurd rfl (hne b)
  | byte b => exact ⟨_, .byte b, h.continued _⟩
  | packet b p => exact ⟨_, .packet b p, h.continued _⟩
  | transfer => exact ⟨_, .transfer, hv rfl ▸ h.continued _⟩

end

/-- Settles O28: the command is the same function of the ports and the policy, and only ENC_INIT writes the policy. -/
theorem encoderForgetsHistory : Obligations.EncoderForgetsHistory := by
  intro i s s' t hi hne hv ht ht' hsrc hsnk he
  obtain ⟨-, u, hu, rfl⟩ := exec_encoder_cases hi he
  obtain ⟨u', hu', ⟨reads, writes, rsp, hreads, hreads', hwrites, hwrites', hrsp, hrsp'⟩, htask, hp, hq⟩ :=
    hu.sameSince (.start (ht.trans ht'.symm) hsrc hsnk) hne hv
  refine ⟨?_, s'.setEnc u', reads, writes, rsp, exec_of_encCommand (EncUnit.busy_of_task_none ht') hu',
    hreads, hreads', hwrites, hwrites', hrsp, hrsp', htask, hp, hq⟩
  obtain hkeep | ⟨v, hinit⟩ := hu.useStart_eq_or_init
  · exact hkeep
  · exact absurd hinit (hne v)

end Sys2Proof.Machine

/-! SUPPORT. The laws of the wire: what the bytes after other bytes mean (`decodeWire_append`), where a transfer's
decode loop starts (`transferWire_start`), that stuffed bytes mean the payload (`decodeWire_stuff`) and that a packet
decoded without a malformed step is the stuffing of its data (`decodeWire_restuffs`). -/

namespace Sys2Proof.Machine

/-! ## Wire bytes after wire bytes -/

/-- The meaning of wire bytes that mean `d`, ending no packet, and of those after them, which mean `d'`. -/
def Decoded.andThen (d d' : Decoded) : Decoded :=
  ⟨d.data ++ d'.data, d'.esc, d.malformed || d'.malformed, d.consumed ++ d'.consumed, d'.ended⟩

/-- One byte that does not end the packet, and those after it (R120). -/
theorem decodeWire_cons_of_not_ends {e : EscState} {b : Byte} (h : stepEnds e b = false) (bs : List Byte) :
    decodeWire e (b :: bs) =
      Decoded.andThen ⟨(stepData e b).toList, stepEsc e b, stepBad e b, [b], false⟩ (decodeWire (stepEsc e b) bs) := by
  rw [decodeWire_cons, h]
  rfl

/-- Wire bytes that end no packet are followed by the meaning of the rest from the escape state they leave (R120). -/
theorem decodeWire_append {e : EscState} {xs : List Byte} (h : (decodeWire e xs).ended = false) (ys : List Byte) :
    decodeWire e (xs ++ ys) = (decodeWire e xs).andThen (decodeWire (decodeWire e xs).esc ys) := by
  induction xs generalizing e with
  | nil => simp [Decoded.andThen]
  | cons b bs ih =>
    cases hends : stepEnds e b with
    | true => simp [decodeWire_cons, hends] at h
    | false =>
      rw [decodeWire_cons_of_not_ends hends] at h
      rw [List.cons_append, decodeWire_cons_of_not_ends hends, decodeWire_cons_of_not_ends hends, ih h]
      simp [Decoded.andThen, Bool.or_assoc]

/-- Nothing after the `END` of the packet is consumed (R121). -/
theorem decodeWire_append_of_ended {e : EscState} {xs : List Byte} (h : (decodeWire e xs).ended = true)
    (ys : List Byte) : decodeWire e (xs ++ ys) = decodeWire e xs := by
  induction xs generalizing e with
  | nil => simp at h
  | cons b bs ih =>
    cases hends : stepEnds e b with
    | true => simp [decodeWire_cons, hends]
    | false =>
      rw [decodeWire_cons_of_not_ends hends] at h
      rw [List.cons_append, decodeWire_cons_of_not_ends hends, decodeWire_cons_of_not_ends hends, ih h]

/-- What a transfer consumes stands at the front of the wire bytes (R45, R132). -/
theorem transferWire_consumed_append (r : Bool) (e : EscState) (w : List Byte) :
    ∃ rest, w = (transferWire r e w).consumed ++ rest := by
  cases hend : (transferWire r e w).ended with
  | false => exact ⟨[], by rw [transferWire_consumed hend, List.append_nil]⟩
  | true =>
    obtain ⟨init, b, ⟨rest, hw⟩, -, -, hcon⟩ := transferWire_endsAt hend
    exact ⟨rest, by rw [hcon, List.append_assoc]; exact hw⟩

theorem transferWire_consumed_length_le (r : Bool) (e : EscState) (w : List Byte) :
    (transferWire r e w).consumed.length ≤ w.length := by
  obtain ⟨rest, hrest⟩ := transferWire_consumed_append r e w
  have hlen := congrArg List.length hrest
  rw [List.length_append] at hlen
  omega

/-- Bytes that are all consumed end no packet before the last of them. -/
theorem decodeWire_not_ended_of_consumed {e : EscState} {xs ys : List Byte}
    (h : (decodeWire e (xs ++ ys)).consumed = xs ++ ys) (hys : ys ≠ []) : (decodeWire e xs).ended = false := by
  by_contra hend
  have hle : (decodeWire e xs).consumed.length ≤ xs.length := transferWire_consumed_length_le false e xs
  rw [decodeWire_append_of_ended (by simpa using hend)] at h
  rw [h, List.length_append] at hle
  exact hys (List.eq_nil_of_length_eq_zero (by omega))

/-- Where a transfer's decode loop starts (R129): the scan finds no `END` and discards everything, or the wire bytes are
a start and then what the loop decodes. The start is empty without the policy; with it, it is noise and the start
`END`, after which the decoder is NORMAL. -/
theorem transferWire_start (r : Bool) (e : EscState) (w : List Byte) :
    transferWire r e w = ⟨[], e, false, w, false⟩ ∨
    ∃ start rest e', w = start ++ rest ∧ (e = .normal → e' = .normal) ∧
      (r = false → start = []) ∧ (r = true → ∃ noise, start = noise ++ [END] ∧ END ∉ noise) ∧
      ∀ bs, transferWire r e (start ++ bs) =
        { decodeWire e' bs with consumed := start ++ (decodeWire e' bs).consumed } := by
  cases r with
  | false => exact .inr ⟨[], w, e, rfl, id, fun _ => rfl, nofun, fun _ => rfl⟩
  | true =>
    obtain ⟨hs, -⟩ | ⟨noise, rest, -, rfl, hnoise⟩ := scanWire_spec w
    · exact .inl (by simp [transferWire, hs])
    · refine .inr ⟨noise ++ [END], rest, .normal, by simp, fun _ => rfl, nofun, fun _ => ⟨noise, rfl, hnoise⟩,
        fun bs => ?_⟩
      simp [transferWire, scanWire_of_noise hnoise]

/-! ## Stuffing and its reverse -/

/-- The stuffing of a byte means that byte, and leaves NORMAL and the flag (R100, R122 to R125). -/
theorem decodeWire_stuff (b : Byte) : decodeWire .normal (stuff b) = ⟨[b], .normal, false, stuff b, false⟩ := by
  obtain ⟨rfl, hs⟩ | ⟨rfl, hs⟩ | ⟨hend, hesc, hs⟩ := stuff_cases b
  · rw [hs]; decide
  · rw [hs]; decide
  · simp [hs, decodeWire, hend, hesc]

/-- The stuffing of a payload means the payload (R139). -/
theorem decodeWire_flatMap_stuff (p : List Byte) :
    decodeWire .normal (p.flatMap stuff) = ⟨p, .normal, false, p.flatMap stuff, false⟩ := by
  induction p with
  | nil => rfl
  | cons b p ih =>
    rw [List.flatMap_cons, decodeWire_append (by rw [decodeWire_stuff]), decodeWire_stuff, ih]
    rfl

/-- A frame means its payload, under the policy it was made with (R139). -/
theorem transferWire_frame (p : List Byte) (r : Bool) :
    transferWire r .normal (frame p r) = ⟨p, .normal, false, frame p r, true⟩ := by
  have hbody : decodeWire .normal (p.flatMap stuff ++ [END]) = ⟨p, .normal, false, p.flatMap stuff ++ [END], true⟩ := by
    rw [decodeWire_append (by rw [decodeWire_flatMap_stuff]), decodeWire_flatMap_stuff]
    simp [Decoded.andThen, decodeWire]
  cases r with
  | false => exact hbody
  | true => simp [transferWire, frame, leadingEnd, scanWire, hbody]

/-- The wire byte that a decoder in this escape state still has to account for. -/
def pendingEsc : EscState → List Byte
  | .normal => []
  | .escaped => [ESC]

/-- A step that is neither malformed nor the end of the packet consumed what its data byte is stuffed to, but for a
pending `ESC` (R140). -/
theorem step_restuffs {e : EscState} {b : Byte} (hends : stepEnds e b = false) (hbad : stepBad e b = false) :
    pendingEsc e ++ [b] = (stepData e b).toList.flatMap stuff ++ pendingEsc (stepEsc e b) := by
  cases e with
  | normal =>
    have hend : b ≠ END := by simpa [stepEnds] using hends
    by_cases hesc : b = ESC
    · simp [hesc, stepData, stepEsc, pendingEsc, END_ne_ESC.symm]
    · simp [hend, hesc, stepData, stepEsc, pendingEsc, stuff]
  | escaped =>
    by_cases h1 : b = ESC_END
    · subst h1; decide
    · by_cases h2 : b = ESC_ESC
      · subst h2; decide
      · simp [stepBad, unescape, h1, h2] at hbad

/-- A packet decoded without a malformed step is the stuffing of its data and an `END` (R140). -/
theorem decodeWire_restuffs {e : EscState} {w : List Byte} (hend : (decodeWire e w).ended = true)
    (hbad : (decodeWire e w).malformed = false) :
    pendingEsc e ++ (decodeWire e w).consumed = (decodeWire e w).data.flatMap stuff ++ [END] := by
  induction w generalizing e with
  | nil => simp at hend
  | cons b bs ih =>
    cases hends : stepEnds e b with
    | true =>
      obtain ⟨rfl, rfl, -⟩ := stepEnds_spec hends
      rfl
    | false =>
      rw [decodeWire_cons_of_not_ends hends] at hend hbad ⊢
      obtain ⟨hb, hbs⟩ := Bool.or_eq_false_iff.mp hbad
      simp only [Decoded.andThen, List.flatMap_append, List.append_assoc]
      rw [← ih hend hbs, ← List.append_assoc, step_restuffs hends hb, List.append_assoc]

end Sys2Proof.Machine

/-! SUPPORT. DEC_TRANSFER and DEC_PACKET on a decoder whose ports answer (O33, O34, O36), and the round trip of a frame
(O37): the runs of Laws/DecoderEnds.lean and Laws/Waits.lean, each read as what the command makes of its idle unit. -/

namespace Sys2Proof.Machine

/-! ## The end of a command -/

/-- A command that wrote and returned, on a unit that was idle. -/
theorem DecUnit.hasWritten_endCommand {u : DecUnit} (ht : u.task = none) (hk : u.packetSrc = none) (q : Sink)
    (log : List SnkXact) (c : Code) : (u.hasWritten q log).endCommand (.plain c) = u.returned q log c :=
  DecUnit.ext rfl rfl rfl rfl ht.symm hk.symm rfl rfl rfl rfl rfl

/-- DEC_TRANSFER that read at the host's source, wrote and returned (R62). -/
theorem DecUnit.transfer_returned {u : DecUnit} (ht : u.task = none) (hk : u.packetSrc = none) (p : Source)
    (log : List SrcXact) (d : Decoded) (q : Sink) (l : List SnkXact) (c : Code) :
    (((u.readTo p log).decoded d).hasWritten q l).endCommand (.plain c) =
      ((u.decoded d).hasRead p log).returned q l c := by
  rw [DecUnit.readTo_eq_hasRead hk, DecUnit.hasRead_decoded]
  exact DecUnit.hasWritten_endCommand (u := (u.decoded d).hasRead p log) ht hk q l c

/-- A failed emit is recorded after the accepted ones. -/
theorem DecUnit.hasWritten_afterWrite (u : DecUnit) (q q' : Sink) (pre : List Byte) (x : Byte) (st : SnkStatus) :
    (u.hasWritten q (wrote pre)).afterWrite q' x st = u.hasWritten q' (wroteThenFailed pre x st) := by
  rw [DecUnit.afterWrite_eq_hasWritten, DecUnit.hasWritten_hasWritten, wroteThenFailed]

/-- A transfer with a failed emit: its byte is consumed and its register writes stay (R128, R132). -/
theorem decContinue_transfer_emit_fails {u : DecUnit} {w : List Byte} {b x : Byte} {log : List SrcXact}
    {p p' : Source} {q : Sink} {a : SrcAnswer} {st : SnkStatus} (hr : Reads u.activeSrc w log p)
    (he : (transferWire u.reqStart u.esc w).ended = false)
    (hq : u.snk.FailsAt (transferWire u.reqStart u.esc w).data x st q)
    (hread : p.read Config.readChunk = some (a, p')) (hf : fetchByte a = .byte b)
    (hd : (transferWire u.reqStart u.esc (w ++ [b])).data = (transferWire u.reqStart u.esc w).data ++ [x]) :
    decContinue u (decTransferStart u) =
      (((u.readTo p' (log ++ [⟨Config.readChunk, a⟩])).decoded (transferWire u.reqStart u.esc (w ++ [b]))).hasWritten q
        (wroteThenFailed (transferWire u.reqStart u.esc w).data x st)).endCommand (.plain .ioError) := by
  obtain ⟨q', hacc, hx, hst⟩ := hq
  rw [decContinue_transfer_emit hr he hacc hread hf hd, decContinue_emit_fail (by simpa using hx) hst,
    DecUnit.hasWritten_afterWrite]

/-! ## The round trip -/

/-- The last wire byte of a frame (R82, R127). -/
theorem prevAfter_frame (prev : Byte) (p : List Byte) (v : Bool) : prevAfter prev (frame p v) = END := by
  rw [frame, prevAfter_append, prevAfter_cons, prevAfter_nil]

/-- Settles O37: a frame means its payload, and DEC_PACKET does what its buffer means. -/
theorem decodingAFrameGivesThePayload : Obligations.DecodingAFrameGivesThePayload := by
  intro s p q ht hk hesc hq
  have hwire := transferWire_frame p s.dec.reqStart
  rw [← hesc] at hwire
  have hcode : transferCode s.dec.reqStart s.dec.esc (frame p s.dec.reqStart) = .endOfPacket := by
    rw [transferCode, hwire, if_pos rfl]
  have hregs : s.dec.decoded ⟨p, s.dec.esc, false, frame p s.dec.reqStart, true⟩ = { s.dec with prev := END } := by
    simp [DecUnit.decoded, prevAfter_frame]
  rw [decPacketDecodesBuffer s _ _ q ht hk hwire hq, hcode, hregs, if_pos rfl, List.append_nil]

/-! ## DEC_TRANSFER -/

/-- Settles O33: the source yields the `END` of the packet last, or its end comes after the bytes. -/
theorem decTransferOutcomes : Obligations.DecTransferOutcomes := by
  rintro s w d q ht hk rfl hq
  rw [exec_of_decCommand (DecUnit.busy_of_task_none ht) .transfer]
  refine ⟨?ends, ?eof⟩
  case ends =>
    rintro init b log src a src' rfl hr hread hf hend hcon
    rw [decContinue_transfer_end (by rwa [DecUnit.activeSrc_eq_src hk]) (transferWire_not_ended_of_consumed hcon) hq
      hread hf hend, DecUnit.transfer_returned ht hk]
  case eof =>
    intro log src src' hr hread hend
    rw [decContinue_transfer_eof (by rwa [DecUnit.activeSrc_eq_src hk]) hend hq hread, DecUnit.transfer_returned ht hk]

/-- Settles O34: the next read fails, or the emit of the byte it brings. -/
theorem decTransferIoErrors : Obligations.DecTransferIoErrors := by
  intro s w log src src' a ht hk hr hread hend
  rw [← DecUnit.activeSrc_eq_src hk] at hr
  rw [exec_of_decCommand (DecUnit.busy_of_task_none ht) .transfer]
  refine ⟨?source, ?emit⟩
  case source =>
    intro q hf hq
    rw [decContinue_transfer_ioFail hr hend hq hread hf, DecUnit.transfer_returned ht hk]
  case emit =>
    intro b x st q hf hd hq
    rw [decContinue_transfer_emit_fails hr hend hq hread hf hd, DecUnit.transfer_returned ht hk]

/-! ## DEC_PACKET -/

/-- Settles O36: the transfer's failed emit, the byte coming from DEC_PACKET's own source. -/
theorem decPacketFailedEmit : Obligations.DecPacketFailedEmit := by
  intro s w rest b x st q ht hk hend hd hq
  have hrun := decContinue_transfer_emit_fails (u := s.dec.attachPacket (w ++ b :: rest)) (reads_packet w (b :: rest))
    hend hq (read_packet_byte w b rest) rfl hd
  rw [exec_of_decCommand (DecUnit.busy_of_task_none ht) (.packet _), readEach_append]
  exact congrArg (fun u => Host.Outcome.next (s.setDec u)) (hrun.trans (DecUnit.packet_returned ht hk _ _ _ _ _ _ _))

end Sys2Proof.Machine

/-! SUPPORT. DEC_BYTE (O31, O32): a byte whose emit, if any, is accepted leaves what the transition table says
(`exec_decByte`). -/

namespace Sys2Proof.Machine

/-- The response to a wire byte, by whether it ends the packet (R131). -/
def byteCode (ended : Bool) : Code := if ended then .endOfPacket else .more

theorem Sink.accepts_one {p q : Sink} {x : Byte} : p.accepts [x] = some q ↔ p.write [x] = some (.ok, q) := by
  simp [Sink.accepts_cons]

/-- One wire byte emits nothing, or one data byte and does not end the packet (R120). -/
theorem decodeWire_one_cases (e : EscState) (b : Byte) :
    (decodeWire e [b]).data = [] ∨ ∃ x, (decodeWire e [b]).data = [x] ∧ (decodeWire e [b]).ended = false := by
  cases hends : stepEnds e b with
  | true => exact .inl (by simp [decodeWire_cons, hends])
  | false =>
    cases hdata : stepData e b with
    | none => exact .inl (by simp [decodeWire_cons, hends, hdata])
    | some x => exact .inr ⟨x, by simp [decodeWire_cons, hends, hdata], by simp [decodeWire_cons, hends]⟩

/-- A byte that emits nothing, consumed by DEC_BYTE: its register writes are made and the command returns (R121, R122,
R131). -/
theorem decConsume_silent {u : DecUnit} {b : Byte} (h : (decodeWire u.esc [b]).data = []) :
    decConsume u b false =
      (u.decoded (decodeWire u.esc [b]),
        decGoOn (if (decodeWire u.esc [b]).ended then .endOfPacket else .more) false) := by
  rw [decodeWire_cons] at h ⊢
  simp only [decConsume, decodeStep_eq]
  cases hends : stepEnds u.esc b with
  | true =>
    obtain ⟨-, -, hdata, hesc, hbad⟩ := stepEnds_spec hends
    simp [hdata, hesc, hbad, DecUnit.decoded, DecUnit.setPrev, DecUnit.setEsc, DecUnit.setMalformed]
  | false =>
    have hdata : stepData u.esc b = none := by simpa [hends] using h
    simp [hdata, DecUnit.decoded, DecUnit.setPrev, DecUnit.setEsc, DecUnit.setMalformed]

/-- DEC_BYTE on a sink that accepts the emit where there is one: the meaning of one wire byte (R120, R131). -/
theorem exec_decByte {s : State} {b : Byte} {d : Decoded} {q : Sink} (ht : s.dec.task = none)
    (hk : s.dec.packetSrc = none) (hd : decodeWire s.dec.esc [b] = d) (hq : s.dec.snk.accepts d.data = some q) :
    exec (.decByte b) s = .next (s.setDec ((s.dec.decoded d).returned q (wrote d.data) (byteCode d.ended))) := by
  subst hd
  rw [exec_of_decCommand (DecUnit.busy_of_task_none ht) (.byte b),
    ← DecUnit.hasWritten_endCommand (u := s.dec.decoded _) ht hk]
  obtain hdata | ⟨x, hdata, hends⟩ := decodeWire_one_cases s.dec.esc b
  · have hkeep := (s.dec.decoded (decodeWire s.dec.esc [b])).hasWritten_nil
    rw [hdata] at hq ⊢
    cases hq
    rw [DecUnit.decoded_snk] at hkeep
    rw [decConsume_silent hdata, wrote_nil, hkeep]
    cases (decodeWire s.dec.esc [b]).ended <;> rfl
  · rw [decConsume_emit hdata, hdata, hends]
    rw [hdata, Sink.accepts_one] at hq
    rw [decContinue_emit_ok (by simpa using hq)]
    rfl

/-- Settles O31: on each row, what the one wire byte means. -/
theorem decByteTransitions : Obligations.DecByteTransitions := by
  intro s b p ht hk
  refine ⟨?normalEnd, ?normalEsc, ?normalOther, ?escapedEnd, ?escapedEsc, ?escapedOther⟩
  case normalEnd =>
    rintro hesc rfl
    rw [exec_decByte (d := ⟨[], .normal, false, [END], true⟩) ht hk (by rw [hesc]; rfl) rfl]
    simp [DecUnit.decoded, hesc, byteCode]
  case normalEsc =>
    rintro hesc rfl
    rw [exec_decByte (d := ⟨[], .escaped, false, [ESC], false⟩) ht hk (by rw [hesc]; rfl) rfl]
    simp [DecUnit.decoded, byteCode]
  case normalOther =>
    intro hesc h1 h2 hw
    have hd : decodeWire .normal [b] = ⟨[b], .normal, false, [b], false⟩ := by simp [decodeWire, h1, h2]
    rw [exec_decByte ht hk (hesc ▸ hd) (Sink.accepts_one.mpr hw)]
    simp [DecUnit.decoded, hesc, byteCode]
  case escapedEnd =>
    rintro hesc rfl hw
    rw [exec_decByte (d := ⟨[END], .normal, false, [ESC_END], false⟩) ht hk (by rw [hesc]; rfl)
      (Sink.accepts_one.mpr hw)]
    simp [DecUnit.decoded, byteCode]
  case escapedEsc =>
    rintro hesc rfl hw
    rw [exec_decByte (d := ⟨[ESC], .normal, false, [ESC_ESC], false⟩) ht hk (by rw [hesc]; rfl)
      (Sink.accepts_one.mpr hw)]
    simp [DecUnit.decoded, byteCode]
  case escapedOther =>
    intro hesc h1 h2 hw
    have hd : decodeWire .escaped [b] = ⟨[b], .normal, true, [b], false⟩ := by simp [decodeWire, h1, h2]
    rw [exec_decByte ht hk (hesc ▸ hd) (Sink.accepts_one.mpr hw)]
    simp [DecUnit.decoded, byteCode]

/-- Settles O32: the register writes come before the emit that fails. -/
theorem decByteFailedEmitKeepsRegisters : Obligations.DecByteFailedEmitKeepsRegisters := by
  intro s b x st p ht hk hdata hw hst
  rw [exec_of_decCommand (DecUnit.busy_of_task_none ht) (.byte b), decConsume_emit hdata,
    decContinue_emit_fail (by simpa using hw) hst, DecUnit.afterWrite_eq_hasWritten]
  exact congrArg (fun u => Host.Outcome.next (s.setDec u))
    (DecUnit.hasWritten_endCommand (u := s.dec.decoded _) ht hk p _ _)

end Sys2Proof.Machine

/-! SUPPORT. DEC_INIT (O30), the malformed flag's commands (O43, O44), and what clears the flag (O45): no transaction
does, so of the commands and inputs only those that construct the decoder or clear the flag outright. -/

namespace Sys2Proof.Machine

/-- The end of a command on a unit that was idle is its response alone. -/
theorem DecUnit.endCommand_of_idle {u : DecUnit} (ht : u.task = none) (hk : u.packetSrc = none) (r : Response) :
    u.endCommand r = u.respond r :=
  DecUnit.ext rfl rfl rfl rfl ht.symm hk.symm rfl rfl rfl rfl rfl

/-- Settles O30: the row selects DEC_INIT's words, and the command constructs the decoder and responds. -/
theorem decInitConstructs : Obligations.DecInitConstructs := by
  refine ⟨fun w hw => ?_, fun v s ht hk => ?_⟩
  · obtain ⟨-, -, -, -, hinit, -⟩ := tableRowsDecode w
    exact hinit hw
  · rw [exec_of_decCommand (DecUnit.busy_of_task_none ht) (.init v),
      DecUnit.endCommand_of_idle (by simpa using ht) (by simpa using hk)]
    rfl

/-- Settles O43: the row selects the word 0xC000, and the response carries the flag. -/
theorem getMalformedReturnsFlag : Obligations.GetMalformedReturnsFlag := by
  refine ⟨fun w hw => ?_, fun s ht hk => ⟨⟨.ok, s.dec.malformedValue⟩, ?_, ?_⟩⟩
  · obtain ⟨-, -, -, -, -, -, -, -, hget, -⟩ := tableRowsDecode w
    exact hget hw
  · rw [exec_of_decCommand (DecUnit.busy_of_task_none ht) .getMalformed, DecUnit.endCommand_of_idle ht hk]
    rfl
  · unfold DecUnit.malformedValue
    cases s.dec.malformed <;> rfl

/-- Settles O44: the row selects the word 0xD000, and the command writes the flag and responds. -/
theorem clearMalformedClearsFlag : Obligations.ClearMalformedClearsFlag := by
  refine ⟨fun w hw => ?_, fun s ht hk => ?_⟩
  · obtain ⟨-, -, -, -, -, -, -, -, -, hclear⟩ := tableRowsDecode w
    exact hclear hw
  · rw [exec_of_decCommand (DecUnit.busy_of_task_none ht) .clearMalformed,
      DecUnit.endCommand_of_idle (by simpa using ht) (by simpa using hk)]
    rfl

/-! ## The flag is sticky -/

/-- A byte consumed does not clear the flag (R121 to R126). -/
theorem decConsume_malformed {u : DecUnit} (h : u.malformed = true) (b : Byte) (inLoop : Bool) :
    (decConsume u b inLoop).1.malformed = true := by
  rw [(decConsume_cases u b inLoop).1, decodeStep_eq]
  simp [h]

/-- A transaction does not clear the flag (R137). -/
theorem decTransact_malformed {u u' : DecUnit} {t : DecTask} {p : DecProgress} (h : u.malformed = true)
    (ht : decTransact u t = some (u', p)) : u'.malformed = true := by
  obtain ⟨a, q, -, -, hc⟩ | ⟨got, a, q, -, -, hc⟩ | ⟨x, _, _, st, q, -, -, rfl, -⟩ := decTransact_cases ht
  · obtain ⟨b, e, hregs⟩ := decScanned_frame ((u.setActiveSrc q).logRead a) (fetchByte a)
    rw [show u' = _ from congrArg Prod.fst hc, hregs]
    simpa using h
  · rw [show u' = _ from congrArg Prod.fst hc]
    cases fetchByte a with
    | byte b => exact decConsume_malformed (by simpa using h) b true
    | eos => simpa [decFetched] using h
    | ioFail => simpa [decFetched] using h
    | again => simpa [decFetched] using h
  · exact h

/-- A command does not clear the flag as it goes on (R137). -/
theorem decContinue_malformed {u : DecUnit} (h : u.malformed = true) (p : DecProgress) :
    (decContinue u p).malformed = true :=
  decContinue_rec (Q := fun v _ => v.malformed = true) (R := fun v => v.malformed = true)
    (fun _ _ _ _ hv ht => decTransact_malformed hv ht) (fun _ _ hv => hv) (fun _ _ hv _ => hv) h

theorem wakeDec_malformed {u : DecUnit} (h : u.malformed = true) : (wakeDec u).malformed = true := by
  cases ht : u.task with
  | none => rwa [wakeDec_idle ht]
  | some t => rw [wakeDec_waiting ht]; exact decContinue_malformed h _

/-- A command that clears the flag is DEC_INIT or DEC_CLEAR_MALFORMED (R130, R136). -/
theorem DecCommand.init_or_clear {u u' : DecUnit} {i : Instr} (h : DecCommand u i u') (hu : u.malformed = true)
    (hu' : u'.malformed = false) : (∃ v, i = .decInit v) ∨ i = .decClearMalformed := by
  have sticky {p : Prop} (hkeep : u'.malformed = true) : p := by simp [hkeep] at hu'
  cases h with
  | init v => exact .inl ⟨v, rfl⟩
  | byte b => exact sticky (decContinue_malformed (decConsume_malformed hu b false) _)
  | transfer => exact sticky (decContinue_malformed hu _)
  | packet w => exact sticky (decContinue_malformed (u := u.attachPacket w) hu _)
  | getMalformed => exact sticky hu
  | clearMalformed => exact .inr rfl

/-- An action that clears the flag is power-on reset, or the offer of a command that clears it (R137, R180). -/
theorem DecMove.powerOn_or_clear {u u' : DecUnit} {x : Input} (h : DecMove u x u') (hu : u.malformed = true)
    (hu' : u'.malformed = false) :
    x = .powerOn ∨ ∃ w operand i, x = .command w operand ∧ decode w operand = .ok i ∧
      ((∃ v, i = .decInit v) ∨ i = .decClearMalformed) := by
  have sticky {p : Prop} (hkeep : u'.malformed = true) : p := by simp [hkeep] at hu'
  cases h with
  | stay => exact sticky hu
  | command hd _ hc => exact .inr ⟨_, _, _, rfl, hd, hc.init_or_clear hu hu'⟩
  | sourceAnswer => exact sticky (wakeDec_malformed hu)
  | sinkAnswer => exact sticky (wakeDec_malformed hu)
  | attachSource => exact sticky hu
  | attachSink => exact sticky hu
  | powerOn => exact .inl rfl

/-- Settles O45: a step changes nothing, or takes an action that moves the decoder, and a move that clears the flag is
one of the three. -/
theorem malformedIsSticky : Obligations.MalformedIsSticky := by
  intro s t h hs ht
  obtain ⟨-, rfl⟩ | ⟨x, rest, hi, -, hdec⟩ := step_cases h
  · simp [hs] at ht
  · exact ⟨x, rest, hi, hdec.powerOn_or_clear hs ht⟩

end Sys2Proof.Machine

/-! SUPPORT. All that DEC_PACKET can do, whatever its sink answers (`decPacket_cases`): it decodes W as far as the
packet goes, fails at the emit of a byte of W or waits at it. So it reads little and returns (O40), and what it emitted
can be stuffed again (O38). -/

namespace Sys2Proof.Machine

/-! ## The byte of the wire that a data byte comes from -/

/-- The byte of `w` that emits `x` after the data bytes `pre`: what stands before it ends no packet and emits `pre`
(R128). -/
def EmitsAt (f : List Byte → Decoded) (w pre : List Byte) (x : Byte) : Prop :=
  ∃ init b tail, w = init ++ b :: tail ∧ (f init).ended = false ∧ (f init).data = pre ∧
    (f (init ++ [b])).data = pre ++ [x]

/-- A byte later in the wire emits after what the first byte emits. -/
theorem EmitsAt.cons {e : EscState} {c x : Byte} {cs pre : List Byte} (hends : stepEnds e c = false)
    (h : EmitsAt (decodeWire (stepEsc e c)) cs pre x) :
    EmitsAt (decodeWire e) (c :: cs) ((stepData e c).toList ++ pre) x := by
  obtain ⟨init, b, tail, rfl, hinit, rfl, hdata⟩ := h
  have hcons := decodeWire_cons_of_not_ends hends
  refine ⟨c :: init, b, tail, rfl, by rw [hcons]; exact hinit, by rw [hcons]; rfl, ?_⟩
  rw [List.cons_append, hcons, Decoded.andThen, hdata, List.append_assoc]

theorem decodeWire_emitsAt {e : EscState} {w pre rest : List Byte} {x : Byte}
    (h : (decodeWire e w).data = pre ++ x :: rest) : EmitsAt (decodeWire e) w pre x := by
  induction w generalizing e pre with
  | nil => simp at h
  | cons c cs ih =>
    cases hends : stepEnds e c with
    | true => simp [decodeWire_cons, hends] at h
    | false =>
      rw [decodeWire_cons_of_not_ends hends, Decoded.andThen] at h
      have later {pre'} (hcs : (decodeWire (stepEsc e c) cs).data = pre' ++ x :: rest) := (ih hcs).cons hends
      cases hdata : stepData e c with
      | none =>
        rw [hdata] at h later
        exact later h
      | some y =>
        rw [hdata] at h later
        cases pre with
        | nil =>
          obtain ⟨rfl, -⟩ := List.cons.inj h
          exact ⟨[], c, cs, rfl, by simp, by simp, by simp [decodeWire_cons, hends, hdata]⟩
        | cons z zs =>
          obtain ⟨rfl, hzs⟩ := List.cons.inj h
          exact later hzs

/-- Each data byte of a transfer is the emit of one wire byte, consumed after those that emit the data bytes before it
(R128, R129). -/
theorem transferWire_emitsAt {r : Bool} {e : EscState} {w pre rest : List Byte} {x : Byte}
    (h : (transferWire r e w).data = pre ++ x :: rest) : EmitsAt (transferWire r e) w pre x := by
  obtain hnone | ⟨start, body, e', rfl, -, -, -, hloop⟩ := transferWire_start r e w
  · simp [hnone] at h
  · rw [hloop] at h
    obtain ⟨init, b, tail, rfl, hend, hdata, hdata'⟩ := decodeWire_emitsAt h
    exact ⟨start ++ init, b, tail, by simp, by rw [hloop]; exact hend, by rw [hloop]; exact hdata,
      by rw [List.append_assoc, hloop]; exact hdata'⟩

/-! ## All that DEC_PACKET can do -/

/-- What stood in the place of `DEC.SRC` on an idle decoder does not matter to DEC_PACKET (R62, R134). -/
theorem exec_decPacket_idle {s : State} (hb : s.dec.busy = false) (w : List Byte) :
    exec (.decPacket w) (s.setDec s.dec.idle) = exec (.decPacket w) s := by
  have hattach : s.dec.idle.attachPacket w = s.dec.attachPacket w :=
    DecUnit.ext rfl rfl rfl rfl (DecUnit.task_none hb).symm rfl rfl rfl rfl rfl rfl
  rw [exec_of_decCommand hb (.packet w), exec_of_decCommand (s := s.setDec s.dec.idle) rfl (.packet w),
    State.setDec_dec, hattach]
  rfl

/-- An idle decoder's DEC_PACKET emits all data bytes of W and returns, or comes to the emit of a byte `b` of W after
the bytes `init`, which fails or is unanswered (R134). -/
theorem decPacket_cases {s t : State} {w : List Byte} (h : exec (.decPacket w) s = .next t) :
    (∃ d q, transferWire s.dec.reqStart s.dec.esc w = d ∧
      t.dec = ((s.dec.idle.decoded d).hasRead s.dec.src
        (readEach d.consumed ++ if d.ended then [] else readEof)).returned q (wrote d.data)
          (transferCode s.dec.reqStart s.dec.esc w)) ∨
    ∃ init b tail, w = init ++ b :: tail ∧ t.dec.srcLog = s.dec.srcLog ++ readEach (init ++ [b]) ∧
      ((t.dec.busy = false ∧ t.dec.responses = s.dec.responses ++ [.plain .ioError]) ∨
        (t.dec.responses = s.dec.responses ∧
          ∃ pre x q, s.dec.snk.accepts pre = some q ∧ q.write [x] = none)) := by
  obtain ⟨hb, -⟩ := exec_decoder_cases rfl h
  rw [← exec_decPacket_idle hb w] at h
  obtain ⟨q, hq⟩ | ⟨pre, x, rest, st, q, hd, hq⟩ | ⟨pre, x, rest, q, hd, hq, hx⟩ :=
    Sink.accepts_trichotomy s.dec.snk (transferWire s.dec.reqStart s.dec.esc w).data
  · have hrun := decPacketDecodesBuffer (s.setDec s.dec.idle) w _ q rfl rfl rfl hq
    obtain rfl := Host.Outcome.next.inj (h.symm.trans hrun)
    exact .inl ⟨_, q, rfl, rfl⟩
  · obtain ⟨init, b, tail, rfl, hend, rfl, hdata⟩ := transferWire_emitsAt hd
    have hrun := decPacketFailedEmit (s.setDec s.dec.idle) init tail b x st q rfl rfl hend hdata hq
    obtain rfl := Host.Outcome.next.inj (h.symm.trans hrun)
    exact .inr ⟨init, b, tail, rfl, rfl, .inl ⟨rfl, rfl⟩⟩
  · obtain ⟨init, b, tail, rfl, hend, rfl, hdata⟩ := transferWire_emitsAt hd
    obtain ⟨-, -, -, -, -, -, -, -, -, -, hwaits⟩ := unansweredTransactionWaits
    have hrun := hwaits (s.setDec s.dec.idle) init tail b x q rfl rfl hend hdata hq hx
    obtain rfl := Host.Outcome.next.inj (h.symm.trans hrun)
    exact .inr ⟨init, b, tail, rfl, rfl, .inr ⟨rfl, _, x, q, hq, hx⟩⟩

/-! ## Termination -/

/-- An in-memory sink answers every write, and after it too (R51). -/
theorem Sink.accepts_inMemory_write {m : MemSink} {pre : List Byte} {q : Sink}
    (h : (Sink.inMemory m).accepts pre = some q) (bs : List Byte) : q.write bs ≠ none := by
  induction pre generalizing m with
  | nil => cases h; exact nofun
  | cons b pre ih =>
    obtain ⟨q', hq', h⟩ := Sink.accepts_cons.mp h
    obtain ⟨-, rfl⟩ := Prod.mk.inj (Option.some.inj hq')
    exact ih h

@[simp] theorem readEach_length (bs : List Byte) : (readEach bs).length = bs.length := List.length_map _

/-- Settles O40: each byte of W is read at most once, and then at most the end of W. -/
theorem packetDecodingTerminates : Obligations.PacketDecodingTerminates := by
  intro s t w h
  obtain ⟨d, q, rfl, hdec⟩ | ⟨init, b, tail, rfl, hlog, hend⟩ := decPacket_cases h
  · rw [hdec]
    refine ⟨⟨_, rfl, ?_⟩, fun _ _ => rfl⟩
    rw [List.length_append, readEach_length]
    refine Nat.add_le_add (transferWire_consumed_length_le _ _ _) ?_
    split
    · exact Nat.zero_le 1
    · exact Nat.le_refl 1
  · refine ⟨⟨_, hlog, by simp⟩, fun m hm => ?_⟩
    obtain ⟨hidle, -⟩ | ⟨-, pre, x, q, hq, hx⟩ := hend
    · exact hidle
    · rw [hm] at hq
      exact absurd hx (Sink.accepts_inMemory_write hq _)

/-! ## Re-encoding -/

/-- A transfer answers END_OF_PACKET only where an `END` ended the packet (R133). -/
theorem ended_of_transferCode {r : Bool} {e : EscState} {w : List Byte} (h : transferCode r e w = .endOfPacket) :
    (transferWire r e w).ended = true := by
  unfold transferCode at h
  split at h
  · assumption
  · split at h
    · cases h
    · split at h <;> cases h

/-- A packet that a transfer decoded from NORMAL without a malformed step is a start, the stuffing of its data and an
`END` (R129, R140). -/
theorem transferWire_restuffs {r : Bool} {w : List Byte} (hend : (transferWire r .normal w).ended = true)
    (hbad : (transferWire r .normal w).malformed = false) :
    ∃ start, (transferWire r .normal w).consumed =
        start ++ (transferWire r .normal w).data.flatMap stuff ++ [END] ∧
      (r = false → start = []) ∧ (r = true → ∃ noise, start = noise ++ [END] ∧ END ∉ noise) := by
  obtain hnone | ⟨start, body, e', rfl, he, hno, hyes, hloop⟩ := transferWire_start r .normal w
  · simp [hnone] at hend
  · obtain rfl := he rfl
    rw [hloop] at hend hbad ⊢
    have hbody := decodeWire_restuffs hend hbad
    rw [pendingEsc, List.nil_append] at hbody
    exact ⟨start, by simp only [hbody, List.append_assoc], hno, hyes⟩

/-- Settles O38: of all that DEC_PACKET can do only a decoded packet answers END_OF_PACKET. -/
theorem reencodingRestoresTheWire : Obligations.ReencodingRestoresTheWire := by
  intro s t w hesc hflag h hflag' hrsp
  obtain ⟨d, q, hd, hdec⟩ | ⟨init, b, tail, -, -, ⟨-, hio⟩ | ⟨hnone, -⟩⟩ := decPacket_cases h
  · rw [hesc] at hd hdec
    rw [hdec] at hflag' hrsp
    have hcode : transferCode s.dec.reqStart .normal w = .endOfPacket := by
      simpa [DecUnit.returned, DecUnit.hasRead, Response.plain] using hrsp
    have hend := ended_of_transferCode hcode
    have hbad : d.malformed = false := by
      simpa [DecUnit.returned, DecUnit.hasRead, hflag] using hflag'
    subst hd
    obtain ⟨start, hcon, hno, hyes⟩ := transferWire_restuffs hend hbad
    obtain ⟨rest, hrest⟩ := transferWire_consumed_append s.dec.reqStart .normal w
    rw [hend, hcon, if_pos rfl, List.append_nil] at hdec
    rw [hcon] at hrest
    exact ⟨start, _, rest, by rw [hdec]; rfl, hrest, by rw [hdec]; rfl, hno, hyes⟩
  · simp [hio, Response.plain] at hrsp
  · simp [hnone] at hrsp

end Sys2Proof.Machine

/-! SUPPORT. Bounds on what the decoder writes: at most one byte for each wire byte it consumes (O41), and none before
START_BYTE_NOT_FOUND (O42). -/

namespace Sys2Proof.Machine

/-! ## At most one byte out for each byte in -/

/-- The emits a command is committed to: the one it waits at, if it waits at one. -/
def pendingEmits : DecProgress → Nat
  | .wait (.emit _ _ _) => 1
  | .wait .scan => 0
  | .wait (.fetch _) => 0
  | .done _ => 0

@[simp] theorem pendingEmits_decGoOn (sig : Signal) (inLoop : Bool) : pendingEmits (decGoOn sig inLoop) = 0 := by
  cases inLoop <;> cases sig <;> rfl

@[simp] theorem pendingEmits_decEmitted (sig : Signal) (inLoop : Bool) (r : Put) :
    pendingEmits (decEmitted sig inLoop r) = 0 := by
  cases r with
  | done => exact pendingEmits_decGoOn sig inLoop
  | ioFail => rfl

/-- A wire byte consumed makes at most one emit (R120). -/
theorem pendingEmits_decConsume_le (u : DecUnit) (b : Byte) (inLoop : Bool) :
    pendingEmits (decConsume u b inLoop).2 ≤ 1 := by
  obtain ⟨-, ⟨x, -, h⟩ | ⟨-, h⟩⟩ := decConsume_cases u b inLoop
  · exact h ▸ Nat.le_refl 1
  · rw [h, pendingEmits_decGoOn]; exact Nat.zero_le 1

@[simp] theorem consumedBytes_append (l m : List SrcXact) :
    consumedBytes (l ++ m) = consumedBytes l ++ consumedBytes m := List.flatMap_append

/-- What the scan reads makes no emit (R129). -/
@[simp] theorem pendingEmits_decScanned (u : DecUnit) (f : Fetch) : pendingEmits (decScanned u f).2 = 0 := by
  cases f with
  | byte b => simp only [decScanned]; split <;> rfl
  | eos => rfl
  | ioFail => rfl
  | again => rfl

/-- What the decode loop reads makes at most as many emits as it is wire bytes (R132). -/
theorem pendingEmits_decFetched_le (u : DecUnit) (got : Bool) (a : SrcAnswer) :
    pendingEmits (decFetched u got (fetchByte a)).2 ≤ (consumedBytes [⟨Config.readChunk, a⟩]).length := by
  cases hf : fetchByte a with
  | byte b =>
    rw [fetchByte_byte hf]
    exact pendingEmits_decConsume_le u b true
  | eos => exact Nat.zero_le _
  | ioFail => exact Nat.zero_le _
  | again => exact Nat.zero_le _

/-- From `u` to `v` the decoder wrote, and is committed to write with `pending` emits, at most `credit` bytes more than
the wire bytes it read. -/
def DecUnit.EmitsWithin (u : DecUnit) (credit : Nat) (v : DecUnit) (pending : Nat) : Prop :=
  ∃ reads writes, v.srcLog = u.srcLog ++ reads ∧ v.snkLog = u.snkLog ++ writes ∧
    writes.length + pending ≤ (consumedBytes reads).length + credit

/-- One more read, which makes at most as many emits as it yields wire bytes. -/
theorem DecUnit.EmitsWithin.read {u v v' : DecUnit} {credit n : Nat} {a : SrcAnswer} (h : u.EmitsWithin credit v 0)
    (hsrc : v'.srcLog = v.srcLog ++ [⟨Config.readChunk, a⟩]) (hsnk : v'.snkLog = v.snkLog)
    (hn : n ≤ (consumedBytes [⟨Config.readChunk, a⟩]).length) : u.EmitsWithin credit v' n := by
  obtain ⟨reads, writes, hreads, hwrites, hle⟩ := h
  refine ⟨reads ++ [⟨Config.readChunk, a⟩], writes, by rw [hsrc, hreads, List.append_assoc], hsnk.trans hwrites, ?_⟩
  rw [consumedBytes_append, List.length_append]
  omega

/-- Fewer emits to come. -/
theorem DecUnit.EmitsWithin.mono {u v : DecUnit} {credit m n : Nat} (h : u.EmitsWithin credit v n) (hmn : m ≤ n) :
    u.EmitsWithin credit v m := by
  obtain ⟨reads, writes, hreads, hwrites, hle⟩ := h
  exact ⟨reads, writes, hreads, hwrites, by omega⟩

/-- A transaction is a read, which may bring an emit, or the pending emit (R142). -/
theorem DecUnit.EmitsWithin.transact {u v v' : DecUnit} {credit : Nat} {t : DecTask} {p : DecProgress}
    (h : u.EmitsWithin credit v (pendingEmits (.wait t))) (ht : decTransact v t = some (v', p)) :
    u.EmitsWithin credit v' (pendingEmits p) := by
  obtain ⟨a, q, rfl, -, hc⟩ | ⟨got, a, q, rfl, -, hc⟩ | ⟨x, sig, inLoop, st, q, rfl, -, rfl, rfl⟩ :=
    decTransact_cases ht
  · rw [show v' = _ from congrArg Prod.fst hc, show p = _ from congrArg Prod.snd hc]
    exact h.read (a := a) (by simp) (by simp) (by simp)
  · rw [show v' = _ from congrArg Prod.fst hc, show p = _ from congrArg Prod.snd hc]
    exact h.read (a := a) (by simp) (by simp) (pendingEmits_decFetched_le _ got a)
  · obtain ⟨reads, writes, hreads, hwrites, hle⟩ := h
    refine ⟨reads, writes ++ [⟨[x], st⟩], hreads, by simp [hwrites], ?_⟩
    rw [pendingEmits_decEmitted, List.length_append, List.length_singleton]
    exact hle

/-- A command that goes on writes the emit it is committed to and at most one byte for each wire byte it reads
(R142). -/
theorem decContinue_emitsWithin (u : DecUnit) (p : DecProgress) :
    u.EmitsWithin (pendingEmits p) (decContinue u p) 0 :=
  decContinue_rec (Q := fun v r => u.EmitsWithin (pendingEmits p) v (pendingEmits r))
    (R := fun v => u.EmitsWithin (pendingEmits p) v 0) (fun _ _ _ _ hv ht => hv.transact ht) (fun _ _ hv => hv)
    (fun _ _ hv _ => hv.mono (Nat.zero_le _)) ⟨[], [], by simp, by simp, by simp [consumedBytes]⟩

theorem pendingEmits_decTransferStart (u : DecUnit) : pendingEmits (decTransferStart u) = 0 := by
  unfold decTransferStart
  split <;> rfl

/-- What DEC_TRANSFER and DEC_PACKET make of the decoder: they differ in the source that stands in the place of the
host's (R62, R132, R134). -/
theorem DecCommand.eq_transfer {u u' : DecUnit} {i : Instr} (h : DecCommand u i u')
    (hi : i = .decTransfer ∨ ∃ w, i = .decPacket w) :
    ∃ m, u' = decContinue { u with packetSrc := m } (decTransferStart u) := by
  obtain rfl | ⟨w, rfl⟩ := hi
  · cases h
    exact ⟨u.packetSrc, rfl⟩
  · cases h
    exact ⟨some ⟨w, 0⟩, rfl⟩

theorem unitOf_transfer {i : Instr} (hi : i = .decTransfer ∨ ∃ w, i = .decPacket w) : unitOf i = .decoder := by
  obtain rfl | ⟨w, rfl⟩ := hi <;> rfl

/-- Settles O41: DEC_BYTE reads nothing and starts with at most one emit; a transfer starts with none. -/
theorem emitsAtMostWhatItConsumes : Obligations.EmitsAtMostWhatItConsumes := by
  refine fun s t => ⟨fun b h => ?byte, fun i hi h => ?transfer⟩
  case byte =>
    obtain ⟨-, u, hu, rfl⟩ := exec_decoder_cases rfl h
    cases hu
    obtain ⟨reads, writes, hreads, hwrites, hle⟩ :=
      decContinue_emitsWithin (decConsume s.dec b false).1 (decConsume s.dec b false).2
    rw [(decByte_src s.dec b).2, decConsume_srcLog, List.self_eq_append_right] at hreads
    subst hreads
    have hone := pendingEmits_decConsume_le s.dec b false
    exact ⟨writes, by simpa using hwrites, by simpa [consumedBytes] using hle.trans (Nat.add_le_add_left hone _)⟩
  case transfer =>
    obtain ⟨-, u, hu, rfl⟩ := exec_decoder_cases (unitOf_transfer hi) h
    obtain ⟨m, rfl⟩ := hu.eq_transfer hi
    have hrun := decContinue_emitsWithin { s.dec with packetSrc := m } (decTransferStart s.dec)
    rwa [pendingEmits_decTransferStart] at hrun

/-! ## Nothing out before START_BYTE_NOT_FOUND -/

/-- The command has decoded no wire byte: it scans, or its loop has fetched nothing, or it found no start byte. -/
def DecodedNothing : DecProgress → Prop
  | .wait .scan => True
  | .wait (.fetch got) => got = false
  | .wait (.emit _ _ _) => False
  | .done o => o = .transfer .startByteNotFound

/-- The sink, its record, the escape state and the flag of `u` are those of `v`. -/
structure DecUnit.SameOutput (u v : DecUnit) : Prop where
  snk : v.snk = u.snk
  snkLog : v.snkLog = u.snkLog
  esc : v.esc = u.esc
  malformed : v.malformed = u.malformed

theorem DecUnit.SameOutput.trans {u v w : DecUnit} (h : u.SameOutput v) (h' : v.SameOutput w) : u.SameOutput w :=
  ⟨h'.snk.trans h.snk, h'.snkLog.trans h.snkLog, h'.esc.trans h.esc, h'.malformed.trans h.malformed⟩

theorem decGoOn_decodes (sig : Signal) (inLoop : Bool) : ¬ DecodedNothing (decGoOn sig inLoop) := by
  cases inLoop <;> cases sig <;> simp [decGoOn, DecodedNothing]

theorem decConsume_decodes (u : DecUnit) (b : Byte) (inLoop : Bool) : ¬ DecodedNothing (decConsume u b inLoop).2 := by
  obtain ⟨-, ⟨x, -, h⟩ | ⟨-, h⟩⟩ := decConsume_cases u b inLoop
  · rw [h]; exact id
  · rw [h]; exact decGoOn_decodes _ inLoop

theorem decEmitted_decodes (sig : Signal) (inLoop : Bool) (r : Put) : ¬ DecodedNothing (decEmitted sig inLoop r) := by
  cases r with
  | done => exact decGoOn_decodes sig inLoop
  | ioFail => cases inLoop <;> simp [decEmitted, DecodedNothing]

/-- Where the scan finds no `END`, it writes `DEC.PREV` only (R129). -/
theorem decScanned_sameOutput {u : DecUnit} {f : Fetch} (h : DecodedNothing (decScanned u f).2) :
    u.SameOutput (decScanned u f).1 := by
  cases f with
  | byte b =>
    simp only [decScanned] at h ⊢
    split at h
    · simp [DecodedNothing] at h
    · rw [if_neg ‹_›]; exact ⟨rfl, rfl, rfl, rfl⟩
  | eos => exact ⟨rfl, rfl, rfl, rfl⟩
  | ioFail => exact ⟨rfl, rfl, rfl, rfl⟩
  | again => exact ⟨rfl, rfl, rfl, rfl⟩

/-- Where the loop fetched no byte, it writes nothing, and had fetched none before (R132). -/
theorem decFetched_sameOutput {u : DecUnit} {got : Bool} {f : Fetch} (h : DecodedNothing (decFetched u got f).2) :
    got = false ∧ u.SameOutput (decFetched u got f).1 := by
  cases f with
  | byte b => exact absurd h (decConsume_decodes u b true)
  | eos =>
    cases got with
    | false => exact ⟨rfl, rfl, rfl, rfl, rfl⟩
    | true => simp [decFetched, DecodedNothing] at h
  | ioFail => simp [decFetched, DecodedNothing] at h
  | again => exact ⟨h, rfl, rfl, rfl, rfl⟩

/-- A transaction that decodes nothing follows only those that decode nothing, and leaves what the sink got and what the
decoder makes of the next byte. -/
theorem decTransact_sameOutput {u u' : DecUnit} {t : DecTask} {p : DecProgress} (ht : decTransact u t = some (u', p))
    (h : DecodedNothing p) : DecodedNothing (.wait t) ∧ u.SameOutput u' := by
  obtain ⟨a, q, rfl, -, hc⟩ | ⟨got, a, q, rfl, -, hc⟩ | ⟨x, sig, inLoop, st, q, rfl, -, rfl, rfl⟩ :=
    decTransact_cases ht
  · rw [show p = _ from congrArg Prod.snd hc] at h
    rw [show u' = _ from congrArg Prod.fst hc]
    obtain ⟨-, -, hesc, hflag⟩ := decScanned_sameOutput h
    exact ⟨trivial, by simp, by simp, by simp [hesc], by simp [hflag]⟩
  · rw [show p = _ from congrArg Prod.snd hc] at h
    rw [show u' = _ from congrArg Prod.fst hc]
    obtain ⟨hgot, -, -, hesc, hflag⟩ := decFetched_sameOutput h
    exact ⟨hgot, by simp, by simp, by simp [hesc], by simp [hflag]⟩
  · exact absurd h (decEmitted_decodes sig inLoop _)

/-- Only one outcome of a command is the response START_BYTE_NOT_FOUND (R79). -/
theorem DecOutcome.of_response_startByteNotFound {o : DecOutcome} (h : o.response = .plain .startByteNotFound) :
    o = .transfer .startByteNotFound := by
  cases o with
  | byte r => cases r <;> simp [DecOutcome.response, Response.plain] at h
  | transfer r => cases r <;> simp [DecOutcome.response, Response.plain] at h ⊢

/-- A command that goes on and answers START_BYTE_NOT_FOUND leaves the sink, the escape state and the flag (R133). -/
theorem decContinue_sameOutput {u : DecUnit} {p : DecProgress}
    (h : (decContinue u p).responses = u.responses ++ [.plain .startByteNotFound]) :
    u.SameOutput (decContinue u p) := by
  refine decContinue_rec (Q := fun v p => v.responses = u.responses ∧ (DecodedNothing p → u.SameOutput v))
    (R := fun v => v.responses = u.responses ++ [.plain .startByteNotFound] → u.SameOutput v) ?_ ?_ ?_
    ⟨rfl, fun _ => ⟨rfl, rfl, rfl, rfl⟩⟩ h
  · rintro v t v' r ⟨hrsp, hv⟩ ht
    refine ⟨(decTransact_responses ht).trans hrsp, fun hr => ?_⟩
    obtain ⟨hbefore, hsame⟩ := decTransact_sameOutput ht hr
    exact (hv hbefore).trans hsame
  · rintro v o ⟨hrsp, hv⟩ hend
    rw [DecUnit.endCommand_responses, hrsp, List.append_cancel_left_eq, List.singleton_inj] at hend
    obtain ⟨hsnk, hlog, hesc, hflag⟩ := hv (DecOutcome.of_response_startByteNotFound hend)
    exact ⟨hsnk, hlog, hesc, hflag⟩
  · rintro v t ⟨hrsp, -⟩ - hend
    simp [hrsp] at hend

/-- Settles O42: the transfer decoded nothing, whichever source it read. -/
theorem startByteNotFoundWritesNothing : Obligations.StartByteNotFoundWritesNothing := by
  intro i s t hi h hrsp
  obtain ⟨-, u, hu, rfl⟩ := exec_decoder_cases (unitOf_transfer hi) h
  obtain ⟨m, rfl⟩ := hu.eq_transfer hi
  obtain ⟨hsnk, hlog, hesc, hflag⟩ := decContinue_sameOutput (u := { s.dec with packetSrc := m }) hrsp
  exact ⟨hsnk, hlog, hesc, hflag⟩

end Sys2Proof.Machine

/-! SUPPORT. Chunk-boundary independence (O39): DEC_BYTE commands, and a DEC_TRANSFER over an in-memory source, each
leave what their wire bytes mean (`DecUnit.Decodes`), and what two runs of bytes mean one after the other is what they
mean as one (`DecUnit.Decodes.trans`). -/

namespace Sys2Proof.Machine

/-- From `u` to `v`, both idle, the decoder decoded wire bytes that mean `d` and left its sink as `q`. -/
structure DecUnit.Decodes (u : DecUnit) (d : Decoded) (q : Sink) (v : DecUnit) : Prop where
  snkLog : v.snkLog = u.snkLog ++ wrote d.data
  snk : v.snk = q
  esc : v.esc = d.esc
  malformed : v.malformed = (u.malformed || d.malformed)
  prev : v.prev = prevAfter u.prev d.consumed
  task : v.task = none
  packetSrc : v.packetSrc = none
  reqStart : v.reqStart = u.reqStart

/-- Wire bytes after wire bytes (R138). -/
theorem DecUnit.Decodes.trans {u v w : DecUnit} {d d' : Decoded} {q q' : Sink} (h : u.Decodes d q v)
    (h' : v.Decodes d' q' w) : u.Decodes (d.andThen d') q' w where
  snkLog := by rw [h'.snkLog, h.snkLog, Decoded.andThen, wrote_append, List.append_assoc]
  snk := h'.snk
  esc := h'.esc
  malformed := by rw [h'.malformed, h.malformed, Bool.or_assoc]; rfl
  prev := by rw [h'.prev, h.prev, Decoded.andThen, prevAfter_append]
  task := h'.task
  packetSrc := h'.packetSrc
  reqStart := h'.reqStart.trans h.reqStart

/-- What O39 asks of a run of wire bytes that was consumed whole. -/
theorem DecUnit.Decodes.consumed_all {u v : DecUnit} {d : Decoded} {q : Sink} {w : List Byte} (h : u.Decodes d q v)
    (hcon : d.consumed = w) :
    v.snkLog = u.snkLog ++ wrote d.data ∧ v.snk = q ∧ v.esc = d.esc ∧ v.malformed = (u.malformed || d.malformed) ∧
      v.prev = prevAfter u.prev w ∧ v.busy = false :=
  ⟨h.snkLog, h.snk, h.esc, h.malformed, hcon ▸ h.prev, DecUnit.busy_of_task_none h.task⟩

/-! ## DEC_BYTE commands -/

/-- A command, and those after it. -/
theorem execAll_cons {i : Instr} {s t : State} (h : exec i s = .next t) (is : List Instr) :
    execAll (i :: is) s = execAll is t := by
  simp [execAll, h]

/-- Commands after commands. -/
theorem execAll_append {is : List Instr} {s t : State} (h : execAll is s = .next t) (js : List Instr) :
    execAll (is ++ js) s = execAll js t := by
  induction is generalizing s with
  | nil => cases h; rfl
  | cons i is ih =>
    cases hi : exec i s with
    | next s' => rw [execAll_cons hi] at h; rw [List.cons_append, execAll_cons hi]; exact ih h
    | fault r => simp [execAll, hi] at h
    | refused r => simp [execAll, hi] at h

/-- One DEC_BYTE, as a run of commands. -/
theorem execAll_decByte {s : State} {b : Byte} {q : Sink} (ht : s.dec.task = none) (hk : s.dec.packetSrc = none)
    (hq : s.dec.snk.accepts (decodeWire s.dec.esc [b]).data = some q) :
    ∃ t, execAll [.decByte b] s = .next t ∧ s.dec.Decodes (decodeWire s.dec.esc [b]) q t.dec ∧
      t.dec.responses = s.dec.responses ++ [.plain (byteCode (decodeWire s.dec.esc [b]).ended)] := by
  have hrun := exec_decByte ht hk rfl hq
  exact ⟨_, execAll_cons hrun [], ⟨rfl, rfl, rfl, rfl, rfl, ht, hk, rfl⟩, rfl⟩

/-- DEC_BYTE commands whose bytes end no packet answer MORE each (R131, R138). -/
theorem execAll_decBytes_more {s : State} {w : List Byte} {q : Sink} (ht : s.dec.task = none)
    (hk : s.dec.packetSrc = none) (hend : (decodeWire s.dec.esc w).ended = false)
    (hq : s.dec.snk.accepts (decodeWire s.dec.esc w).data = some q) :
    ∃ t, execAll (w.map .decByte) s = .next t ∧ s.dec.Decodes (decodeWire s.dec.esc w) q t.dec ∧
      t.dec.responses = s.dec.responses ++ List.replicate w.length (.plain .more) := by
  induction w generalizing s with
  | nil =>
    simp only [decodeWire_nil, Sink.accepts_nil, Option.some.injEq] at hq ⊢
    exact ⟨s, rfl, ⟨by simp, hq, rfl, by simp, rfl, ht, hk, rfl⟩, by simp⟩
  | cons b bs ih =>
    have hb : (decodeWire s.dec.esc [b]).ended = false := by
      by_contra hne
      have hstop := decodeWire_append_of_ended (by simpa using hne) bs
      exact hne (by rw [← hstop]; exact hend)
    rw [← List.singleton_append, decodeWire_append hb] at hend hq ⊢
    obtain ⟨r, hq₁, hq₂⟩ := Sink.accepts_append.mp hq
    obtain ⟨t, hrun, hdec, hrsp⟩ := execAll_decByte ht hk hq₁
    rw [← hdec.esc] at hend hq₂ ⊢
    rw [← hdec.snk] at hq₂
    obtain ⟨t', hrun', hdec', hrsp'⟩ := ih hdec.task hdec.packetSrc hend hq₂
    refine ⟨t', by rw [List.map_append]; exact (execAll_append hrun _).trans hrun', hdec.trans hdec', ?_⟩
    rw [hrsp', hrsp, hb, List.append_assoc]
    rfl

/-- DEC_BYTE commands for a run of wire bytes that end no packet but possibly with the last (R131, R138). -/
theorem execAll_decBytes {s : State} {w : List Byte} {q : Sink} (ht : s.dec.task = none) (hk : s.dec.packetSrc = none)
    (hw : w ≠ []) (hcon : (decodeWire s.dec.esc w).consumed = w)
    (hq : s.dec.snk.accepts (decodeWire s.dec.esc w).data = some q) :
    ∃ t, execAll (w.map .decByte) s = .next t ∧ s.dec.Decodes (decodeWire s.dec.esc w) q t.dec ∧
      t.dec.responses = s.dec.responses ++ List.replicate (w.length - 1) (.plain .more) ++
        [.plain (byteCode (decodeWire s.dec.esc w).ended)] := by
  obtain ⟨init, b, rfl⟩ := (List.eq_nil_or_concat' w).resolve_left hw
  have hinit := decodeWire_not_ended_of_consumed hcon (by simp)
  rw [decodeWire_append hinit] at hq ⊢
  obtain ⟨r, hq₁, hq₂⟩ := Sink.accepts_append.mp hq
  obtain ⟨t, hrun, hdec, hrsp⟩ := execAll_decBytes_more ht hk hinit hq₁
  rw [← hdec.esc] at hq₂ ⊢
  rw [← hdec.snk] at hq₂
  obtain ⟨t', hrun', hdec', hrsp'⟩ := execAll_decByte hdec.task hdec.packetSrc hq₂
  refine ⟨t', by rw [List.map_append]; exact (execAll_append hrun _).trans hrun', hdec.trans hdec', ?_⟩
  rw [hrsp', hrsp, List.length_append, List.length_singleton, Nat.add_sub_cancel]
  rfl

/-! ## DEC_TRANSFER over an in-memory source -/

theorem transferCode_of_ne_nil {e : EscState} {w : List Byte} (hw : w ≠ []) :
    transferCode false e w = if (decodeWire e w).ended then .endOfPacket else .incompletePacket := by
  simp [transferCode, transferWire, hw]

/-- DEC_TRANSFER without the start-byte policy over an in-memory source all of whose bytes are consumed (R132). -/
theorem exec_decTransfer_inMemory {s : State} {w : List Byte} {q : Sink} (ht : s.dec.task = none)
    (hk : s.dec.packetSrc = none) (hreq : s.dec.reqStart = false) (hcon : (decodeWire s.dec.esc w).consumed = w)
    (hq : s.dec.snk.accepts (decodeWire s.dec.esc w).data = some q) :
    ∃ t, exec .decTransfer (s.setDec { s.dec with src := .inMemory ⟨w, 0⟩ }) = .next t ∧
      s.dec.Decodes (decodeWire s.dec.esc w) q t.dec ∧
      t.dec.responses = s.dec.responses ++ [.plain (transferCode false s.dec.esc w)] := by
  obtain ⟨hends, heof⟩ := decTransferOutcomes (s.setDec { s.dec with src := .inMemory ⟨w, 0⟩ }) w _ q ht hk
    (congrArg (transferWire · s.dec.esc w) hreq) hq
  cases hend : (decodeWire s.dec.esc w).ended with
  | false =>
    have hreads : Reads (.inMemory ⟨w, 0⟩) w (readEach w) (.inMemory ⟨w, w.length⟩) := by
      simpa using reads_packet w []
    exact ⟨_, heof _ _ _ hreads (read_packet_end w) hend, ⟨rfl, rfl, rfl, rfl, rfl, ht, hk, rfl⟩, hreq ▸ rfl⟩
  | true =>
    obtain ⟨init, b, rfl⟩ := (List.eq_nil_or_concat' w).resolve_left (by rintro rfl; simp at hend)
    refine ⟨_, hends init b _ _ _ _ rfl (reads_packet init [b]) (read_packet_byte init b []) rfl hend hcon,
      ⟨rfl, rfl, rfl, rfl, rfl, ht, hk, rfl⟩, ?_⟩
    rw [transferCode_of_ne_nil (by simp), hend]
    rfl

/-- Settles O39: each way leaves what the wire bytes mean; the first of the two transfers ends no packet, and the second
takes up the escape state it left. -/
theorem chunkBoundariesDoNotMatter : Obligations.ChunkBoundariesDoNotMatter := by
  rintro s xs ys d q ht hk hreq rfl hcon hys hq
  have hw : xs ++ ys ≠ [] := by simp [hys]
  obtain ⟨t₁, h₁, hdec₁, hrsp₁⟩ := execAll_decBytes ht hk hw hcon hq
  obtain ⟨t₂, h₂, hdec₂, hrsp₂⟩ := exec_decTransfer_inMemory ht hk hreq hcon hq
  have hxs := decodeWire_not_ended_of_consumed hcon hys
  have happ := decodeWire_append hxs ys
  have hxs_con := decodeWire_consumed hxs
  have hys_con : (decodeWire (decodeWire s.dec.esc xs).esc ys).consumed = ys := by
    simpa [happ, Decoded.andThen, hxs_con] using hcon
  obtain ⟨r, hq₃, hq₄⟩ := Sink.accepts_append.mp (happ ▸ hq)
  obtain ⟨t₃, h₃, hdec₃, -⟩ := exec_decTransfer_inMemory ht hk hreq hxs_con hq₃
  rw [← hdec₃.esc] at happ hys_con hq₄
  rw [← hdec₃.snk] at hq₄
  obtain ⟨t₄, h₄, hdec₄, hrsp₄⟩ :=
    exec_decTransfer_inMemory hdec₃.task hdec₃.packetSrc (hdec₃.reqStart.trans hreq) hys_con hq₄
  have hdec₃₄ := happ ▸ hdec₃.trans hdec₄
  have hended : (decodeWire t₃.dec.esc ys).ended = (decodeWire s.dec.esc (xs ++ ys)).ended := by rw [happ]; rfl
  rw [transferCode_of_ne_nil hw] at hrsp₂
  rw [transferCode_of_ne_nil hys, hended] at hrsp₄
  refine ⟨t₁, t₂, t₃, t₄, h₁, h₂, h₃, h₄, fun t hmem => ?_, hrsp₁, hrsp₂, hrsp₄⟩
  simp only [List.mem_cons, List.not_mem_nil, or_false] at hmem
  obtain rfl | rfl | rfl := hmem
  · exact hdec₁.consumed_all hcon
  · exact hdec₂.consumed_all hcon
  · exact hdec₃₄.consumed_all hcon

end Sys2Proof.Machine

/-! SUPPORT. The offers that have no step (O9, R176): a command whose unit is busy (`exec_busy`), and a reserved word. -/

namespace Sys2Proof.Machine

/-- Every command is refused while its unit is busy (R176). -/
theorem exec_busy {i : Instr} {s : State} (h : s.busy (unitOf i) = true) :
    exec i s = .refused (.unitBusy (unitOf i)) := by
  cases i with
  | encInit _ | encByte _ | encPacket _ _ | encTransfer => exact onEnc_busy h
  | decInit _ | decByte _ | decTransfer | decPacket _ | decGetMalformed | decClearMalformed => exact onDec_busy h

/-- Settles O9: the step is what O2 says of the offer, and taking the offer leaves the unit busy. -/
theorem busyUnitRefuses : Obligations.BusyUnitRefuses := by
  refine ⟨fun i s => exec_busy, fun i s w operand rest hi hd hb => ?busy, fun s w operand rest hi hd => ?reserved⟩
  case busy =>
    obtain ⟨hrun, -⟩ := stepRunsOfferedCommand s w operand rest hi
    have hb' : (s.takeInput rest).busy (unitOf i) = true := by rwa [State.takeInput_busy]
    exact (hrun i hd).trans (exec_busy hb')
  case reserved =>
    obtain ⟨-, hreserved, -⟩ := stepRunsOfferedCommand s w operand rest hi
    exact hreserved hd

end Sys2Proof.Machine

/-! SUPPORT. Power-on reset (O1, O47, R180): the input `powerOn` leaves the reset values whatever came before,
`State.reset` is a state it leaves as it is, and ENC_INIT 0 followed by DEC_INIT 0 does the same but for the two
responses (`exec_inits_eq_powerOn`). -/

namespace Sys2Proof.Machine

/-- Power-on reset leaves every register at its reset value, in whatever state it finds the block (R180). -/
theorem powerOn_atReset (s : State) : (powerOn s).AtReset := ⟨rfl, rfl, rfl, rfl, rfl, rfl, rfl, rfl⟩

theorem powerOn_reset : powerOn State.reset = State.reset := rfl

theorem reset_atReset : State.reset.AtReset := powerOn_reset ▸ powerOn_atReset State.reset

/-- The block with one response added on each unit. -/
def State.respondBoth (s : State) (r r' : Response) : State := (s.setEnc (s.enc.respond r)).setDec (s.dec.respond r')

/-- No register keeps a response (R30). -/
theorem State.AtReset.respondBoth {s : State} (h : s.AtReset) (r r' : Response) : (s.respondBoth r r').AtReset :=
  { h with }

/-- ENC_INIT 0 followed by DEC_INIT 0 is power-on reset but for the two responses (R180, D13). -/
theorem exec_inits_eq_powerOn {s : State} (henc : s.enc.task = none) (hdec : s.dec.task = none) :
    ∃ t, exec (.encInit false) s = .next t ∧
      exec (.decInit false) t = .next ((powerOn s).respondBoth (.plain .ok) (.plain .ok)) :=
  ⟨_, exec_of_encCommand (EncUnit.busy_of_task_none henc) (.init false),
    exec_of_decCommand (DecUnit.busy_of_task_none hdec) (.init false)⟩

/-- Settles O1: all three states are one `powerOn` leaves, the last but for its responses. -/
theorem powerOnResetState : Obligations.PowerOnResetState := by
  refine ⟨fun s rest hi => ?input, reset_atReset, fun s henc hdec _ => ?inits⟩
  case input =>
    exact ⟨powerOn (s.takeInput rest), step_eq_deliver hi, powerOn_atReset _, rfl, rfl, rfl, rfl, rfl, rfl, rfl⟩
  case inits =>
    obtain ⟨t, ht, hu⟩ := exec_inits_eq_powerOn henc hdec
    exact ⟨t, _, ht, hu, (powerOn_atReset s).respondBoth _ _⟩

/-- The reset values meet the decoder's invariant but for what stands behind its ports, which is the platform's
business (R180): NORMAL, so R26 asks nothing of `DEC.PREV`. -/
theorem State.AtReset.dec_sound {s : State} (h : s.AtReset) (hsrc : s.dec.src.wf = true) (hsnk : s.dec.snk.wf = true) :
    s.dec.Sound where
  src := hsrc
  snk := hsnk
  packetCursor := by simp [h.packet]
  escaped := by simp [h.esc]

/-- Settles O47: the units are idle with the reset values, and no port of `State.reset` has a cursor. -/
theorem resetMeetsInvariant : Obligations.ResetMeetsInvariant where
  enc := .of_idle reset_atReset.encIdle rfl rfl
  dec := (reset_atReset.dec_sound rfl rfl).inv_of_idle reset_atReset.decIdle reset_atReset.packet

end Sys2Proof.Machine
